-- ==== Sys2Proof/Word.lean ====
section
/-! DEFINITION. The word types that move between host and block (20_memory.md R82) and the plainest
integer widths (00_scope.md R27). -/

namespace Sys2Proof

/-- A value of the computation format F, as its IEEE 754 bit pattern (00_scope.md R14). F is a parameter
(R8), so the type fixes no width: the word's bits are a number, below 2 to the width of F in every word
that moves (`XferWord.fits`; log 1). -/
structure FWord where
  bits : Nat
deriving DecidableEq, Repr, Inhabited

/-- A value of the sample format S, as its IEEE 754 bit pattern (00_scope.md R14), of the width of S as
an F word is of the width of F (log 2). -/
structure SWord where
  bits : Nat
deriving DecidableEq, Repr, Inhabited

/-- `u32` (00_scope.md R10, R27). -/
abbrev U32 := BitVec 32

/-- `u64` (00_scope.md R10, R27). -/
abbrev U64 := BitVec 64

/-- The types an operand or result word can have (20_memory.md R82, 30_encoding.md R107). -/
inductive WordType where
  | f
  | s
  | u32
deriving DecidableEq, Repr

/-- One operand or result word, moved whole, of a stated type (20_memory.md R82, R84). -/
inductive XferWord where
  | f (v : FWord)
  | s (v : SWord)
  | u32 (v : U32)
deriving DecidableEq, Repr

end Sys2Proof
end

