-- ==== Sys2Proof/Config.lean ====
section
/-! DEFINITION. The parameters of the block (00_scope.md R8, 10_state.md R68). The model takes the open
ones as an argument, `Params`, which every state holds and no step writes; the functions without a body
and the free NaN values are opaque constants. -/

namespace Sys2Proof

/-- An IEEE 754 binary format: `eb` exponent bits and `mb` trailing significand bits. -/
structure Fmt where
  eb : Nat
  mb : Nat
deriving DecidableEq, Repr

/-- The width of a word of the format: a sign bit, the exponent, the trailing significand. -/
def Fmt.width (f : Fmt) : Nat := 1 + f.eb + f.mb

/-- binary32 (00_scope.md R9). -/
def Fmt.binary32 : Fmt := ⟨8, 23⟩

/-- binary64 (00_scope.md R9). -/
def Fmt.binary64 : Fmt := ⟨11, 52⟩

/-- binary128 (00_scope.md R9). -/
def Fmt.binary128 : Fmt := ⟨15, 112⟩

/-- A coefficient set `{a1, a2, b0, b1, b2}` (40_coefficients.md R140). -/
structure Coefs where
  a1 : FWord
  a2 : FWord
  b0 : FWord
  b1 : FWord
  b2 : FWord
deriving DecidableEq, Repr

/-- What the spec leaves open of a quiet NaN: its sign and its payload (00_scope.md R18). -/
structure Draw where
  neg : Bool
  payload : Nat
deriving DecidableEq, Repr, Inhabited

/-- The two forms of the resonator's b0 (40_coefficients.md R145, 90_conflicts.md C3). -/
inductive B0Form where
  | sqrt
  | linear
deriving DecidableEq, Repr

/-- A choice of `PHASE_OF_HASH`: the default, or the `k`-th of the maps `Config.phaseMap`, which may be
any map into the F values of [0, 1) (45_oscillator.md R320; log 4). -/
inductive PhaseMap where
  | scaled
  | other (k : Nat)
deriving DecidableEq, Repr

/-- The parameters the model takes as an argument (00_scope.md R8). -/
structure Params where
  /-- `CALC_FMT`, written F. -/
  calcFmt : Fmt
  /-- `SAMPLE_FMT`, written S. -/
  sampleFmt : Fmt
  /-- The feedback ROM `MLS_POLY`, its first entry for width 1 (20_memory.md R81, 43_mls.md R261). -/
  mlsTable : List U32
  /-- `PHASE_OF_HASH`. -/
  phaseMap : PhaseMap
  /-- `RESONATOR_B0_FORM`. -/
  b0Form : B0Form
deriving DecidableEq, Repr

/-- `MLS_POLY[n]` for n from 1 to 31 (43_mls.md R261). -/
def Params.mlsPoly (p : Params) (n : Nat) : U32 := p.mlsTable.getD (n - 1) 0

namespace Config

/-- `TAN` for each format F: a configuration function with no body, of which only the values of
`ftan` are used (00_scope.md R20; log 8). -/
opaque tan : Fmt → FWord → FWord

/-- `EXP`, as `tan` (00_scope.md R20; log 8). -/
opaque exp : Fmt → FWord → FWord

/-- `COS`, as `tan` (00_scope.md R20; log 8). -/
opaque cos : Fmt → FWord → FWord

/-- `SIN`, as `tan` (00_scope.md R20; log 8). -/
opaque sin : Fmt → FWord → FWord

/-- `RESP` for each format F: the evaluation of a complex transfer function, with no body
(40_coefficients.md R152; log 9). The pair is (re, im). -/
opaque resp : Fmt → Coefs → FWord → FWord × FWord

/-- The maps other than the default that `PHASE_OF_HASH` may be, with no body (45_oscillator.md R320;
log 4). -/
opaque phaseMap : Nat → Fmt → U32 → FWord

/-- The free value of 00_scope.md R18: the sign and payload of the NaN that the `op`-th operation of
the `cmd`-th drawing command of instance `inst` produces (log 10). -/
opaque freeNaN (inst cmd op : Nat) : Draw

/-- The 31 masks of 43_mls.md R262, the first for width 1. -/
def mlsDefaultTable : List U32 :=
  [0x00000001, 0x00000003, 0x00000005, 0x00000009, 0x00000012, 0x00000021, 0x00000041,
   0x0000008E, 0x00000108, 0x00000204, 0x00000402] ++
  [0x00000829, 0x0000100D, 0x00002015, 0x00004001, 0x00008016, 0x00010004, 0x00020013,
   0x00040013, 0x00080004, 0x00100002, 0x00200001] ++
  [0x00400010, 0x0080000D, 0x01000004, 0x02000023, 0x04000013, 0x08000004, 0x10000002,
   0x20000029, 0x40000004]

/-- `INITIAL_HASH` (00_scope.md R8, decided by D17; log 6). -/
def initialHash : U32 := 0

/-- `NUM_INSTANCES` of `State.reset`; `State.powerOn` takes any count (00_scope.md R8; log 7). -/
def numInstances : Nat := 4

end Config

/-- The default of every parameter (00_scope.md R8, 43_mls.md R262, 45_oscillator.md R320). -/
def Params.default : Params :=
  { calcFmt := Fmt.binary64, sampleFmt := Fmt.binary32, mlsTable := Config.mlsDefaultTable,
    phaseMap := .scaled, b0Form := .sqrt }

end Sys2Proof
end

