-- ==== Sys2Proof/Machine/Ieee.lean ====
section
/-! DEFINITION. IEEE 754 arithmetic over a binary interchange format (00_scope.md R9, R12, R15 to R26):
a word is read as an exact value, the operation is done exactly on integers, and the exact result is
narrowed once by roundTiesToEven. A NaN result takes its sign and payload from a draw (R18, log 10). -/

namespace Sys2Proof.Machine

/-- The value of a word. A finite value is a sign and a magnitude counted in quanta, the quantum being
the least positive value of the format; the sign tells +0 from -0. -/
inductive Fp where
  | nan
  | inf (neg : Bool)
  | fin (neg : Bool) (m : Nat)
deriving DecidableEq, Repr

/-- The quantum of a format is 2 to the power -`qexp`. -/
def qexp (f : Fmt) : Nat := 2 ^ (f.eb - 1) + f.mb - 2

/-- The least magnitude, in quanta, that no finite value of the format reaches. -/
def overflow (f : Fmt) : Nat := 2 ^ (f.mb + 2 ^ f.eb - 2)

/-- The spacing, in quanta, of the format's values at and above the magnitude `q`, up to the next power
of two. -/
def spacing (f : Fmt) (q : Nat) : Nat := if q < 2 ^ (f.mb + 1) then 1 else 2 ^ (Nat.log2 q - f.mb)

/-- The value of a word, given as its bits (IEEE 754 binary interchange encoding). -/
def Fp.ofBits (f : Fmt) (w : Nat) : Fp :=
  let neg := w.testBit (f.eb + f.mb)
  let e := (w >>> f.mb) % 2 ^ f.eb
  let frac := w % 2 ^ f.mb
  if e = 2 ^ f.eb - 1 then (if frac = 0 then .inf neg else .nan)
  else if e = 0 then .fin neg frac
  else .fin neg ((2 ^ f.mb + frac) <<< (e - 1))

/-- The sign bit of a word. -/
def signBits (f : Fmt) (neg : Bool) : Nat := if neg then 2 ^ (f.eb + f.mb) else 0

/-- The exponent and trailing significand bits of a finite magnitude the format represents. -/
def magBits (f : Fmt) (m : Nat) : Nat :=
  if m < 2 ^ f.mb then m
  else (Nat.log2 m - f.mb) * 2 ^ f.mb + m >>> (Nat.log2 m - f.mb)

/-- The bits of a value; a NaN is the quiet NaN that the draw gives (00_scope.md R18). -/
def Fp.toBits (f : Fmt) (d : Draw) : Fp → Nat
  | .nan => signBits f d.neg + (2 ^ f.eb - 1) * 2 ^ f.mb + 2 ^ (f.mb - 1) + d.payload % 2 ^ (f.mb - 1)
  | .inf neg => signBits f neg + (2 ^ f.eb - 1) * 2 ^ f.mb
  | .fin neg m => signBits f neg + magBits f m

/-- The integer nearest to `n / d`, ties to the even integer (00_scope.md R15). -/
def nearestEven (n d : Nat) : Nat :=
  let k := n / d
  let r := n % d
  if 2 * r > d ∨ (2 * r = d ∧ k % 2 = 1) then k + 1 else k

/-- The exact magnitude `n / d` quanta rounded by roundTiesToEven (00_scope.md R15), overflowing to an
infinity (R22). -/
def Fp.round (f : Fmt) (neg : Bool) (n d : Nat) : Fp :=
  let g := spacing f (n / d)
  let m := nearestEven n (d * g) * g
  if m ≥ overflow f then .inf neg else .fin neg m

/-- The exact magnitude `n / d` quanta, below the overflow threshold, rounded toward zero
(45_oscillator.md R320). -/
def Fp.truncate (f : Fmt) (neg : Bool) (n d : Nat) : Fp :=
  let g := spacing f (n / d)
  .fin neg (n / (d * g) * g)

/-- Change of sign (00_scope.md R26). -/
def Fp.neg : Fp → Fp
  | .nan => .nan
  | .inf s => .inf (!s)
  | .fin s m => .fin (!s) m

/-- Addition (00_scope.md R17); an exact zero sum of opposite signs is +0. -/
def Fp.add (f : Fmt) : Fp → Fp → Fp
  | .nan, _ => .nan
  | _, .nan => .nan
  | .inf s, .inf t => if s = t then .inf s else .nan
  | .inf s, .fin _ _ => .inf s
  | .fin _ _, .inf t => .inf t
  | .fin s a, .fin t b =>
    if s = t then Fp.round f s (a + b) 1
    else if a = b then .fin false 0
    else if b < a then Fp.round f s (a - b) 1
    else Fp.round f t (b - a) 1

/-- Subtraction (00_scope.md R17). -/
def Fp.sub (f : Fmt) (a b : Fp) : Fp := Fp.add f a b.neg

/-- Multiplication (00_scope.md R17). -/
def Fp.mul (f : Fmt) : Fp → Fp → Fp
  | .nan, _ => .nan
  | _, .nan => .nan
  | .inf s, .inf t => .inf (s != t)
  | .inf s, .fin t b => if b = 0 then .nan else .inf (s != t)
  | .fin s a, .inf t => if a = 0 then .nan else .inf (s != t)
  | .fin s a, .fin t b => Fp.round f (s != t) (a * b) (2 ^ qexp f)

/-- Division (00_scope.md R17). -/
def Fp.div (f : Fmt) : Fp → Fp → Fp
  | .nan, _ => .nan
  | _, .nan => .nan
  | .inf _, .inf _ => .nan
  | .inf s, .fin t _ => .inf (s != t)
  | .fin s _, .inf t => .fin (s != t) 0
  | .fin s a, .fin t b =>
    if b = 0 then (if a = 0 then .nan else .inf (s != t))
    else Fp.round f (s != t) (a * 2 ^ qexp f) b

/-- The integer square root of `n`, for `n < 4 ^ k`. -/
def isqrt : Nat → Nat → Nat
  | 0, _ => 0
  | k + 1, n =>
    let r := 2 * isqrt k (n / 4)
    if (r + 1) * (r + 1) ≤ n then r + 1 else r

/-- Square root (00_scope.md R17), correctly rounded. The root of `m` quanta is the root of
`x = 4 m 2^qexp` half quanta. Its leading bits `r`, more than the format keeps, are computed exactly;
where they are not the whole root, half a unit of `r` stands for the rest, which decides no tie. -/
def Fp.sqrt (f : Fmt) : Fp → Fp
  | .nan => .nan
  | .inf s => if s then .nan else .inf false
  | .fin s m =>
    if m = 0 then .fin s 0
    else if s then .nan
    else
      let x := 4 * m * 2 ^ qexp f
      let e := Nat.log2 x / 2 - (f.mb + 3)
      let r := isqrt (f.mb + 5) (x / 4 ^ e)
      Fp.round f false ((2 * r + if r * r * 4 ^ e = x then 0 else 1) * 2 ^ e) 4

/-- A value of one format narrowed or widened to another (00_scope.md R21, R22). -/
def Fp.convert (src dst : Fmt) : Fp → Fp
  | .nan => .nan
  | .inf s => .inf s
  | .fin s m => Fp.round dst s (m * 2 ^ qexp dst) (2 ^ qexp src)

/-- A value that is not NaN as an integer that orders like it: quanta, with the infinities at the
overflow threshold. +0 and -0 are the same number (00_scope.md R23). -/
def Fp.key (f : Fmt) : Fp → Option Int
  | .nan => none
  | .inf s => some (if s then -(overflow f : Int) else overflow f)
  | .fin s m => some (if s then -(m : Int) else m)

/-- compareQuietEqual (00_scope.md R23). -/
def Fp.eq (f : Fmt) (a b : Fp) : Bool :=
  match a.key f, b.key f with
  | some x, some y => decide (x = y)
  | _, _ => false

/-- compareQuietLess (00_scope.md R24). -/
def Fp.lt (f : Fmt) (a b : Fp) : Bool :=
  match a.key f, b.key f with
  | some x, some y => decide (x < y)
  | _, _ => false

/-! Words. An F word is read in the format F, an S word in the format S. -/

/-- The value of an F word. -/
def valF (f : Fmt) (w : FWord) : Fp := Fp.ofBits f w.bits

/-- The value of an S word. -/
def valS (f : Fmt) (w : SWord) : Fp := Fp.ofBits f w.bits

/-- The F word of a value. -/
def wordF (f : Fmt) (d : Draw) (v : Fp) : FWord := ⟨v.toBits f d⟩

/-- The S word of a value. -/
def wordS (f : Fmt) (d : Draw) (v : Fp) : SWord := ⟨v.toBits f d⟩

/-- The F word is a NaN. -/
def isNaNF (f : Fmt) (w : FWord) : Bool := valF f w = .nan

/-- The S word is a NaN. -/
def isNaNS (f : Fmt) (w : SWord) : Bool := valS f w = .nan

/-- `a + b` on F (00_scope.md R12, R17). -/
def fadd (f : Fmt) (d : Draw) (a b : FWord) : FWord := wordF f d (Fp.add f (valF f a) (valF f b))

/-- `a - b` on F (00_scope.md R12, R17). -/
def fsub (f : Fmt) (d : Draw) (a b : FWord) : FWord := wordF f d (Fp.sub f (valF f a) (valF f b))

/-- `a * b` on F (00_scope.md R12, R17). -/
def fmul (f : Fmt) (d : Draw) (a b : FWord) : FWord := wordF f d (Fp.mul f (valF f a) (valF f b))

/-- `a / b` on F (00_scope.md R12, R17). -/
def fdiv (f : Fmt) (d : Draw) (a b : FWord) : FWord := wordF f d (Fp.div f (valF f a) (valF f b))

/-- `SQRT(a)` (00_scope.md R17). -/
def fsqrt (f : Fmt) (d : Draw) (a : FWord) : FWord := wordF f d (Fp.sqrt f (valF f a))

/-- `neg(v)` (00_scope.md R26); the sign of a NaN is a draw (R18, log 11). -/
def fneg (f : Fmt) (d : Draw) (a : FWord) : FWord := wordF f d (valF f a).neg

/-- The one word that stands for a value, all NaNs being one value: what an opaque function of F values
is applied to (00_scope.md R18). -/
def canonF (f : Fmt) (w : FWord) : FWord := wordF f default (valF f w)

/-- A configuration function from F to F, given on words, applied to an F value: its result depends on
the operand's value alone, and a NaN result is a draw (00_scope.md R18, R20; log 8). At a NaN or any other
operand nothing more is known of the result, although 42_derived_filters.md R213 and 95_test_vectors.md V11
take TAN of a NaN for a NaN (DESIGN CHOICE, log 30). -/
def applyF (f : Fmt) (g : FWord → FWord) (d : Draw) (a : FWord) : FWord :=
  wordF f d (valF f (g (canonF f a)))

/-- `TAN(a)` (00_scope.md R20). -/
def ftan (f : Fmt) (d : Draw) (a : FWord) : FWord := applyF f (Config.tan f) d a

/-- `EXP(a)` (00_scope.md R20). -/
def fexp (f : Fmt) (d : Draw) (a : FWord) : FWord := applyF f (Config.exp f) d a

/-- `COS(a)` (00_scope.md R20). -/
def fcos (f : Fmt) (d : Draw) (a : FWord) : FWord := applyF f (Config.cos f) d a

/-- `SIN(a)` (00_scope.md R20). -/
def fsin (f : Fmt) (d : Draw) (a : FWord) : FWord := applyF f (Config.sin f) d a

/-- `toF(v)` (00_scope.md R21). -/
def toF (p : Params) (d : Draw) (v : SWord) : FWord :=
  wordF p.calcFmt d (Fp.convert p.sampleFmt p.calcFmt (valS p.sampleFmt v))

/-- `toS(v)`, the identity where F and S are the same format (00_scope.md R22). -/
def toS (p : Params) (d : Draw) (v : FWord) : SWord :=
  if p.calcFmt = p.sampleFmt then ⟨v.bits⟩
  else wordS p.sampleFmt d (Fp.convert p.calcFmt p.sampleFmt (valF p.calcFmt v))

/-- The value of the rational `n / d`, rounded once (00_scope.md R15). -/
def Fp.ofRat (f : Fmt) (neg : Bool) (n d : Nat) : Fp := Fp.round f neg (n * 2 ^ qexp f) d

/-- The F value of the rational `n / d`, rounded once; exact for the small integers and powers of two
the rules write as literals (00_scope.md R25, R26, R31). It is never a NaN, so it draws nothing. -/
def litF (f : Fmt) (neg : Bool) (n d : Nat) : FWord := wordF f default (Fp.ofRat f neg n d)

/-- The S value of the rational `n / d`, as `litF`. -/
def litS (f : Fmt) (neg : Bool) (n d : Nat) : SWord := wordS f default (Fp.ofRat f neg n d)

/-- `u64_to_F(u)` (00_scope.md R31). -/
def natToF (f : Fmt) (u : Nat) : FWord := litF f false u 1

/-- `+0` in F. -/
def zeroF : FWord := ⟨0⟩

/-- Terms of the alternating series `p/j - p/(q (j+2)) + p/(q² (j+4)) - ...`, each rounded down. -/
def arctanSum (q : Nat) : Nat → Nat → Nat → Int
  | 0, _, _ => 0
  | k + 1, p, j => (p / j : Nat) - arctanSum q k (p / q) (j + 2)

/-- `π · 2^n`, within a few units for each term summed: Machin's 16 arctan(1/5) - 4 arctan(1/239)
(log 23). -/
def piScaled (n : Nat) : Nat :=
  (16 * arctanSum 25 (n / 4 + 2) (2 ^ n / 5) 1 - 4 * arctanSum 57121 (n / 4 + 2) (2 ^ n / 239) 1).toNat

/-- `PI_F`: π, taken to 64 bits more than F keeps, rounded to F (00_scope.md R25; DEDUCED, log 23). -/
def piF (f : Fmt) : FWord := litF f false (piScaled (f.mb + 64)) (2 ^ (f.mb + 64))

/-- `TAU_F = 2 * PI_F` (00_scope.md R25). -/
def tauF (f : Fmt) : FWord := fmul f default (natToF f 2) (piF f)

/-- `SQRT2_F = SQRT(2)` (00_scope.md R25). -/
def sqrt2F (f : Fmt) : FWord := fsqrt f default (natToF f 2)

end Sys2Proof.Machine
end

