-- ==== Sys2Proof/Syntax.lean ====
section
/-! DEFINITION. The commands of FDSP-CMD-1: one constructor per row of the command table
(30_encoding.md R110), carrying the row's operands in table order. A RESET carries the sample rate
that SRF = 1 brings (R105); the three CMD-N rows carry the width of the N field first (R106, R119). -/

namespace Sys2Proof

/-- The units and the values of KIND, `none` being KIND = NONE (30_encoding.md R104). -/
inductive Kind where
  | none
  | bq
  | butter
  | reson
  | lowpole
  | dcblock
  | declick
  | mls
  | mlsnoise
  | noise
  | sine
deriving DecidableEq, Repr

/-- The operation codes (30_encoding.md R103). -/
inductive Op where
  | new
  | reset
  | setHash
  | tick
  | setCoefs
  | response
  | next
  | value
  | state
  | newSeed
deriving DecidableEq, Repr

/-- One command with its operands (30_encoding.md R110). -/
inductive Instr where
  | bqNew
  | bqReset (sr : Option FWord)
  | bqSetHash (h : U32)
  | bqTick (x : SWord)
  | bqSetCoefs (a1 a2 b0 b1 b2 : FWord)
  | bqResponse (omega : FWord)
  | butterNew (sr fc : FWord)
  | butterReset (sr : Option FWord)
  | butterSetHash (h : U32)
  | butterTick (x cutoff : SWord)
  | butterResponse (omega : FWord)
  | resonNew (sr fc bw : FWord)
  | resonReset (sr : Option FWord)
  | resonSetHash (h : U32)
  | resonTick (x center bandwidth : SWord)
  | resonResponse (omega : FWord)
  | lowpoleNew (sr fc : FWord)
  | lowpoleReset (sr : Option FWord)
  | lowpoleSetHash (h : U32)
  | lowpoleTick (x cutoff : SWord)
  | dcblockNew (sr fc : FWord)
  | dcblockReset (sr : Option FWord)
  | dcblockSetHash (h : U32)
  | dcblockTick (x : SWord)
  | declickNew (sr dur : FWord)
  | declickReset (sr : Option FWord)
  | declickSetHash (h : U32)
  | declickTick (x : SWord)
  | mlsNew (n : Nat) (st : U32)
  | mlsNext
  | mlsValue
  | mlsState
  | mlsNewSeed (n : Nat) (seed : U32)
  | mlsnoiseNew (n : Nat)
  | mlsnoiseReset (sr : Option FWord)
  | mlsnoiseSetHash (h : U32)
  | mlsnoiseTick
  | noiseNew
  | noiseReset (sr : Option FWord)
  | noiseSetHash (h : U32)
  | noiseTick
  | sineNew (sr : FWord)
  | sineReset (sr : Option FWord)
  | sineSetHash (h : U32)
  | sineTick (freq : SWord)
deriving DecidableEq, Repr

end Sys2Proof
end

