-- ==== Sys2Proof/WellFormed.lean ====
section
/-! DEFINITION. What the types of Instr do not rule out: the width of a CMD-N command must fit the
8-bit N field (30_encoding.md R101, R106). Widths 0 and 32 to 255 are encodable, so they are well
formed; the command they appear in raises WIDTH_ABORT. -/

namespace Sys2Proof

/-- The N field the command carries; 0 in every command that has none (30_encoding.md R101). -/
def Instr.width : Instr → Nat
  | .mlsNew n _ => n
  | .mlsNewSeed n _ => n
  | .mlsnoiseNew n => n
  | .bqNew | .bqReset _ | .bqSetHash _ | .bqTick _ | .bqSetCoefs _ _ _ _ _ | .bqResponse _ => 0
  | .butterNew _ _ | .butterReset _ | .butterSetHash _ | .butterTick _ _ | .butterResponse _ => 0
  | .resonNew _ _ _ | .resonReset _ | .resonSetHash _ | .resonTick _ _ _ | .resonResponse _ => 0
  | .lowpoleNew _ _ | .lowpoleReset _ | .lowpoleSetHash _ | .lowpoleTick _ _ => 0
  | .dcblockNew _ _ | .dcblockReset _ | .dcblockSetHash _ | .dcblockTick _ => 0
  | .declickNew _ _ | .declickReset _ | .declickSetHash _ | .declickTick _ => 0
  | .mlsNext | .mlsValue | .mlsState => 0
  | .mlsnoiseReset _ | .mlsnoiseSetHash _ | .mlsnoiseTick => 0
  | .noiseNew | .noiseReset _ | .noiseSetHash _ | .noiseTick => 0
  | .sineNew _ | .sineReset _ | .sineSetHash _ | .sineTick _ => 0

/-- The width fits the N field (30_encoding.md R101). -/
abbrev Instr.WellFormed (i : Instr) : Prop := i.width < 256

end Sys2Proof
end

