-- ==== Sys2Proof/Decode.lean ====
section
/-! DEFINITION. Decoding a command word and its operand words into an Instr, total on every word,
and encoding back, both from the tables of 30_encoding.md (R101 to R114). -/

namespace Sys2Proof

/-- The UNIT code, which is also the value of KIND (30_encoding.md R104). -/
def Kind.code : Kind → BitVec 4
  | .none => 0x0
  | .bq => 0x1
  | .butter => 0x2
  | .reson => 0x3
  | .lowpole => 0x4
  | .dcblock => 0x5
  | .declick => 0x6
  | .mls => 0x7
  | .mlsnoise => 0x8
  | .noise => 0x9
  | .sine => 0xA

/-- The unit a UNIT code names; `none` for the reserved codes (30_encoding.md R104). -/
def kindOfCode (v : BitVec 4) : Kind :=
  match v.toNat with
  | 1 => .bq
  | 2 => .butter
  | 3 => .reson
  | 4 => .lowpole
  | 5 => .dcblock
  | 6 => .declick
  | 7 => .mls
  | 8 => .mlsnoise
  | 9 => .noise
  | 10 => .sine
  | _ => .none

/-- The OP code (30_encoding.md R103). -/
def Op.code : Op → BitVec 4
  | .new => 0x0
  | .reset => 0x1
  | .setHash => 0x2
  | .tick => 0x3
  | .setCoefs => 0x4
  | .response => 0x5
  | .next => 0x6
  | .value => 0x7
  | .state => 0x8
  | .newSeed => 0x9

/-- The operation an OP code names; none for the reserved codes (30_encoding.md R103). -/
def opOfCode (v : BitVec 4) : Option Op :=
  match v.toNat with
  | 0 => some .new
  | 1 => some .reset
  | 2 => some .setHash
  | 3 => some .tick
  | 4 => some .setCoefs
  | 5 => some .response
  | 6 => some .next
  | 7 => some .value
  | 8 => some .state
  | 9 => some .newSeed
  | _ => none

/-- The operand column of the command table, without the sample rate of a RESET with SRF = 1; none
where the (UNIT, OP) pair is invalid (30_encoding.md R110, R111). -/
def operandTypes : Kind → Op → Option (List WordType)
  | .none, _ => none
  | .bq, .new => some []
  | .bq, .reset => some []
  | .bq, .setHash => some [.u32]
  | .bq, .tick => some [.s]
  | .bq, .setCoefs => some [.f, .f, .f, .f, .f]
  | .bq, .response => some [.f]
  | .butter, .new => some [.f, .f]
  | .butter, .reset => some []
  | .butter, .setHash => some [.u32]
  | .butter, .tick => some [.s, .s]
  | .butter, .response => some [.f]
  | .reson, .new => some [.f, .f, .f]
  | .reson, .reset => some []
  | .reson, .setHash => some [.u32]
  | .reson, .tick => some [.s, .s, .s]
  | .reson, .response => some [.f]
  | .lowpole, .new => some [.f, .f]
  | .lowpole, .reset => some []
  | .lowpole, .setHash => some [.u32]
  | .lowpole, .tick => some [.s, .s]
  | .dcblock, .new => some [.f, .f]
  | .dcblock, .reset => some []
  | .dcblock, .setHash => some [.u32]
  | .dcblock, .tick => some [.s]
  | .declick, .new => some [.f, .f]
  | .declick, .reset => some []
  | .declick, .setHash => some [.u32]
  | .declick, .tick => some [.s]
  | .mls, .new => some [.u32]
  | .mls, .next => some []
  | .mls, .value => some []
  | .mls, .state => some []
  | .mls, .newSeed => some [.u32]
  | .mlsnoise, .new => some []
  | .mlsnoise, .reset => some []
  | .mlsnoise, .setHash => some [.u32]
  | .mlsnoise, .tick => some []
  | .noise, .new => some []
  | .noise, .reset => some []
  | .noise, .setHash => some [.u32]
  | .noise, .tick => some []
  | .sine, .new => some [.f]
  | .sine, .reset => some []
  | .sine, .setHash => some [.u32]
  | .sine, .tick => some [.s]
  | _, _ => none

/-- The CMD-N rows, whose N field is free (30_encoding.md R101, R102). -/
def takesWidth : Kind → Op → Bool
  | .mls, .new => true
  | .mls, .newSeed => true
  | .mlsnoise, .new => true
  | _, _ => false

/-- The fields of a legal command word (30_encoding.md R101). -/
structure Fields where
  unit : Kind
  op : Op
  srf : Bool
  n : Nat
deriving DecidableEq, Repr

/-- `word = {RSV1, N, RSV0, SRF, UNIT, OP}` (30_encoding.md R101). -/
def Fields.word (f : Fields) : BitVec 32 :=
  (0 : BitVec 8) ++ BitVec.ofNat 8 f.n ++ (0 : BitVec 7) ++ BitVec.ofBool f.srf ++
    f.unit.code ++ f.op.code

/-- The operand words that follow the command word (30_encoding.md R105, R108, R112). -/
def Fields.operandTypes (f : Fields) : List WordType :=
  (Sys2Proof.operandTypes f.unit f.op).getD [] ++ if f.srf then [WordType.f] else []

/-- The fields of a word; none exactly where the word is illegal (30_encoding.md R114). -/
def fieldsOf (w : BitVec 32) : Option Fields :=
  let unit := kindOfCode (w.extractLsb' 4 4)
  let srf := w.getLsbD 8
  let n := (w.extractLsb' 16 8).toNat
  if w.extractLsb' 24 8 ≠ 0 ∨ w.extractLsb' 9 7 ≠ 0 then none
  else
    match opOfCode (w.extractLsb' 0 4) with
    | none => none
    | some op =>
      if (operandTypes unit op).isNone then none
      else if srf ∧ op ≠ .reset then none
      else if n ≠ 0 ∧ ¬ takesWidth unit op then none
      else some ⟨unit, op, srf, n⟩

/-- The match and mask columns of the command table: a word w is the row's command when
`(w & mask) == match` (30_encoding.md R110). -/
def commandTable : List (String × BitVec 32 × BitVec 32) :=
  [("BQ.NEW", 0x00000010, 0xffffffff), ("BQ.RESET", 0x00000011, 0xfffffeff),
   ("BQ.SETHASH", 0x00000012, 0xffffffff), ("BQ.TICK", 0x00000013, 0xffffffff),
   ("BQ.SETCOEFS", 0x00000014, 0xffffffff), ("BQ.RESPONSE", 0x00000015, 0xffffffff),
   ("BUTTER.NEW", 0x00000020, 0xffffffff), ("BUTTER.RESET", 0x00000021, 0xfffffeff),
   ("BUTTER.SETHASH", 0x00000022, 0xffffffff), ("BUTTER.TICK", 0x00000023, 0xffffffff),
   ("BUTTER.RESPONSE", 0x00000025, 0xffffffff), ("RESON.NEW", 0x00000030, 0xffffffff)] ++
  [("RESON.RESET", 0x00000031, 0xfffffeff), ("RESON.SETHASH", 0x00000032, 0xffffffff),
   ("RESON.TICK", 0x00000033, 0xffffffff), ("RESON.RESPONSE", 0x00000035, 0xffffffff),
   ("LOWPOLE.NEW", 0x00000040, 0xffffffff), ("LOWPOLE.RESET", 0x00000041, 0xfffffeff),
   ("LOWPOLE.SETHASH", 0x00000042, 0xffffffff), ("LOWPOLE.TICK", 0x00000043, 0xffffffff),
   ("DCBLOCK.NEW", 0x00000050, 0xffffffff), ("DCBLOCK.RESET", 0x00000051, 0xfffffeff),
   ("DCBLOCK.SETHASH", 0x00000052, 0xffffffff), ("DCBLOCK.TICK", 0x00000053, 0xffffffff)] ++
  [("DECLICK.NEW", 0x00000060, 0xffffffff), ("DECLICK.RESET", 0x00000061, 0xfffffeff),
   ("DECLICK.SETHASH", 0x00000062, 0xffffffff), ("DECLICK.TICK", 0x00000063, 0xffffffff),
   ("MLS.NEW", 0x00000070, 0xff00ffff), ("MLS.NEXT", 0x00000076, 0xffffffff),
   ("MLS.VALUE", 0x00000077, 0xffffffff), ("MLS.STATE", 0x00000078, 0xffffffff),
   ("MLS.NEWSEED", 0x00000079, 0xff00ffff), ("MLSNOISE.NEW", 0x00000080, 0xff00ffff),
   ("MLSNOISE.RESET", 0x00000081, 0xfffffeff), ("MLSNOISE.SETHASH", 0x00000082, 0xffffffff)] ++
  [("MLSNOISE.TICK", 0x00000083, 0xffffffff), ("NOISE.NEW", 0x00000090, 0xffffffff),
   ("NOISE.RESET", 0x00000091, 0xfffffeff), ("NOISE.SETHASH", 0x00000092, 0xffffffff),
   ("NOISE.TICK", 0x00000093, 0xffffffff), ("SINE.NEW", 0x000000a0, 0xffffffff),
   ("SINE.RESET", 0x000000a1, 0xfffffeff), ("SINE.SETHASH", 0x000000a2, 0xffffffff),
   ("SINE.TICK", 0x000000a3, 0xffffffff)]

/-- The optional sample-rate operand of a RESET (30_encoding.md R105). -/
def rateOperand : Bool → List XferWord → Option (Option FWord)
  | false, [] => some none
  | true, [.f sr] => some (some sr)
  | _, _ => none

/-- The BQ rows of the command table (30_encoding.md R110). -/
def buildBq (f : Fields) (ops : List XferWord) : Option Instr :=
  match f.op, ops with
  | .new, [] => some .bqNew
  | .reset, _ => (rateOperand f.srf ops).map .bqReset
  | .setHash, [.u32 h] => some (.bqSetHash h)
  | .tick, [.s x] => some (.bqTick x)
  | .setCoefs, [.f a1, .f a2, .f b0, .f b1, .f b2] => some (.bqSetCoefs a1 a2 b0 b1 b2)
  | .response, [.f omega] => some (.bqResponse omega)
  | _, _ => none

/-- The BUTTER rows (30_encoding.md R110). -/
def buildButter (f : Fields) (ops : List XferWord) : Option Instr :=
  match f.op, ops with
  | .new, [.f sr, .f fc] => some (.butterNew sr fc)
  | .reset, _ => (rateOperand f.srf ops).map .butterReset
  | .setHash, [.u32 h] => some (.butterSetHash h)
  | .tick, [.s x, .s cutoff] => some (.butterTick x cutoff)
  | .response, [.f omega] => some (.butterResponse omega)
  | _, _ => none

/-- The RESON rows (30_encoding.md R110). -/
def buildReson (f : Fields) (ops : List XferWord) : Option Instr :=
  match f.op, ops with
  | .new, [.f sr, .f fc, .f bw] => some (.resonNew sr fc bw)
  | .reset, _ => (rateOperand f.srf ops).map .resonReset
  | .setHash, [.u32 h] => some (.resonSetHash h)
  | .tick, [.s x, .s center, .s bandwidth] => some (.resonTick x center bandwidth)
  | .response, [.f omega] => some (.resonResponse omega)
  | _, _ => none

/-- The LOWPOLE rows (30_encoding.md R110). -/
def buildLowpole (f : Fields) (ops : List XferWord) : Option Instr :=
  match f.op, ops with
  | .new, [.f sr, .f fc] => some (.lowpoleNew sr fc)
  | .reset, _ => (rateOperand f.srf ops).map .lowpoleReset
  | .setHash, [.u32 h] => some (.lowpoleSetHash h)
  | .tick, [.s x, .s cutoff] => some (.lowpoleTick x cutoff)
  | _, _ => none

/-- The DCBLOCK rows (30_encoding.md R110). -/
def buildDcblock (f : Fields) (ops : List XferWord) : Option Instr :=
  match f.op, ops with
  | .new, [.f sr, .f fc] => some (.dcblockNew sr fc)
  | .reset, _ => (rateOperand f.srf ops).map .dcblockReset
  | .setHash, [.u32 h] => some (.dcblockSetHash h)
  | .tick, [.s x] => some (.dcblockTick x)
  | _, _ => none

/-- The DECLICK rows (30_encoding.md R110). -/
def buildDeclick (f : Fields) (ops : List XferWord) : Option Instr :=
  match f.op, ops with
  | .new, [.f sr, .f dur] => some (.declickNew sr dur)
  | .reset, _ => (rateOperand f.srf ops).map .declickReset
  | .setHash, [.u32 h] => some (.declickSetHash h)
  | .tick, [.s x] => some (.declickTick x)
  | _, _ => none

/-- The MLS rows (30_encoding.md R110). -/
def buildMls (f : Fields) (ops : List XferWord) : Option Instr :=
  match f.op, ops with
  | .new, [.u32 st] => some (.mlsNew f.n st)
  | .next, [] => some .mlsNext
  | .value, [] => some .mlsValue
  | .state, [] => some .mlsState
  | .newSeed, [.u32 seed] => some (.mlsNewSeed f.n seed)
  | _, _ => none

/-- The MLSNOISE rows (30_encoding.md R110). -/
def buildMlsnoise (f : Fields) (ops : List XferWord) : Option Instr :=
  match f.op, ops with
  | .new, [] => some (.mlsnoiseNew f.n)
  | .reset, _ => (rateOperand f.srf ops).map .mlsnoiseReset
  | .setHash, [.u32 h] => some (.mlsnoiseSetHash h)
  | .tick, [] => some .mlsnoiseTick
  | _, _ => none

/-- The NOISE rows (30_encoding.md R110). -/
def buildNoise (f : Fields) (ops : List XferWord) : Option Instr :=
  match f.op, ops with
  | .new, [] => some .noiseNew
  | .reset, _ => (rateOperand f.srf ops).map .noiseReset
  | .setHash, [.u32 h] => some (.noiseSetHash h)
  | .tick, [] => some .noiseTick
  | _, _ => none

/-- The SINE rows (30_encoding.md R110). -/
def buildSine (f : Fields) (ops : List XferWord) : Option Instr :=
  match f.op, ops with
  | .new, [.f sr] => some (.sineNew sr)
  | .reset, _ => (rateOperand f.srf ops).map .sineReset
  | .setHash, [.u32 h] => some (.sineSetHash h)
  | .tick, [.s freq] => some (.sineTick freq)
  | _, _ => none

/-- The command of a legal word and exactly its operand words; none where the operand words differ
in number or type from those the word calls for (30_encoding.md R112, R113). -/
def build (f : Fields) (ops : List XferWord) : Option Instr :=
  match f.unit with
  | .none => none
  | .bq => buildBq f ops
  | .butter => buildButter f ops
  | .reson => buildReson f ops
  | .lowpole => buildLowpole f ops
  | .dcblock => buildDcblock f ops
  | .declick => buildDeclick f ops
  | .mls => buildMls f ops
  | .mlsnoise => buildMlsnoise f ops
  | .noise => buildNoise f ops
  | .sine => buildSine f ops

/-- What decoding answers: the command; an illegal word (30_encoding.md R114); or a legal word with
operand words other than its own, a broken host duty (60_exceptions.md R362), which names the
word's fields. -/
inductive Decoded where
  | ok (i : Instr)
  | illegalWord
  | wrongOperands (f : Fields)
deriving DecidableEq, Repr

/-- Decode a command word and the operand words that came with it (30_encoding.md R117). -/
def decode (w : BitVec 32) (ops : List XferWord) : Decoded :=
  match fieldsOf w with
  | none => .illegalWord
  | some f =>
    match build f ops with
    | none => .wrongOperands f
    | some i => .ok i

/-! The encoder. -/

/-- UNIT, OP and SRF of a RESET (30_encoding.md R105). -/
def resetFields (unit : Kind) (sr : Option FWord) : Fields := ⟨unit, .reset, sr.isSome, 0⟩

/-- The fields of a command's word (30_encoding.md R110). -/
def Instr.fields : Instr → Fields
  | .bqNew => ⟨.bq, .new, false, 0⟩
  | .bqReset sr => resetFields .bq sr
  | .bqSetHash _ => ⟨.bq, .setHash, false, 0⟩
  | .bqTick _ => ⟨.bq, .tick, false, 0⟩
  | .bqSetCoefs _ _ _ _ _ => ⟨.bq, .setCoefs, false, 0⟩
  | .bqResponse _ => ⟨.bq, .response, false, 0⟩
  | .butterNew _ _ => ⟨.butter, .new, false, 0⟩
  | .butterReset sr => resetFields .butter sr
  | .butterSetHash _ => ⟨.butter, .setHash, false, 0⟩
  | .butterTick _ _ => ⟨.butter, .tick, false, 0⟩
  | .butterResponse _ => ⟨.butter, .response, false, 0⟩
  | .resonNew _ _ _ => ⟨.reson, .new, false, 0⟩
  | .resonReset sr => resetFields .reson sr
  | .resonSetHash _ => ⟨.reson, .setHash, false, 0⟩
  | .resonTick _ _ _ => ⟨.reson, .tick, false, 0⟩
  | .resonResponse _ => ⟨.reson, .response, false, 0⟩
  | .lowpoleNew _ _ => ⟨.lowpole, .new, false, 0⟩
  | .lowpoleReset sr => resetFields .lowpole sr
  | .lowpoleSetHash _ => ⟨.lowpole, .setHash, false, 0⟩
  | .lowpoleTick _ _ => ⟨.lowpole, .tick, false, 0⟩
  | .dcblockNew _ _ => ⟨.dcblock, .new, false, 0⟩
  | .dcblockReset sr => resetFields .dcblock sr
  | .dcblockSetHash _ => ⟨.dcblock, .setHash, false, 0⟩
  | .dcblockTick _ => ⟨.dcblock, .tick, false, 0⟩
  | .declickNew _ _ => ⟨.declick, .new, false, 0⟩
  | .declickReset sr => resetFields .declick sr
  | .declickSetHash _ => ⟨.declick, .setHash, false, 0⟩
  | .declickTick _ => ⟨.declick, .tick, false, 0⟩
  | .mlsNew n _ => ⟨.mls, .new, false, n⟩
  | .mlsNext => ⟨.mls, .next, false, 0⟩
  | .mlsValue => ⟨.mls, .value, false, 0⟩
  | .mlsState => ⟨.mls, .state, false, 0⟩
  | .mlsNewSeed n _ => ⟨.mls, .newSeed, false, n⟩
  | .mlsnoiseNew n => ⟨.mlsnoise, .new, false, n⟩
  | .mlsnoiseReset sr => resetFields .mlsnoise sr
  | .mlsnoiseSetHash _ => ⟨.mlsnoise, .setHash, false, 0⟩
  | .mlsnoiseTick => ⟨.mlsnoise, .tick, false, 0⟩
  | .noiseNew => ⟨.noise, .new, false, 0⟩
  | .noiseReset sr => resetFields .noise sr
  | .noiseSetHash _ => ⟨.noise, .setHash, false, 0⟩
  | .noiseTick => ⟨.noise, .tick, false, 0⟩
  | .sineNew _ => ⟨.sine, .new, false, 0⟩
  | .sineReset sr => resetFields .sine sr
  | .sineSetHash _ => ⟨.sine, .setHash, false, 0⟩
  | .sineTick _ => ⟨.sine, .tick, false, 0⟩

/-- The operand word a RESET carries when it has a sample rate (30_encoding.md R105). -/
def rateWords : Option FWord → List XferWord
  | none => []
  | some sr => [.f sr]

/-- A command's operand words in table order (30_encoding.md R108, R110). -/
def Instr.operands : Instr → List XferWord
  | .bqNew => []
  | .bqReset sr => rateWords sr
  | .bqSetHash h => [.u32 h]
  | .bqTick x => [.s x]
  | .bqSetCoefs a1 a2 b0 b1 b2 => [.f a1, .f a2, .f b0, .f b1, .f b2]
  | .bqResponse omega => [.f omega]
  | .butterNew sr fc => [.f sr, .f fc]
  | .butterReset sr => rateWords sr
  | .butterSetHash h => [.u32 h]
  | .butterTick x cutoff => [.s x, .s cutoff]
  | .butterResponse omega => [.f omega]
  | .resonNew sr fc bw => [.f sr, .f fc, .f bw]
  | .resonReset sr => rateWords sr
  | .resonSetHash h => [.u32 h]
  | .resonTick x center bandwidth => [.s x, .s center, .s bandwidth]
  | .resonResponse omega => [.f omega]
  | .lowpoleNew sr fc => [.f sr, .f fc]
  | .lowpoleReset sr => rateWords sr
  | .lowpoleSetHash h => [.u32 h]
  | .lowpoleTick x cutoff => [.s x, .s cutoff]
  | .dcblockNew sr fc => [.f sr, .f fc]
  | .dcblockReset sr => rateWords sr
  | .dcblockSetHash h => [.u32 h]
  | .dcblockTick x => [.s x]
  | .declickNew sr dur => [.f sr, .f dur]
  | .declickReset sr => rateWords sr
  | .declickSetHash h => [.u32 h]
  | .declickTick x => [.s x]
  | .mlsNew _ st => [.u32 st]
  | .mlsNext => []
  | .mlsValue => []
  | .mlsState => []
  | .mlsNewSeed _ seed => [.u32 seed]
  | .mlsnoiseNew _ => []
  | .mlsnoiseReset sr => rateWords sr
  | .mlsnoiseSetHash h => [.u32 h]
  | .mlsnoiseTick => []
  | .noiseNew => []
  | .noiseReset sr => rateWords sr
  | .noiseSetHash h => [.u32 h]
  | .noiseTick => []
  | .sineNew sr => [.f sr]
  | .sineReset sr => rateWords sr
  | .sineSetHash h => [.u32 h]
  | .sineTick freq => [.s freq]

/-- The command word and operand words of a command (30_encoding.md R100, R110). -/
def encode (i : Instr) : BitVec 32 × List XferWord := (i.fields.word, i.operands)

/-! The widths of words, and the opcode table's numbering of an instruction's bits. -/

/-- The width of a word type (20_memory.md R82). -/
def WordType.width (p : Params) : WordType → Nat
  | .f => p.calcFmt.width
  | .s => p.sampleFmt.width
  | .u32 => 32

/-- The word has the width of its type (20_memory.md R82). -/
def XferWord.fits (p : Params) : XferWord → Bool
  | .f v => v.bits < 2 ^ p.calcFmt.width
  | .s v => v.bits < 2 ^ p.sampleFmt.width
  | .u32 _ => true

/-- Every operand word has the width of its type (30_encoding.md R113; log 18). -/
def operandsFit (p : Params) (ops : List XferWord) : Bool := ops.all (XferWord.fits p)

/-- The operand word of a type whose bits are the low bits of `bits`. -/
def XferWord.ofBits (p : Params) : WordType → Nat → XferWord
  | .f, bits => .f ⟨bits % 2 ^ p.calcFmt.width⟩
  | .s, bits => .s ⟨bits % 2 ^ p.sampleFmt.width⟩
  | .u32, bits => .u32 (BitVec.ofNat 32 bits)

/-- The operand words of the listed types, the first in the lowest bits. -/
def operandsOfBits (p : Params) : List WordType → Nat → List XferWord
  | [], _ => []
  | t :: ts, bits => XferWord.ofBits p t bits :: operandsOfBits p ts (bits >>> t.width p)

/-- The command word in the low 32 bits of `w`, with the operand words its fields call for taken from
the bits above it; an illegal word has none (log 20). -/
def tableWords (p : Params) (w : Nat) : BitVec 32 × List XferWord :=
  let word := BitVec.ofNat 32 w
  match fieldsOf word with
  | none => (word, [])
  | some f => (word, operandsOfBits p f.operandTypes (w >>> 32))

/-- The instruction this decoder reads, in a block with parameters `p`, from an instruction whose bits
are the low `nbits` bits of `w`, every bit above being 0. -/
def decodeTable (p : Params) (nbits w : Nat) : Option Instr :=
  let x := tableWords p (w % 2 ^ nbits)
  match decode x.1 x.2 with
  | .ok i => some i
  | .illegalWord => none
  | .wrongOperands _ => none

/-- The instruction this decoder reads from an instruction whose bits, numbered as
spec/opcode_table.json numbers them, are the low `nbits` bits of `w`, every bit above being 0. -/
def decodeTableWord (nbits w : Nat) : Option Instr := decodeTable Params.default nbits w

end Sys2Proof
end

