-- ==== Sys2Proof/Machine/State.lean ====
section
/-! DEFINITION. The state of the block (10_state.md), as plain data: the instances, the commands the
host has issued and no step has delivered, and the command in progress. Also why a step can stop. -/

namespace Sys2Proof.Machine

/-- FAULT_CAUSE (10_state.md R47); the constructors are its four values. -/
inductive FaultCause where
  | none
  | illegalCommand
  | widthAbort
  | mlsStateInvalid
deriving DecidableEq, Repr

/-- The delay registers X1, X2, Y1, Y2 (10_state.md R50 to R52). -/
structure Delays where
  x1 : FWord
  x2 : FWord
  y1 : FWord
  y2 : FWord
deriving DecidableEq, Repr

/-- BQ's registers (10_state.md R50). -/
structure BqRegs where
  coefs : Coefs
  delays : Delays
  hash : U32
deriving DecidableEq, Repr

/-- BUTTER's registers (10_state.md R51). -/
structure ButterRegs where
  sr : FWord
  cutoff : FWord
  coefs : Coefs
  delays : Delays
  hash : U32
deriving DecidableEq, Repr

/-- RESON's registers (10_state.md R52). -/
structure ResonRegs where
  sr : FWord
  center : FWord
  bandwidth : FWord
  coefs : Coefs
  delays : Delays
  hash : U32
deriving DecidableEq, Repr

/-- LOWPOLE's registers (10_state.md R53). -/
structure LowpoleRegs where
  sr : FWord
  cutoff : FWord
  coeff : FWord
  value : FWord
  hash : U32
deriving DecidableEq, Repr

/-- DCBLOCK's registers (10_state.md R54). -/
structure DcblockRegs where
  sr : FWord
  cutoff : FWord
  coeff : FWord
  x1 : FWord
  y1 : FWord
  hash : U32
deriving DecidableEq, Repr

/-- DECLICK's registers (10_state.md R55). -/
structure DeclickRegs where
  dt : FWord
  duration : FWord
  t : FWord
  hash : U32
deriving DecidableEq, Repr

/-- MLS's registers N and S; it has no HASH (10_state.md R49, R56). -/
structure MlsRegs where
  n : U32
  s : U32
deriving DecidableEq, Repr

/-- MLSNOISE's registers (10_state.md R57). -/
structure MlsnoiseRegs where
  n : U32
  s : U32
  hash : U32
deriving DecidableEq, Repr

/-- NOISE's registers (10_state.md R58). -/
structure NoiseRegs where
  x : U64
  hash : U32
deriving DecidableEq, Repr

/-- SINE's registers (10_state.md R59). -/
structure SineRegs where
  dt : FWord
  phase : FWord
  hash : U32
deriving DecidableEq, Repr

/-- KIND together with the registers of that kind, and no others: an instance holds only the registers
of its current KIND, and at power-on holds none (10_state.md R46, R60, R63, R64; log 13). -/
inductive Node where
  | none
  | bq (r : BqRegs)
  | butter (r : ButterRegs)
  | reson (r : ResonRegs)
  | lowpole (r : LowpoleRegs)
  | dcblock (r : DcblockRegs)
  | declick (r : DeclickRegs)
  | mls (r : MlsRegs)
  | mlsnoise (r : MlsnoiseRegs)
  | noise (r : NoiseRegs)
  | sine (r : SineRegs)
deriving DecidableEq, Repr

/-- The outcome of one command, as the host receives it (10_state.md R42, 60_exceptions.md R344). -/
inductive CmdOutcome where
  | done (results : List XferWord)
  | faulted (cause : FaultCause) (word : BitVec 32)
deriving DecidableEq, Repr

/-- One instance of the block (10_state.md R40). -/
structure Inst where
  /-- KIND and the registers of that kind. -/
  node : Node
  /-- FAULT_CAUSE (R47). -/
  faultCause : FaultCause
  /-- FAULT_WORD (R48). -/
  faultWord : BitVec 32
  /-- The outcomes returned to the host, newest first (R402; log 19). -/
  outcomes : List CmdOutcome
  /-- The model's own counter, to which the free NaN values are applied (log 10). -/
  draws : Nat
deriving DecidableEq, Repr

/-- A command the host has issued: the instance it addresses, the command word and the operand words
(30_encoding.md R100, 60_exceptions.md R356, R360). -/
structure Command where
  inst : Nat
  word : BitVec 32
  operands : List XferWord
deriving DecidableEq, Repr

/-- The command in progress: the instance it was issued to and its word (log 14). -/
structure Current where
  inst : Nat
  word : BitVec 32
deriving DecidableEq, Repr

/-- The state of the block. -/
structure State where
  /-- The parameters the block was built with: an argument of the model, written by nothing
  (00_scope.md R8, 10_state.md R68; log 29). -/
  params : Params
  /-- The instances, numbered from 0 (R40). -/
  insts : List Inst
  /-- The host's commands not yet delivered, oldest first (log 14). -/
  pending : List Command
  /-- The command in progress (log 14). -/
  cur : Current
deriving DecidableEq, Repr

/-- Why a step stops. -/
inductive Fault where
  /-- Raised by every command, and by a step whose every pending command is of this sort: the instance
  addressed has FAULT_CAUSE ≠ 0, so the command has no step (60_exceptions.md R350). Safe: the model
  stops where the block does nothing for ever (log 16). -/
  | faultedInstance
  /-- Raised by every command addressed to an instance number at or above NUM_INSTANCES, which does not
  exist (10_state.md R40). Safe: the model stops (log 17). -/
  | noSuchInstance
deriving DecidableEq, Repr

/-- Why the model gives a command no meaning. -/
inductive Refusal where
  /-- An instruction this model does not model yet. Safe. Raised by Dispatch alone, for none now. -/
  | notModelled (mnemonic : String)
  /-- Raised by the step, for a legal word with operand words that differ in number or type from those the
  word calls for: the host has broken a duty, and such a command has no move (60_exceptions.md R362).
  Safe (log 18). -/
  | wrongOperands
deriving DecidableEq, Repr

/-- An instance at power-on (10_state.md R63). -/
def Inst.powerOn : Inst :=
  { node := .none, faultCause := .none, faultWord := 0, outcomes := [], draws := 0 }

/-- A block of `count` instances with parameters `p` at power-on, with no command issued (10_state.md
R63, 60_exceptions.md R356). -/
def State.powerOn (p : Params) (count : Nat) : State :=
  { params := p, insts := List.replicate count Inst.powerOn, pending := [], cur := ⟨0, 0⟩ }

/-- The block right after power-on, its only reset of the whole state (20_memory.md R86), with the
default parameters and four instances (log 7). -/
def State.reset : State := State.powerOn Params.default Config.numInstances

end Sys2Proof.Machine
end

