-- ==== Sys2Proof/Machine/Ops.lean ====
section
/-! DEFINITION. The named operations over the state: KIND, the instance a command addresses, taking a
fault, completing a command, and the check every command passes first (30_encoding.md R118). -/

namespace Sys2Proof.Machine

/-- KIND (10_state.md R46). -/
def Node.kind : Node → Kind
  | .none => .none
  | .bq _ => .bq
  | .butter _ => .butter
  | .reson _ => .reson
  | .lowpole _ => .lowpole
  | .dcblock _ => .dcblock
  | .declick _ => .declick
  | .mls _ => .mls
  | .mlsnoise _ => .mlsnoise
  | .noise _ => .noise
  | .sine _ => .sine

/-- The value of FAULT_CAUSE (10_state.md R47). -/
def FaultCause.code : FaultCause → BitVec 2
  | .none => 0
  | .illegalCommand => 1
  | .widthAbort => 2
  | .mlsStateInvalid => 3

/-- The instance is faulted: FAULT_CAUSE ≠ 0 (60_exceptions.md R350). -/
def Inst.faulted (n : Inst) : Bool := n.faultCause ≠ .none

/-- TAKING A FAULT: `FAULT_CAUSE <- c`, `FAULT_WORD <- w`, no other register changes, no result word is
returned, and the host learns it as the outcome Faulted(c, w) (60_exceptions.md R344, R351). There is
no return from a fault (R349). -/
def Inst.raise (c : FaultCause) (w : BitVec 32) (n : Inst) : Inst :=
  { n with faultCause := c, faultWord := w, outcomes := .faulted c w :: n.outcomes }

/-- Completing a command with outcome Done: the registers it leaves and the result words it returns
(10_state.md R42). -/
def Inst.complete (node : Node) (results : List XferWord) (n : Inst) : Inst :=
  { n with node := node, outcomes := .done results :: n.outcomes, draws := n.draws + 1 }

/-- The NaN draws of one command, by the position of the operation in it (00_scope.md R18; log 10). -/
abbrev Draws := Nat → Draw

/-- The draws of the command in progress on instance `n`. -/
def State.drawsOf (s : State) (n : Inst) : Draws := fun op => Config.freeNaN s.cur.inst n.draws op

/-- The draws of a part of a command whose operations start at position `k`. -/
def drawsFrom (d : Draws) (k : Nat) : Draws := fun op => d (k + op)

/-- The instance the command in progress addresses. -/
def State.target? (s : State) : Option Inst := s.insts[s.cur.inst]?

/-- The state with that instance replaced. -/
def State.setTarget (s : State) (n : Inst) : State := { s with insts := s.insts.set s.cur.inst n }

/-- One atomic step of the addressed instance and of no other (10_state.md R41, R42), which is none at
all if the instance does not exist or is faulted (30_encoding.md R118 step 1). -/
def State.onTarget (s : State) (f : Inst → Inst) : Host.Outcome State Fault Refusal :=
  match s.target? with
  | none => .fault .noSuchInstance
  | some n => if n.faulted then .fault .faultedInstance else .next (s.setTarget (f n))

/-- A command accepted whatever KIND is: it discards the old kind's registers and leaves `node`
(30_encoding.md R118 step 3, 10_state.md R60). -/
def construct (s : State) (node : Draws → Node) : Host.Outcome State Fault Refusal :=
  s.onTarget fun n => n.complete (node (s.drawsOf n)) []

/-- A command of one unit: `regs` gives the unit's registers where KIND is that unit; otherwise
ILLEGAL_COMMAND is raised (30_encoding.md R118 step 4). `f` gives the registers and result words that
the command's rule leaves. -/
def onUnit {R : Type} (regs : Node → Option R) (s : State)
    (f : Draws → R → Node × List XferWord) : Host.Outcome State Fault Refusal :=
  s.onTarget fun n =>
    match regs n.node with
    | none => n.raise .illegalCommand s.cur.word
    | some r => n.complete (f (s.drawsOf n) r).1 (f (s.drawsOf n) r).2

/-- ILLEGAL_COMMAND, raised by the command in progress (60_exceptions.md R341). -/
def raiseIllegal (s : State) : Host.Outcome State Fault Refusal :=
  s.onTarget (Inst.raise .illegalCommand s.cur.word)

/-! The registers of a node, where KIND is their unit. -/

def bqOf : Node → Option BqRegs
  | .bq r => some r
  | _ => none

def butterOf : Node → Option ButterRegs
  | .butter r => some r
  | _ => none

def resonOf : Node → Option ResonRegs
  | .reson r => some r
  | _ => none

def lowpoleOf : Node → Option LowpoleRegs
  | .lowpole r => some r
  | _ => none

def dcblockOf : Node → Option DcblockRegs
  | .dcblock r => some r
  | _ => none

def declickOf : Node → Option DeclickRegs
  | .declick r => some r
  | _ => none

def mlsOf : Node → Option MlsRegs
  | .mls r => some r
  | _ => none

def mlsnoiseOf : Node → Option MlsnoiseRegs
  | .mlsnoise r => some r
  | _ => none

def noiseOf : Node → Option NoiseRegs
  | .noise r => some r
  | _ => none

def sineOf : Node → Option SineRegs
  | .sine r => some r
  | _ => none

end Sys2Proof.Machine
end

