-- ==== Sys2Proof/Machine/Deliver.lean ====
section
/-! DEFINITION. The host interface: which of the host's commands a step delivers, what happens when
there is none, and what happens to a word that decodes to no command (30_encoding.md R118,
60_exceptions.md R350, R358, R360 to R362). -/

namespace Sys2Proof.Machine

/-- The first pending command that has a step, and the commands left pending: a command to a faulted
instance has none and stays where it is (60_exceptions.md R350, 70_reset_and_hazards.md R401; log 14). -/
def nextCommand (insts : List Inst) : List Command → Option (Command × List Command)
  | [] => none
  | c :: cs =>
    if insts[c.inst]?.any Inst.faulted then
      (nextCommand insts cs).map fun p => (p.1, c :: p.2)
    else some (c, cs)

/-- The state in which command `c` is in progress and `rest` is still pending. -/
def State.deliver (s : State) (c : Command) (rest : List Command) : State :=
  { s with pending := rest, cur := ⟨c.inst, c.word⟩ }

/-- A step with no command to deliver: with none pending, every instance waits and keeps all its state
(60_exceptions.md R358; log 15); with only commands to faulted instances pending, the block is stuck
(R350; log 16). -/
def noDelivery (s : State) : Host.Outcome State Fault Refusal :=
  if s.pending = [] then .next s else .fault .faultedInstance

/-- NEW and NEWSEED are accepted whatever KIND is (30_encoding.md R118 step 3). -/
def Op.constructs : Op → Bool
  | .new => true
  | .newSeed => true
  | _ => false

/-- A legal word with operand words other than its own has no move, whatever the instance's KIND
(60_exceptions.md R362; log 18); a command to an instance that is faulted or missing has none anyway. -/
def wrongOperands (s : State) : Host.Outcome State Fault Refusal :=
  match s.target? with
  | none => .fault .noSuchInstance
  | some n => if n.faulted then .fault .faultedInstance else .refused .wrongOperands

/-- The number of the first instance that is not faulted, or 0. -/
def firstLive (insts : List Inst) : Nat :=
  (insts.findIdx? fun n => !n.faulted).getD 0

/-- The command that the opcode table's bits `w` stand for, issued to instance `inst` of a block with
parameters `p`. -/
def tableCommand (p : Params) (inst nbits w : Nat) : Command :=
  let x := tableWords p (w % 2 ^ nbits)
  ⟨inst, x.1, x.2⟩

end Sys2Proof.Machine
end

