-- ==== Sys2Proof/Machine/Flags.lean ====
section
/-! DEFINITION. The block has no flags or condition codes (10_state.md R45): no command sets or reads a
status flag. What its rules do test are these two comparisons of F values. -/

namespace Sys2Proof.Machine

/-- `feq(a, b)`: compareQuietEqual on F (00_scope.md R23). -/
def feq (f : Fmt) (a b : FWord) : Bool := Fp.eq f (valF f a) (valF f b)

/-- `flt(a, b)`: compareQuietLess on F (00_scope.md R24). -/
def flt (f : Fmt) (a b : FWord) : Bool := Fp.lt f (valF f a) (valF f b)

end Sys2Proof.Machine
end

