-- ==== Sys2Proof/Machine/Operands.lean ====
section
/-! DEFINITION. The operand forms of the commands and what they are used for: the optional sample rate
of a RESET (30_encoding.md R105), the width of the N field (43_mls.md R263), the S result word of a
TICK, and the biquad recurrence that every biquad TICK runs on its S operand (41_biquad.md R173). -/

namespace Sys2Proof.Machine

/-- The sample-rate register after a RESET: the operand if SRF = 1, else kept (10_state.md R51). -/
def rebindRate (kept : FWord) : Option FWord → FWord
  | none => kept
  | some sr => sr

/-- A coefficient register after a RESET: recomputed if SRF = 1, else kept (70_reset_and_hazards.md
R386). -/
def rebindCoef {α : Type} (kept : α) (recomputed : FWord → α) : Option FWord → α
  | none => kept
  | some sr => recomputed sr

/-- `1 / sr`, the sample duration (10_state.md R55, R59); -inf where sr is -0 (log 32). -/
def sampleDuration (f : Fmt) (d : Draw) (sr : FWord) : FWord := fdiv f d (natToF f 1) sr

/-- A width n is valid when 1 ≤ n ≤ 31 (43_mls.md R263). -/
def validWidth (n : Nat) : Bool := 1 ≤ n && n ≤ 31

/-- Delay registers all +0 (10_state.md R65). -/
def Delays.zero : Delays := ⟨zeroF, zeroF, zeroF, zeroF⟩

/-- `result(toS(y))` (00_scope.md R22). -/
def sampleResult (p : Params) (d : Draw) (y : FWord) : List XferWord := [.s (toS p d y)]

/-- `{A1, A2, B0, B1, B2}` with every word the one that stands for its value (00_scope.md R18). -/
def canonCoefs (f : Fmt) (c : Coefs) : Coefs :=
  ⟨canonF f c.a1, canonF f c.a2, canonF f c.b0, canonF f c.b1, canonF f c.b2⟩

/-- `RESP(c, omega)`, re then im: it depends on the values of its arguments alone, and a NaN part is a
draw (40_coefficients.md R152, 00_scope.md R18; log 9). -/
def fresp (f : Fmt) (d : Draws) (c : Coefs) (omega : FWord) : FWord × FWord :=
  let z := Config.resp f (canonCoefs f c) (canonF f omega)
  (wordF f (d 0) (valF f z.1), wordF f (d 1) (valF f z.2))

/-- The complex result of a RESPONSE command, re then im (40_coefficients.md R152). -/
def responseResult (f : Fmt) (d : Draws) (c : Coefs) (omega : FWord) : List XferWord :=
  [.f (fresp f d c omega).1, .f (fresp f d c omega).2]

/-- `BIQUAD_STEP(x)`: the delay registers it leaves and the value y0 it returns (41_biquad.md R173). With
all coefficients +0 this follows the pseudocode of R173 to the sign of zero, which makes y0 = -0 where x0,
X1 and X2 are negative and Y1 and Y2 are +0; a corner case of R174 says +0 for every finite input (DESIGN
CHOICE, log 28). -/
def biquadStep (p : Params) (d : Draws) (c : Coefs) (z : Delays) (x : SWord) : Delays × FWord :=
  let f := p.calcFmt
  let x0 := toF p (d 0) x
  let t := fmul f (d 1) c.b0 x0
  let t := fadd f (d 2) t (fmul f (d 3) c.b1 z.x1)
  let t := fadd f (d 4) t (fmul f (d 5) c.b2 z.x2)
  let t := fsub f (d 6) t (fmul f (d 7) c.a1 z.y1)
  let y0 := fsub f (d 8) t (fmul f (d 9) c.a2 z.y2)
  (⟨x0, z.x1, y0, z.y1⟩, y0)

end Sys2Proof.Machine
end

