-- ==== Sys2Proof/Machine/Coefficients.lean ====
section
/-! DEFINITION. The coefficient functions (40_coefficients.md), each a sequence of single operations in
the order the rule writes them. They read no register and write none (R141). -/

namespace Sys2Proof.Machine

/-- `BUTTER_COEFS(sr, fc)` (40_coefficients.md R142). A NaN fc makes them functions of TAN(NaN), which need
not be NaN; a corner case of 42_derived_filters.md R213 says that they are (DESIGN CHOICE, log 30). -/
def butterCoefs (f : Fmt) (d : Draws) (sr fc : FWord) : Coefs :=
  let t1 := fmul f (d 0) (piF f) fc
  let t2 := fdiv f (d 1) t1 sr
  let g := ftan f (d 15) t2
  let g2 := fmul f (d 2) g g
  let sg := fmul f (d 3) (sqrt2F f) g
  let den := fadd f (d 4) (fadd f (d 5) (natToF f 1) sg) g2
  let a0r := fdiv f (d 6) (natToF f 1) den
  let a1 := fmul f (d 7) (fsub f (d 8) (fmul f (d 9) (natToF f 2) g2) (natToF f 2)) a0r
  let a2 := fmul f (d 10) (fadd f (d 11) (fsub f (d 12) (natToF f 1) sg) g2) a0r
  let b0 := fmul f (d 13) g2 a0r
  let b1 := fmul f (d 14) (natToF f 2) b0
  ⟨a1, a2, b0, b1, b0⟩

/-- `RESON_COEFS(sr, fc, bw)` under a form of b0 (40_coefficients.md R145). That a negative bandwidth gives
r > 1 (R146) is not assumed of EXP (DESIGN CHOICE, log 30). -/
def resonCoefsOf (form : B0Form) (f : Fmt) (d : Draws) (sr fc bw : FWord) : Coefs :=
  let r := fexp f (d 13) (fdiv f (d 0) (fmul f (d 1) (fneg f (d 2) (piF f)) bw) sr)
  let w := fdiv f (d 3) (fmul f (d 4) (tauF f) fc) sr
  let a1 := fmul f (d 5) (fmul f (d 6) (litF f true 2 1) r) (fcos f (d 14) w)
  let a2 := fmul f (d 7) r r
  let u := fsub f (d 8) (natToF f 1) (fmul f (d 9) r r)
  let b0 :=
    match form with
    | .sqrt => fmul f (d 10) (fsqrt f (d 11) u) (litF f false 1 2)
    | .linear => fmul f (d 10) u (litF f false 1 2)
  ⟨a1, a2, b0, zeroF, fneg f (d 12) b0⟩

/-- `RESON_COEFS(sr, fc, bw)` in the form the parameters give (40_coefficients.md R145; log 5). -/
def resonCoefs (p : Params) (d : Draws) (sr fc bw : FWord) : Coefs :=
  resonCoefsOf p.b0Form p.calcFmt d sr fc bw

/-- `LOWPOLE_COEFF(sr, fc)` (40_coefficients.md R149). That a negative fc gives more than 1
(42_derived_filters.md R226) is not assumed of EXP (DESIGN CHOICE, log 30). -/
def lowpoleCoeff (f : Fmt) (d : Draws) (sr fc : FWord) : FWord :=
  fexp f (d 3) (fdiv f (d 0) (fmul f (d 1) (fneg f (d 2) (tauF f)) fc) sr)

/-- `DC_COEFF(sr, fc)` (40_coefficients.md R150). -/
def dcCoeff (f : Fmt) (d : Draws) (sr fc : FWord) : FWord :=
  fsub f (d 0) (natToF f 1) (fdiv f (d 1) (fmul f (d 2) (tauF f) fc) sr)

end Sys2Proof.Machine
end

