-- ==== Sys2Proof/Machine/Biquad.lean ====
section
/-! DEFINITION. The BQ commands (41_biquad.md R171 to R177). -/

namespace Sys2Proof.Machine

/-- A coefficient set of five +0 (41_biquad.md R171). -/
def Coefs.zero : Coefs := ⟨zeroF, zeroF, zeroF, zeroF, zeroF⟩

/-- BQ.NEW (41_biquad.md R171). -/
def execBqNew (s : State) : Host.Outcome State Fault Refusal :=
  construct s fun _ => .bq ⟨Coefs.zero, Delays.zero, Config.initialHash⟩

/-- BQ.RESET: the sample rate is accepted and ignored (41_biquad.md R176, 70_reset_and_hazards.md
R398). -/
def execBqReset (_sr : Option FWord) (s : State) : Host.Outcome State Fault Refusal :=
  onUnit bqOf s fun _ r => (.bq { r with delays := Delays.zero }, [])

/-- BQ.SETHASH (41_biquad.md R177). -/
def execBqSetHash (h : U32) (s : State) : Host.Outcome State Fault Refusal :=
  onUnit bqOf s fun _ r => (.bq { r with hash := h }, [])

/-- BQ.TICK (41_biquad.md R174). -/
def execBqTick (x : SWord) (s : State) : Host.Outcome State Fault Refusal :=
  onUnit bqOf s fun d r =>
    let step := biquadStep s.params d r.coefs r.delays x
    (.bq { r with delays := step.1 }, sampleResult s.params (d 10) step.2)

/-- BQ.SETCOEFS: the delay registers are not changed (41_biquad.md R172). -/
def execBqSetCoefs (a1 a2 b0 b1 b2 : FWord) (s : State) : Host.Outcome State Fault Refusal :=
  onUnit bqOf s fun _ r => (.bq { r with coefs := ⟨a1, a2, b0, b1, b2⟩ }, [])

/-- BQ.RESPONSE: it writes no register (41_biquad.md R175). -/
def execBqResponse (omega : FWord) (s : State) : Host.Outcome State Fault Refusal :=
  onUnit bqOf s fun d r => (.bq r, responseResult s.params.calcFmt d r.coefs omega)

end Sys2Proof.Machine
end

