-- ==== Sys2Proof/Machine/Butter.lean ====
section
/-! DEFINITION. The BUTTER commands (42_derived_filters.md R210 to R215). -/

namespace Sys2Proof.Machine

/-- BUTTER.NEW (42_derived_filters.md R210). -/
def execButterNew (sr fc : FWord) (s : State) : Host.Outcome State Fault Refusal :=
  construct s fun d => .butter ⟨sr, fc, butterCoefs s.params.calcFmt d sr fc, Delays.zero, Config.initialHash⟩

/-- BUTTER.RESET (42_derived_filters.md R211). -/
def execButterReset (sr : Option FWord) (s : State) : Host.Outcome State Fault Refusal :=
  onUnit butterOf s fun d r =>
    (.butter { r with
        delays := Delays.zero
        sr := rebindRate r.sr sr
        coefs := rebindCoef r.coefs (fun q => butterCoefs s.params.calcFmt d q r.cutoff) sr }, [])

/-- BUTTER.SETHASH (42_derived_filters.md R212). -/
def execButterSetHash (h : U32) (s : State) : Host.Outcome State Fault Refusal :=
  onUnit butterOf s fun _ r => (.butter { r with hash := h }, [])

/-- The lazy recomputation of a BUTTER.TICK whose cutoff input, widened to F, is `c`
(42_derived_filters.md R200, R201, R213). -/
def butterRecompute (f : Fmt) (d : Draws) (c : FWord) (r : ButterRegs) : ButterRegs :=
  if feq f c r.cutoff then r else { r with cutoff := c, coefs := butterCoefs f d r.sr c }

/-- BUTTER.TICK: a recomputation comes before the filtering of the same sample
(42_derived_filters.md R202, R213). -/
def execButterTick (x cutoff : SWord) (s : State) : Host.Outcome State Fault Refusal :=
  onUnit butterOf s fun d r =>
    let r := butterRecompute s.params.calcFmt (drawsFrom d 20) (toF s.params (d 11) cutoff) r
    let step := biquadStep s.params d r.coefs r.delays x
    (.butter { r with delays := step.1 }, sampleResult s.params (d 10) step.2)

/-- BUTTER.RESPONSE: it recomputes nothing and writes no register (42_derived_filters.md R215). -/
def execButterResponse (omega : FWord) (s : State) : Host.Outcome State Fault Refusal :=
  onUnit butterOf s fun d r => (.butter r, responseResult s.params.calcFmt d r.coefs omega)

end Sys2Proof.Machine
end

