-- ==== Sys2Proof/Machine/Dcblock.lean ====
section
/-! DEFINITION. The DCBLOCK commands (42_derived_filters.md R233 to R236). -/

namespace Sys2Proof.Machine

/-- DCBLOCK.NEW (42_derived_filters.md R233). -/
def execDcblockNew (sr fc : FWord) (s : State) : Host.Outcome State Fault Refusal :=
  construct s fun d => .dcblock ⟨sr, fc, dcCoeff s.params.calcFmt d sr fc, zeroF, zeroF, Config.initialHash⟩

/-- DCBLOCK.RESET: COEFF is always recomputed (42_derived_filters.md R234). -/
def execDcblockReset (sr : Option FWord) (s : State) : Host.Outcome State Fault Refusal :=
  onUnit dcblockOf s fun d r =>
    (.dcblock { r with
        x1 := zeroF
        y1 := zeroF
        sr := rebindRate r.sr sr
        coeff := dcCoeff s.params.calcFmt d (rebindRate r.sr sr) r.cutoff }, [])

/-- DCBLOCK.SETHASH (42_derived_filters.md R235). -/
def execDcblockSetHash (h : U32) (s : State) : Host.Outcome State Fault Refusal :=
  onUnit dcblockOf s fun _ r => (.dcblock { r with hash := h }, [])

/-- `(x0 - X1) + (COEFF * Y1)` (42_derived_filters.md R236); after an infinite input it is a NaN or, where
COEFF is negative, may be an infinity (log 32). -/
def dcblockValue (f : Fmt) (d : Draws) (coeff x0 x1 y1 : FWord) : FWord :=
  fadd f (d 0) (fsub f (d 1) x0 x1) (fmul f (d 2) coeff y1)

/-- DCBLOCK.TICK (42_derived_filters.md R236). -/
def execDcblockTick (x : SWord) (s : State) : Host.Outcome State Fault Refusal :=
  onUnit dcblockOf s fun d r =>
    let x0 := toF s.params (d 12) x
    let y0 := dcblockValue s.params.calcFmt d r.coeff x0 r.x1 r.y1
    (.dcblock { r with x1 := x0, y1 := y0 }, sampleResult s.params (d 10) y0)

end Sys2Proof.Machine
end

