-- ==== Sys2Proof/Machine/Declick.lean ====
section
/-! DEFINITION. The DECLICK commands and their fade-in curve (42_derived_filters.md R240 to R245). -/

namespace Sys2Proof.Machine

/-- `SMOOTH9(p)` (42_derived_filters.md R240). -/
def smooth9 (f : Fmt) (d : Draws) (p : FWord) : FWord :=
  let p2 := fmul f (d 0) p p
  let p4 := fmul f (d 1) p2 p2
  let p5 := fmul f (d 2) p4 p
  let h := fmul f (d 3) (natToF f 70) p
  let h := fadd f (d 4) (litF f true 315 1) h
  let h := fmul f (d 5) p h
  let h := fadd f (d 6) (natToF f 540) h
  let h := fmul f (d 7) p h
  let h := fadd f (d 8) (litF f true 420 1) h
  let h := fmul f (d 9) p h
  let h := fadd f (d 10) (natToF f 126) h
  fmul f (d 11) p5 h

/-- DECLICK.NEW (42_derived_filters.md R241). -/
def execDeclickNew (sr dur : FWord) (s : State) : Host.Outcome State Fault Refusal :=
  construct s fun d => .declick ⟨sampleDuration s.params.calcFmt (d 0) sr, dur, zeroF, Config.initialHash⟩

/-- DECLICK.RESET (42_derived_filters.md R242). -/
def execDeclickReset (sr : Option FWord) (s : State) : Host.Outcome State Fault Refusal :=
  onUnit declickOf s fun d r =>
    (.declick { r with t := zeroF, dt := rebindCoef r.dt (sampleDuration s.params.calcFmt (d 0)) sr }, [])

/-- DECLICK.SETHASH (42_derived_filters.md R243). -/
def execDeclickSetHash (h : U32) (s : State) : Host.Outcome State Fault Refusal :=
  onUnit declickOf s fun _ r => (.declick { r with hash := h }, [])

/-- DECLICK.TICK: inside the window the gain of the time before the increment; past it, the input word
bit for bit, with T kept (42_derived_filters.md R244, R245). -/
def execDeclickTick (x : SWord) (s : State) : Host.Outcome State Fault Refusal :=
  onUnit declickOf s fun d r =>
    let f := s.params.calcFmt
    if flt f r.t r.duration then
      let g := smooth9 f (drawsFrom d 20) (fdiv f (d 0) r.t r.duration)
      let y := fmul f (d 1) (toF s.params (d 2) x) g
      (.declick { r with t := fadd f (d 3) r.t r.dt }, sampleResult s.params (d 10) y)
    else (.declick r, [.s x])

end Sys2Proof.Machine
end

