-- ==== Sys2Proof/Machine/Lowpole.lean ====
section
/-! DEFINITION. The LOWPOLE commands (42_derived_filters.md R226 to R229). -/

namespace Sys2Proof.Machine

/-- LOWPOLE.NEW (42_derived_filters.md R226). -/
def execLowpoleNew (sr fc : FWord) (s : State) : Host.Outcome State Fault Refusal :=
  construct s fun d => .lowpole ⟨sr, fc, lowpoleCoeff s.params.calcFmt d sr fc, zeroF, Config.initialHash⟩

/-- LOWPOLE.RESET (42_derived_filters.md R227). -/
def execLowpoleReset (sr : Option FWord) (s : State) : Host.Outcome State Fault Refusal :=
  onUnit lowpoleOf s fun d r =>
    (.lowpole { r with
        value := zeroF
        sr := rebindRate r.sr sr
        coeff := rebindCoef r.coeff (fun q => lowpoleCoeff s.params.calcFmt d q r.cutoff) sr }, [])

/-- LOWPOLE.SETHASH (42_derived_filters.md R228). -/
def execLowpoleSetHash (h : U32) (s : State) : Host.Outcome State Fault Refusal :=
  onUnit lowpoleOf s fun _ r => (.lowpole { r with hash := h }, [])

/-- The lazy recomputation of a LOWPOLE.TICK whose cutoff input, widened to F, is `c`
(42_derived_filters.md R200, R201, R229). -/
def lowpoleRecompute (f : Fmt) (d : Draws) (c : FWord) (r : LowpoleRegs) : LowpoleRegs :=
  if feq f c r.cutoff then r else { r with cutoff := c, coeff := lowpoleCoeff f d r.sr c }

/-- `((1 - COEFF) * x0) + (COEFF * VALUE)` (42_derived_filters.md R229). -/
def lowpoleValue (f : Fmt) (d : Draws) (coeff x0 value : FWord) : FWord :=
  fadd f (d 0) (fmul f (d 1) (fsub f (d 2) (natToF f 1) coeff) x0) (fmul f (d 3) coeff value)

/-- LOWPOLE.TICK (42_derived_filters.md R202, R229). -/
def execLowpoleTick (x cutoff : SWord) (s : State) : Host.Outcome State Fault Refusal :=
  onUnit lowpoleOf s fun d r =>
    let p := s.params
    let r := lowpoleRecompute p.calcFmt (drawsFrom d 20) (toF p (d 11) cutoff) r
    let v := lowpoleValue p.calcFmt d r.coeff (toF p (d 12) x) r.value
    (.lowpole { r with value := v }, sampleResult p (d 10) v)

end Sys2Proof.Machine
end

