-- ==== Sys2Proof/Machine/Mls.lean ====
section
/-! DEFINITION. The Mls functions and the MLS commands (43_mls.md R264 to R271). The functions take the
feedback table as an argument, so that their laws can be stated of every table (R261). -/

namespace Sys2Proof.Machine

/-- `popcount(v)` (00_scope.md R28). -/
def popcount (v : U32) : Nat := (List.range 32).countP v.getLsbD

/-- `2^n - 1` in u32 (00_scope.md R29). -/
def widthMask (n : Nat) : U32 := (1 <<< n) - 1

/-- `MLS_SEED(n, seed)` (43_mls.md R264). -/
def mlsSeed (n : Nat) (seed : U32) : U32 := 1 + seed % widthMask n

/-- `MLS_NEXT(n, s)` over a feedback table (43_mls.md R265). -/
def mlsNext (poly : Nat → U32) (n : Nat) (s : U32) : U32 :=
  let parity := BitVec.ofNat 32 (popcount (poly n &&& s) % 2)
  ((s <<< 1) ||| parity) &&& widthMask n

/-- `MLS_OUT(n, s)` (43_mls.md R266). -/
def mlsOut (n : Nat) (s : U32) : U32 := (s >>> (n - 1)) &&& 1

/-- What MLS.NEW leaves of its instance: the two checks, the width first, then the construction
(43_mls.md R267, 60_exceptions.md R345). -/
def mlsConstruct (n : Nat) (st : U32) (w : BitVec 32) (inst : Inst) : Inst :=
  if !validWidth n then inst.raise .widthAbort w
  else if st = 0 ∨ 2 ^ n ≤ st.toNat then inst.raise .mlsStateInvalid w
  else inst.complete (.mls ⟨BitVec.ofNat 32 n, st⟩) []

/-- MLS.NEW (43_mls.md R267). -/
def execMlsNew (n : Nat) (st : U32) (s : State) : Host.Outcome State Fault Refusal :=
  s.onTarget (mlsConstruct n st s.cur.word)

/-- MLS.NEWSEED (43_mls.md R268). -/
def execMlsNewSeed (n : Nat) (seed : U32) (s : State) : Host.Outcome State Fault Refusal :=
  s.onTarget fun inst =>
    if !validWidth n then inst.raise .widthAbort s.cur.word
    else inst.complete (.mls ⟨BitVec.ofNat 32 n, mlsSeed n seed⟩) []

/-- MLS.NEXT (43_mls.md R271). -/
def execMlsNext (s : State) : Host.Outcome State Fault Refusal :=
  onUnit mlsOf s fun _ r => (.mls { r with s := mlsNext s.params.mlsPoly r.n.toNat r.s }, [])

/-- MLS.VALUE: it changes no register (43_mls.md R269). -/
def execMlsValue (s : State) : Host.Outcome State Fault Refusal :=
  onUnit mlsOf s fun _ r => (.mls r, [.u32 (mlsOut r.n.toNat r.s)])

/-- MLS.STATE: it changes no register (43_mls.md R270). -/
def execMlsState (s : State) : Host.Outcome State Fault Refusal :=
  onUnit mlsOf s fun _ r => (.mls r, [.u32 r.s])

end Sys2Proof.Machine
end

