-- ==== Sys2Proof/Machine/Mlsnoise.lean ====
section
/-! DEFINITION. The MLSNOISE commands (44_noise.md R290 to R294). -/

namespace Sys2Proof.Machine

/-- `MLS_SAMPLE(b)`: bit 1 gives +1.0 and bit 0 gives -1.0 (44_noise.md R290). -/
def mlsSample (f : Fmt) (b : U32) : SWord :=
  if b = 1 then litS f false 1 1 else litS f true 1 1

/-- MLSNOISE.NEW (44_noise.md R291). -/
def execMlsnoiseNew (n : Nat) (s : State) : Host.Outcome State Fault Refusal :=
  s.onTarget fun inst =>
    if !validWidth n then inst.raise .widthAbort s.cur.word
    else
      inst.complete
        (.mlsnoise ⟨BitVec.ofNat 32 n, mlsSeed n Config.initialHash, Config.initialHash⟩) []

/-- MLSNOISE.RESET: the sample rate is accepted and ignored (44_noise.md R292). -/
def execMlsnoiseReset (_sr : Option FWord) (s : State) : Host.Outcome State Fault Refusal :=
  onUnit mlsnoiseOf s fun _ r => (.mlsnoise { r with s := mlsSeed r.n.toNat r.hash }, [])

/-- MLSNOISE.SETHASH (44_noise.md R293). -/
def execMlsnoiseSetHash (h : U32) (s : State) : Host.Outcome State Fault Refusal :=
  onUnit mlsnoiseOf s fun _ r => (.mlsnoise { r with hash := h }, [])

/-- MLSNOISE.TICK: the sample is taken before the advance (44_noise.md R294). -/
def execMlsnoiseTick (s : State) : Host.Outcome State Fault Refusal :=
  onUnit mlsnoiseOf s fun _ r =>
    (.mlsnoise { r with s := mlsNext s.params.mlsPoly r.n.toNat r.s },
      [.s (mlsSample s.params.sampleFmt (mlsOut r.n.toNat r.s))])

end Sys2Proof.Machine
end

