-- ==== Sys2Proof/Machine/Noise.lean ====
section
/-! DEFINITION. The NOISE commands (44_noise.md R300 to R306). -/

namespace Sys2Proof.Machine

/-- The multiplier of the LCG (44_noise.md R300). -/
def lcgM : U64 := 6364136223846793005

/-- The increment of the LCG (44_noise.md R300). -/
def lcgC : U64 := 1442695040888963407

/-- `LCG_NEXT(x)` (44_noise.md R301, 00_scope.md R30). -/
def lcgNext (x : U64) : U64 := x * lcgM + lcgC

/-- `LCG_SAMPLE(x)` (44_noise.md R302). Its operands are finite, so its draws are never used. -/
def lcgSample (p : Params) (d : Draws) (x : U64) : SWord :=
  let f := p.calcFmt
  let u := (x.extractLsb' 44 20).toNat
  let y := fsub f (d 0) (fmul f (d 1) (natToF f u) (litF f false 1 (2 ^ 19))) (natToF f 1)
  toS p (d 2) y

/-- NOISE.NEW (44_noise.md R303). -/
def execNoiseNew (s : State) : Host.Outcome State Fault Refusal :=
  construct s fun _ => .noise ⟨Config.initialHash.setWidth 64, Config.initialHash⟩

/-- NOISE.RESET: the sample rate is accepted and ignored (44_noise.md R304). -/
def execNoiseReset (_sr : Option FWord) (s : State) : Host.Outcome State Fault Refusal :=
  onUnit noiseOf s fun _ r => (.noise { r with x := r.hash.setWidth 64 }, [])

/-- NOISE.SETHASH (44_noise.md R305). -/
def execNoiseSetHash (h : U32) (s : State) : Host.Outcome State Fault Refusal :=
  onUnit noiseOf s fun _ r => (.noise { r with hash := h }, [])

/-- NOISE.TICK: the state is advanced before the sample is taken (44_noise.md R306). -/
def execNoiseTick (s : State) : Host.Outcome State Fault Refusal :=
  onUnit noiseOf s fun d r =>
    let x := lcgNext r.x
    (.noise { r with x := x }, [.s (lcgSample s.params d x)])

end Sys2Proof.Machine
end

