-- ==== Sys2Proof/Machine/Reson.lean ====
section
/-! DEFINITION. The RESON commands (42_derived_filters.md R218 to R222). -/

namespace Sys2Proof.Machine

/-- RESON.NEW (42_derived_filters.md R218). -/
def execResonNew (sr fc bw : FWord) (s : State) : Host.Outcome State Fault Refusal :=
  construct s fun d => .reson ⟨sr, fc, bw, resonCoefs s.params d sr fc bw, Delays.zero, Config.initialHash⟩

/-- RESON.RESET (42_derived_filters.md R219). -/
def execResonReset (sr : Option FWord) (s : State) : Host.Outcome State Fault Refusal :=
  onUnit resonOf s fun d r =>
    (.reson { r with
        delays := Delays.zero
        sr := rebindRate r.sr sr
        coefs := rebindCoef r.coefs (fun q => resonCoefs s.params d q r.center r.bandwidth) sr }, [])

/-- RESON.SETHASH (42_derived_filters.md R220). -/
def execResonSetHash (h : U32) (s : State) : Host.Outcome State Fault Refusal :=
  onUnit resonOf s fun _ r => (.reson { r with hash := h }, [])

/-- The lazy recomputation of a RESON.TICK whose control inputs, widened to F, are `c` and `b`: if
either differs from its key, both keys are written (42_derived_filters.md R201, R221). -/
def resonRecompute (p : Params) (d : Draws) (c b : FWord) (r : ResonRegs) : ResonRegs :=
  if feq p.calcFmt c r.center && feq p.calcFmt b r.bandwidth then r
  else { r with center := c, bandwidth := b, coefs := resonCoefs p d r.sr c b }

/-- RESON.TICK (42_derived_filters.md R202, R221). -/
def execResonTick (x center bandwidth : SWord) (s : State) : Host.Outcome State Fault Refusal :=
  onUnit resonOf s fun d r =>
    let p := s.params
    let r := resonRecompute p (drawsFrom d 20) (toF p (d 11) center) (toF p (d 12) bandwidth) r
    let step := biquadStep p d r.coefs r.delays x
    (.reson { r with delays := step.1 }, sampleResult p (d 10) step.2)

/-- RESON.RESPONSE: it writes no register (42_derived_filters.md R222). -/
def execResonResponse (omega : FWord) (s : State) : Host.Outcome State Fault Refusal :=
  onUnit resonOf s fun d r => (.reson r, responseResult s.params.calcFmt d r.coefs omega)

end Sys2Proof.Machine
end

