-- ==== Sys2Proof/Machine/Sine.lean ====
section
/-! DEFINITION. The SINE commands (45_oscillator.md R320 to R324). -/

namespace Sys2Proof.Machine

/-- The default map: `h · 2^-32` rounded toward zero to F (45_oscillator.md R320). -/
def scaledPhase (f : Fmt) (h : U32) : Fp := Fp.truncate f false (h.toNat * 2 ^ qexp f) (2 ^ 32)

/-- A value of [0, 1). -/
def Fp.inUnit (f : Fmt) : Fp → Bool
  | .nan => false
  | .inf _ => false
  | .fin s m => m < 2 ^ qexp f && (!s || m == 0)

/-- `PHASE_OF_HASH(h)`: the default, or any other map into the F values of [0, 1); where the uninterpreted
map leaves [0, 1) it stands for the map that is the default there (45_oscillator.md R320; log 4). -/
def phaseOfHash (p : Params) (h : U32) : FWord :=
  let f := p.calcFmt
  wordF f default <|
    match p.phaseMap with
    | .scaled => scaledPhase f h
    | .other k =>
      let v := valF f (Config.phaseMap k f h)
      if v.inUnit f then v else scaledPhase f h

/-- SINE.NEW (45_oscillator.md R321). -/
def execSineNew (sr : FWord) (s : State) : Host.Outcome State Fault Refusal :=
  construct s fun d =>
    .sine ⟨sampleDuration s.params.calcFmt (d 0) sr, phaseOfHash s.params Config.initialHash,
      Config.initialHash⟩

/-- SINE.RESET (45_oscillator.md R322). -/
def execSineReset (sr : Option FWord) (s : State) : Host.Outcome State Fault Refusal :=
  onUnit sineOf s fun d r =>
    (.sine { r with
        phase := phaseOfHash s.params r.hash
        dt := rebindCoef r.dt (sampleDuration s.params.calcFmt (d 0)) sr }, [])

/-- SINE.SETHASH (45_oscillator.md R323). -/
def execSineSetHash (h : U32) (s : State) : Host.Outcome State Fault Refusal :=
  onUnit sineOf s fun _ r => (.sine { r with hash := h }, [])

/-- SINE.TICK: the phase is advanced before the sine is taken, and never wrapped (45_oscillator.md
R324, 10_state.md R67). A corner case of R324 says that an infinite frequency makes PHASE infinite until RESET
or NEW; this follows the pseudocode, which gives a NaN where DT is 0 or a NaN, where PHASE is a NaN or the
opposite infinity, and where a later increment is a NaN or the opposite infinity (DESIGN CHOICE, log 31). -/
def execSineTick (freq : SWord) (s : State) : Host.Outcome State Fault Refusal :=
  onUnit sineOf s fun d r =>
    let f := s.params.calcFmt
    let inc := fmul f (d 0) (toF s.params (d 1) freq) r.dt
    let phase := fadd f (d 2) r.phase inc
    (.sine { r with phase := phase },
      sampleResult s.params (d 10) (fsin f (d 4) (fmul f (d 3) phase (tauF f))))

end Sys2Proof.Machine
end

