-- ==== Sys2Proof/Machine/Dispatch.lean ====
section
/-! DEFINITION. One arm per command (30_encoding.md R110), each a direct call of its meaning. -/

namespace Sys2Proof.Machine

/-- The meaning of a command, performed on the instance and under the word of `s.cur`. -/
def exec (i : Instr) (s : State) : Host.Outcome State Fault Refusal :=
  match i with
  | .bqNew => Sys2Proof.Machine.execBqNew s
  | .bqReset sr => Sys2Proof.Machine.execBqReset sr s
  | .bqSetHash h => Sys2Proof.Machine.execBqSetHash h s
  | .bqTick x => Sys2Proof.Machine.execBqTick x s
  | .bqSetCoefs a1 a2 b0 b1 b2 => Sys2Proof.Machine.execBqSetCoefs a1 a2 b0 b1 b2 s
  | .bqResponse omega => Sys2Proof.Machine.execBqResponse omega s
  | .butterNew sr fc => Sys2Proof.Machine.execButterNew sr fc s
  | .butterReset sr => Sys2Proof.Machine.execButterReset sr s
  | .butterSetHash h => Sys2Proof.Machine.execButterSetHash h s
  | .butterTick x cutoff => Sys2Proof.Machine.execButterTick x cutoff s
  | .butterResponse omega => Sys2Proof.Machine.execButterResponse omega s
  | .resonNew sr fc bw => Sys2Proof.Machine.execResonNew sr fc bw s
  | .resonReset sr => Sys2Proof.Machine.execResonReset sr s
  | .resonSetHash h => Sys2Proof.Machine.execResonSetHash h s
  | .resonTick x center bandwidth => Sys2Proof.Machine.execResonTick x center bandwidth s
  | .resonResponse omega => Sys2Proof.Machine.execResonResponse omega s
  | .lowpoleNew sr fc => Sys2Proof.Machine.execLowpoleNew sr fc s
  | .lowpoleReset sr => Sys2Proof.Machine.execLowpoleReset sr s
  | .lowpoleSetHash h => Sys2Proof.Machine.execLowpoleSetHash h s
  | .lowpoleTick x cutoff => Sys2Proof.Machine.execLowpoleTick x cutoff s
  | .dcblockNew sr fc => Sys2Proof.Machine.execDcblockNew sr fc s
  | .dcblockReset sr => Sys2Proof.Machine.execDcblockReset sr s
  | .dcblockSetHash h => Sys2Proof.Machine.execDcblockSetHash h s
  | .dcblockTick x => Sys2Proof.Machine.execDcblockTick x s
  | .declickNew sr dur => Sys2Proof.Machine.execDeclickNew sr dur s
  | .declickReset sr => Sys2Proof.Machine.execDeclickReset sr s
  | .declickSetHash h => Sys2Proof.Machine.execDeclickSetHash h s
  | .declickTick x => Sys2Proof.Machine.execDeclickTick x s
  | .mlsNew n st => Sys2Proof.Machine.execMlsNew n st s
  | .mlsNext => Sys2Proof.Machine.execMlsNext s
  | .mlsValue => Sys2Proof.Machine.execMlsValue s
  | .mlsState => Sys2Proof.Machine.execMlsState s
  | .mlsNewSeed n seed => Sys2Proof.Machine.execMlsNewSeed n seed s
  | .mlsnoiseNew n => Sys2Proof.Machine.execMlsnoiseNew n s
  | .mlsnoiseReset sr => Sys2Proof.Machine.execMlsnoiseReset sr s
  | .mlsnoiseSetHash h => Sys2Proof.Machine.execMlsnoiseSetHash h s
  | .mlsnoiseTick => Sys2Proof.Machine.execMlsnoiseTick s
  | .noiseNew => Sys2Proof.Machine.execNoiseNew s
  | .noiseReset sr => Sys2Proof.Machine.execNoiseReset sr s
  | .noiseSetHash h => Sys2Proof.Machine.execNoiseSetHash h s
  | .noiseTick => Sys2Proof.Machine.execNoiseTick s
  | .sineNew sr => Sys2Proof.Machine.execSineNew sr s
  | .sineReset sr => Sys2Proof.Machine.execSineReset sr s
  | .sineSetHash h => Sys2Proof.Machine.execSineSetHash h s
  | .sineTick freq => Sys2Proof.Machine.execSineTick freq s

end Sys2Proof.Machine
end

