-- ==== Sys2Proof/Machine/Step.lean ====
section
/-! DEFINITION. One step of the block: deliver one of the host's commands and perform it. -/

namespace Sys2Proof.Machine

/-- Perform command `c`, in progress in `s`, in the order of 30_encoding.md R118: the fault check stands
in every operation on the addressed instance, then come the word, KIND and the command's own rule. A
legal word with operand words other than its own has no move (60_exceptions.md R362). -/
def perform (c : Command) (s : State) : Host.Outcome State Fault Refusal :=
  match decode c.word c.operands with
  | .illegalWord => raiseIllegal s
  | .wrongOperands _ => wrongOperands s
  | .ok i => if operandsFit s.params c.operands then exec i s else wrongOperands s

/-- One step (10_state.md R40, R42, 70_reset_and_hazards.md R401). -/
def step (s : State) : Host.Outcome State Fault Refusal :=
  match nextCommand s.insts s.pending with
  | none => noDelivery s
  | some (c, rest) => perform c (s.deliver c rest)

/-- `s` with the host having issued, before every pending command, the command whose bits are `w`, to
the first instance that can take one (log 21). -/
def State.withFetchWord (s : State) (nbits w : Nat) : State :=
  { s with pending := tableCommand s.params (firstLive s.insts) nbits w :: s.pending }

end Sys2Proof.Machine
end

