-- ==== Sys2Proof/Laws/PerInstr.lean ====
section
/-! SUPPORT. Statements made of every instruction, one lemma per constructor. -/

namespace Sys2Proof

/-- The type of an operand word (20_memory.md R82). -/
def XferWord.type : XferWord → WordType
  | .f _ => .f
  | .s _ => .s
  | .u32 _ => .u32

/-- The operand words of the instruction are exactly those its command word calls for, in number and
type, and they build the instruction again (30_encoding.md R110, R112). -/
def Laws.Operands.Statement (i : Instr) : Prop :=
  i.operands.map XferWord.type = i.fields.operandTypes ∧ build i.fields i.operands = some i

theorem Laws.Operands.bqNew : Laws.Operands.Statement .bqNew := ⟨rfl, rfl⟩

theorem Laws.Operands.bqReset (sr : Option FWord) : Laws.Operands.Statement (.bqReset sr) := by
  cases sr <;> exact ⟨rfl, rfl⟩

theorem Laws.Operands.bqSetHash (h : U32) : Laws.Operands.Statement (.bqSetHash h) := ⟨rfl, rfl⟩

theorem Laws.Operands.bqTick (x : SWord) : Laws.Operands.Statement (.bqTick x) := ⟨rfl, rfl⟩

theorem Laws.Operands.bqSetCoefs (a1 a2 b0 b1 b2 : FWord) : Laws.Operands.Statement (.bqSetCoefs a1 a2 b0 b1 b2) := ⟨rfl, rfl⟩

theorem Laws.Operands.bqResponse (omega : FWord) : Laws.Operands.Statement (.bqResponse omega) := ⟨rfl, rfl⟩

theorem Laws.Operands.butterNew (sr fc : FWord) : Laws.Operands.Statement (.butterNew sr fc) := ⟨rfl, rfl⟩

theorem Laws.Operands.butterReset (sr : Option FWord) : Laws.Operands.Statement (.butterReset sr) := by
  cases sr <;> exact ⟨rfl, rfl⟩

theorem Laws.Operands.butterSetHash (h : U32) : Laws.Operands.Statement (.butterSetHash h) := ⟨rfl, rfl⟩

theorem Laws.Operands.butterTick (x cutoff : SWord) : Laws.Operands.Statement (.butterTick x cutoff) := ⟨rfl, rfl⟩

theorem Laws.Operands.butterResponse (omega : FWord) : Laws.Operands.Statement (.butterResponse omega) := ⟨rfl, rfl⟩

theorem Laws.Operands.resonNew (sr fc bw : FWord) : Laws.Operands.Statement (.resonNew sr fc bw) := ⟨rfl, rfl⟩

theorem Laws.Operands.resonReset (sr : Option FWord) : Laws.Operands.Statement (.resonReset sr) := by
  cases sr <;> exact ⟨rfl, rfl⟩

theorem Laws.Operands.resonSetHash (h : U32) : Laws.Operands.Statement (.resonSetHash h) := ⟨rfl, rfl⟩

theorem Laws.Operands.resonTick (x center bandwidth : SWord) : Laws.Operands.Statement (.resonTick x center bandwidth) := ⟨rfl, rfl⟩

theorem Laws.Operands.resonResponse (omega : FWord) : Laws.Operands.Statement (.resonResponse omega) := ⟨rfl, rfl⟩

theorem Laws.Operands.lowpoleNew (sr fc : FWord) : Laws.Operands.Statement (.lowpoleNew sr fc) := ⟨rfl, rfl⟩

theorem Laws.Operands.lowpoleReset (sr : Option FWord) : Laws.Operands.Statement (.lowpoleReset sr) := by
  cases sr <;> exact ⟨rfl, rfl⟩

theorem Laws.Operands.lowpoleSetHash (h : U32) : Laws.Operands.Statement (.lowpoleSetHash h) := ⟨rfl, rfl⟩

theorem Laws.Operands.lowpoleTick (x cutoff : SWord) : Laws.Operands.Statement (.lowpoleTick x cutoff) := ⟨rfl, rfl⟩

theorem Laws.Operands.dcblockNew (sr fc : FWord) : Laws.Operands.Statement (.dcblockNew sr fc) := ⟨rfl, rfl⟩

theorem Laws.Operands.dcblockReset (sr : Option FWord) : Laws.Operands.Statement (.dcblockReset sr) := by
  cases sr <;> exact ⟨rfl, rfl⟩

theorem Laws.Operands.dcblockSetHash (h : U32) : Laws.Operands.Statement (.dcblockSetHash h) := ⟨rfl, rfl⟩

theorem Laws.Operands.dcblockTick (x : SWord) : Laws.Operands.Statement (.dcblockTick x) := ⟨rfl, rfl⟩

theorem Laws.Operands.declickNew (sr dur : FWord) : Laws.Operands.Statement (.declickNew sr dur) := ⟨rfl, rfl⟩

theorem Laws.Operands.declickReset (sr : Option FWord) : Laws.Operands.Statement (.declickReset sr) := by
  cases sr <;> exact ⟨rfl, rfl⟩

theorem Laws.Operands.declickSetHash (h : U32) : Laws.Operands.Statement (.declickSetHash h) := ⟨rfl, rfl⟩

theorem Laws.Operands.declickTick (x : SWord) : Laws.Operands.Statement (.declickTick x) := ⟨rfl, rfl⟩

theorem Laws.Operands.mlsNew (n : Nat) (st : U32) : Laws.Operands.Statement (.mlsNew n st) := ⟨rfl, rfl⟩

theorem Laws.Operands.mlsNext : Laws.Operands.Statement .mlsNext := ⟨rfl, rfl⟩

theorem Laws.Operands.mlsValue : Laws.Operands.Statement .mlsValue := ⟨rfl, rfl⟩

theorem Laws.Operands.mlsState : Laws.Operands.Statement .mlsState := ⟨rfl, rfl⟩

theorem Laws.Operands.mlsNewSeed (n : Nat) (seed : U32) : Laws.Operands.Statement (.mlsNewSeed n seed) := ⟨rfl, rfl⟩

theorem Laws.Operands.mlsnoiseNew (n : Nat) : Laws.Operands.Statement (.mlsnoiseNew n) := ⟨rfl, rfl⟩

theorem Laws.Operands.mlsnoiseReset (sr : Option FWord) : Laws.Operands.Statement (.mlsnoiseReset sr) := by
  cases sr <;> exact ⟨rfl, rfl⟩

theorem Laws.Operands.mlsnoiseSetHash (h : U32) : Laws.Operands.Statement (.mlsnoiseSetHash h) := ⟨rfl, rfl⟩

theorem Laws.Operands.mlsnoiseTick : Laws.Operands.Statement .mlsnoiseTick := ⟨rfl, rfl⟩

theorem Laws.Operands.noiseNew : Laws.Operands.Statement .noiseNew := ⟨rfl, rfl⟩

theorem Laws.Operands.noiseReset (sr : Option FWord) : Laws.Operands.Statement (.noiseReset sr) := by
  cases sr <;> exact ⟨rfl, rfl⟩

theorem Laws.Operands.noiseSetHash (h : U32) : Laws.Operands.Statement (.noiseSetHash h) := ⟨rfl, rfl⟩

theorem Laws.Operands.noiseTick : Laws.Operands.Statement .noiseTick := ⟨rfl, rfl⟩

theorem Laws.Operands.sineNew (sr : FWord) : Laws.Operands.Statement (.sineNew sr) := ⟨rfl, rfl⟩

theorem Laws.Operands.sineReset (sr : Option FWord) : Laws.Operands.Statement (.sineReset sr) := by
  cases sr <;> exact ⟨rfl, rfl⟩

theorem Laws.Operands.sineSetHash (h : U32) : Laws.Operands.Statement (.sineSetHash h) := ⟨rfl, rfl⟩

theorem Laws.Operands.sineTick (freq : SWord) : Laws.Operands.Statement (.sineTick freq) := ⟨rfl, rfl⟩

end Sys2Proof
end

