-- ==== Sys2Proof/Machine/Ideal.lean ====
section
/-! DEFINITION. Ideal values in the real and complex numbers, and the named properties of the functions
without a body, which a certificate may assume by these names only (00_scope.md R20, 40_coefficients.md
R140, R151 to R153). No step depends on this file. -/

namespace Sys2Proof.Machine

/-- The real number a finite value is; 0 for the other values, of which no property here speaks. -/
noncomputable def Fp.real (f : Fmt) : Fp → ℝ
  | .nan => 0
  | .inf _ => 0
  | .fin s m => (if s then -1 else 1) * m / 2 ^ qexp f

/-- The real number a finite F word is. -/
noncomputable def realF (f : Fmt) (w : FWord) : ℝ := (valF f w).real f

/-- The word is a finite value. -/
def finiteF (f : Fmt) (w : FWord) : Prop := ∃ s m, valF f w = .fin s m

/-- A coefficient set of real numbers (40_coefficients.md R140). -/
structure RealCoefs where
  a1 : ℝ
  a2 : ℝ
  b0 : ℝ
  b1 : ℝ
  b2 : ℝ

/-- The coefficients as real numbers. -/
noncomputable def realCoefs (f : Fmt) (c : Coefs) : RealCoefs :=
  ⟨realF f c.a1, realF f c.a2, realF f c.b0, realF f c.b1, realF f c.b2⟩

/-- The numerator of `H`, as a function of `z^-1` (40_coefficients.md R140). -/
noncomputable def numerator (c : RealCoefs) (z1 : ℂ) : ℂ := c.b0 + c.b1 * z1 + c.b2 * (z1 * z1)

/-- The denominator of `H`, as a function of `z^-1` (40_coefficients.md R140). -/
noncomputable def denominator (c : RealCoefs) (z1 : ℂ) : ℂ := 1 + c.a1 * z1 + c.a2 * (z1 * z1)

/-- `z1 = e^{-i·2π·omega}` (40_coefficients.md R151). -/
noncomputable def unitDelay (omega : ℝ) : ℂ := Complex.exp (-(Complex.I * (2 * Real.pi * omega)))

/-- `RESPONSE_OF(c, omega)`: the value of `H` at `z = e^{i·2π·omega}` (40_coefficients.md R140, R151).
It is the ideal value where the denominator is not 0. -/
noncomputable def responseOf (c : RealCoefs) (omega : ℝ) : ℂ :=
  numerator c (unitDelay omega) / denominator c (unitDelay omega)

/-- `RESP_FAITHFUL(ε)` on F: `|RESP - RESPONSE_OF| ≤ ε (1 + |RESPONSE_OF|)` whenever both sides are
finite (40_coefficients.md R152). -/
def RespFaithful (f : Fmt) (ε : ℝ) : Prop :=
  ∀ (d : Draws) (c : Coefs) (omega : FWord),
    finiteF f c.a1 → finiteF f c.a2 → finiteF f c.b0 → finiteF f c.b1 → finiteF f c.b2 →
    finiteF f omega → denominator (realCoefs f c) (unitDelay (realF f omega)) ≠ 0 →
    finiteF f (fresp f d c omega).1 → finiteF f (fresp f d c omega).2 →
    ‖(⟨realF f (fresp f d c omega).1, realF f (fresp f d c omega).2⟩ : ℂ) -
        responseOf (realCoefs f c) (realF f omega)‖ ≤
      ε * (1 + ‖responseOf (realCoefs f c) (realF f omega)‖)

/-- `EXACT_AT_ZERO` on F (00_scope.md R20). -/
def ExactAtZero (f : Fmt) : Prop :=
  ∀ (d : Draw) (s : Bool) (w : FWord), valF f w = .fin s 0 →
    valF f (ftan f d w) = .fin s 0 ∧ valF f (fsin f d w) = .fin s 0 ∧
    valF f (fcos f d w) = valF f (natToF f 1) ∧ valF f (fexp f d w) = valF f (natToF f 1)

/-- `EXP_LIMITS` on F (00_scope.md R20). -/
def ExpLimits (f : Fmt) : Prop :=
  ∀ (d : Draw) (w : FWord),
    (valF f w = .inf true → valF f (fexp f d w) = .fin false 0) ∧
    (valF f w = .inf false → valF f (fexp f d w) = .inf false)

/-- Each finite result of `g` at a finite operand is within `ε` relative error of the real function
`h`. -/
def FaithfulTo (f : Fmt) (g : Draw → FWord → FWord) (h : ℝ → ℝ) (ε : ℝ) : Prop :=
  ∀ (d : Draw) (w : FWord), finiteF f w → finiteF f (g d w) →
    |realF f (g d w) - h (realF f w)| ≤ ε * |h (realF f w)|

/-- `FAITHFUL(ε)` on F (00_scope.md R20), read as speaking of finite operands and results (log 8). -/
def Faithful (f : Fmt) (ε : ℝ) : Prop :=
  FaithfulTo f (ftan f) Real.tan ε ∧ FaithfulTo f (fexp f) Real.exp ε ∧
  FaithfulTo f (fcos f) Real.cos ε ∧ FaithfulTo f (fsin f) Real.sin ε

end Sys2Proof.Machine
end

