-- ==== Sys2Proof/Machine/Parameters.lean ====
section
/-! DEFINITION. Which values the parameters may take (00_scope.md R8, R9, 43_mls.md R261). No meaning
needs them to be admissible; the statements that do say so. -/

namespace Sys2Proof.Machine

/-- An IEEE 754 binary interchange format of at least 32 bits: binary32, binary64, or a format of
k ≥ 128 bits, k a multiple of 32, with `round(4 log2 k) - 13` exponent bits (00_scope.md R9; PRESUMED,
log 24). -/
abbrev Interchange (f : Fmt) : Prop :=
  f = Fmt.binary32 ∨ f = Fmt.binary64 ∨
    (128 ≤ f.width ∧ f.width % 32 = 0 ∧ f.eb + 13 = (Nat.log2 (f.width ^ 8) + 1) / 2)

/-- The formats are interchange formats, and every value of S is exactly representable in F
(00_scope.md R9). -/
abbrev FormatsOk (p : Params) : Prop :=
  Interchange p.calcFmt ∧ Interchange p.sampleFmt ∧
    p.sampleFmt.eb ≤ p.calcFmt.eb ∧ p.sampleFmt.mb ≤ p.calcFmt.mb

/-- The table has 31 masks, and for every n from 1 to 31 the mask is below 2^n and has bit n-1 set: the
first two clauses of 43_mls.md R261. Its third, that the feedback polynomial is primitive, is `Primitive`. -/
abbrev TapsOk (p : Params) : Prop :=
  p.mlsTable.length = 31 ∧
    ∀ i : Fin 31, (p.mlsPoly (i.val + 1)).toNat < 2 ^ (i.val + 1) ∧
      (p.mlsPoly (i.val + 1)).getLsbD i = true

/-- The feedback polynomial `c_n(x) = x^n + Σ x^(n-1-i)` over the bits i that the mask sets, over GF(2)
(43_mls.md R261). -/
noncomputable def feedbackPoly (n : Nat) (mask : U32) : Polynomial (ZMod 2) :=
  Polynomial.X ^ n +
    ∑ i ∈ (Finset.range n).filter (fun i => mask.getLsbD i = true), Polynomial.X ^ (n - 1 - i)

/-- The third clause of 43_mls.md R261: the feedback polynomial of every width is primitive over GF(2),
that is, irreducible with a root of order `2^n - 1`. -/
def Primitive (p : Params) : Prop :=
  ∀ n, 1 ≤ n → n ≤ 31 →
    Irreducible (feedbackPoly n (p.mlsPoly n)) ∧
      orderOf (AdjoinRoot.root (feedbackPoly n (p.mlsPoly n))) = 2 ^ n - 1

end Sys2Proof.Machine
end

