-- ==== Sys2Proof/Safety.lean ====
section
/-! DEFINITION. What counts as a safe state and a normal end, in the terms claims use. -/

namespace Sys2Proof.Machine

/-- The command in progress addresses instance `n`, which is not faulted. -/
abbrev Live (s : State) (n : Inst) : Prop := s.target? = some n ∧ n.faultCause = .none

/-- Command `i` on the addressed instance `n` completes with outcome Done: it leaves KIND and the
registers `node`, returns the result words `results` (recorded newest first, log 19), keeps FAULT_CAUSE
and FAULT_WORD, and changes no other instance, no pending command and not `cur` (10_state.md R42). -/
def Completes (i : Instr) (s : State) (n : Inst) (node : Node) (results : List XferWord) : Prop :=
  ∃ n' : Inst, exec i s = .next (s.setTarget n') ∧ n'.node = node ∧
    n'.outcomes = .done results :: n.outcomes ∧
    n'.faultCause = n.faultCause ∧ n'.faultWord = n.faultWord

/-- Command `i` on the addressed instance `n` takes the fault `c` on the word in progress: it keeps KIND
and every register, and reports Faulted(c, w) (60_exceptions.md R344). -/
def Faults (i : Instr) (s : State) (n : Inst) (c : FaultCause) : Prop :=
  ∃ n' : Inst, exec i s = .next (s.setTarget n') ∧ n'.node = n.node ∧
    n'.outcomes = .faulted c s.cur.word :: n.outcomes ∧
    n'.faultCause = c ∧ n'.faultWord = s.cur.word

/-- Some value of the format has this magnitude, in quanta, if its exponent range had no top: an integer
below 2^(mb+1) scaled by a power of two. -/
def Representable (f : Fmt) (m : Nat) : Prop := ∃ k e : Nat, k < 2 ^ (f.mb + 1) ∧ m = k * 2 ^ e

/-- `v` is the magnitude `x`, in quanta, with the sign `neg`, rounded by roundTiesToEven: of the values the
format has if its exponent range had no top, one nearest to `x`, and of two the one with an even
significand; or an infinity where that value is at or above the overflow threshold (00_scope.md R15). -/
def IsRounding (f : Fmt) (neg : Bool) (x : ℝ) (v : Fp) : Prop :=
  ∃ m : Nat, Representable f m ∧
    (∀ q, Representable f q → |(m : ℝ) - x| ≤ |(q : ℝ) - x| ∧
      (q ≠ m → |(m : ℝ) - x| = |(q : ℝ) - x| → m / spacing f ⌊x⌋₊ % 2 = 0)) ∧
    v = if m < overflow f then .fin neg m else .inf neg

/-- The Mls invariant: 1 ≤ N ≤ 31 and 1 ≤ S ≤ 2^N - 1 (10_state.md R56, R66). -/
abbrev MlsInRange (n s : U32) : Prop :=
  1 ≤ n.toNat ∧ n.toNat ≤ 31 ∧ 1 ≤ s.toNat ∧ s.toNat < 2 ^ n.toNat

/-- Every Mls state of the node is in range (10_state.md R66). -/
def Node.MlsOk : Node → Prop
  | .mls r => MlsInRange r.n r.s
  | .mlsnoise r => MlsInRange r.n r.s
  | _ => True

/-- In a block with parameters `p`, the coefficients are the coefficient function of the sample rate and
the cached keys, up to the identity of NaN values: for some draws (42_derived_filters.md R203). -/
def Node.CoefsCurrent (p : Params) : Node → Prop
  | .butter r => ∃ d : Draws, r.coefs = butterCoefs p.calcFmt d r.sr r.cutoff
  | .reson r => ∃ d : Draws, r.coefs = resonCoefs p d r.sr r.center r.bandwidth
  | .lowpole r => ∃ d : Draws, r.coeff = lowpoleCoeff p.calcFmt d r.sr r.cutoff
  | .dcblock r => ∃ d : Draws, r.coeff = dcCoeff p.calcFmt d r.sr r.cutoff
  | _ => True

/-! The F words of a node, one by one, and the NaN identity that no claim may observe. -/

/-- A coefficient set with `g` applied to each word. -/
def mapCoefs (g : FWord → FWord) (c : Coefs) : Coefs := ⟨g c.a1, g c.a2, g c.b0, g c.b1, g c.b2⟩

/-- The delay registers with `g` applied to each word. -/
def mapDelays (g : FWord → FWord) (z : Delays) : Delays := ⟨g z.x1, g z.x2, g z.y1, g z.y2⟩

/-- The node with `g` applied to every register that is an F word. -/
def Node.mapF (g : FWord → FWord) : Node → Node
  | .none => .none
  | .bq r => .bq { r with coefs := mapCoefs g r.coefs, delays := mapDelays g r.delays }
  | .butter r =>
    .butter ⟨g r.sr, g r.cutoff, mapCoefs g r.coefs, mapDelays g r.delays, r.hash⟩
  | .reson r =>
    .reson ⟨g r.sr, g r.center, g r.bandwidth, mapCoefs g r.coefs, mapDelays g r.delays, r.hash⟩
  | .lowpole r => .lowpole ⟨g r.sr, g r.cutoff, g r.coeff, g r.value, r.hash⟩
  | .dcblock r => .dcblock ⟨g r.sr, g r.cutoff, g r.coeff, g r.x1, g r.y1, r.hash⟩
  | .declick r => .declick ⟨g r.dt, g r.duration, g r.t, r.hash⟩
  | .mls r => .mls r
  | .mlsnoise r => .mlsnoise r
  | .noise r => .noise r
  | .sine r => .sine ⟨g r.dt, g r.phase, r.hash⟩

/-- One word for all the NaNs of F, every other word as it is (00_scope.md R18). -/
def forgetF (p : Params) (w : FWord) : FWord :=
  if isNaNF p.calcFmt w then wordF p.calcFmt default .nan else w

/-- One word for all the NaNs of S, every other word as it is (00_scope.md R18). -/
def forgetS (p : Params) (w : SWord) : SWord :=
  if isNaNS p.sampleFmt w then wordS p.sampleFmt default .nan else w

/-- An operand or result word without the identity of a NaN. -/
def XferWord.forget (p : Params) : XferWord → XferWord
  | .f w => .f (forgetF p w)
  | .s w => .s (forgetS p w)
  | .u32 w => .u32 w

/-- An outcome without the identity of the NaNs it returns. -/
def CmdOutcome.forget (p : Params) : CmdOutcome → CmdOutcome
  | .done rs => .done (rs.map (XferWord.forget p))
  | .faulted c w => .faulted c w

/-- An instance without the identity of its NaNs, nor the counter that draws them. -/
def Inst.forget (p : Params) (n : Inst) : Inst :=
  { n with node := n.node.mapF (forgetF p), outcomes := n.outcomes.map (CmdOutcome.forget p),
           draws := 0 }

/-- The state without the identity of any NaN: what a model may observe (00_scope.md R18). -/
def State.forget (s : State) : State := { s with insts := s.insts.map (Inst.forget s.params) }

/-- Every F register of the node has the width of F: replacing each word by its low bits changes
nothing. -/
abbrev Node.Fits (p : Params) (node : Node) : Prop :=
  node.mapF (fun w => ⟨w.bits % 2 ^ p.calcFmt.width⟩) = node

/-- Every register has the width of F, and every word returned the width of its type (20_memory.md
R82). -/
def Inst.Fits (p : Params) (n : Inst) : Prop :=
  n.node.Fits p ∧ ∀ rs, CmdOutcome.done rs ∈ n.outcomes → operandsFit p rs = true

/-- FAULT_CAUSE, FAULT_WORD and the reported outcomes agree: an instance that is not faulted has
FAULT_WORD = 0 and has reported no fault; a faulted one reported exactly the fault its registers hold,
last of all (10_state.md R47, R48, 60_exceptions.md R344, R350, R351). -/
def Inst.FaultOk (n : Inst) : Prop :=
  (n.faultCause = .none ∧ n.faultWord = 0 ∧ ∀ c w, CmdOutcome.faulted c w ∉ n.outcomes) ∨
  (n.faultCause ≠ .none ∧ ∃ rest, n.outcomes = .faulted n.faultCause n.faultWord :: rest ∧
    ∀ c w, CmdOutcome.faulted c w ∉ rest)

/-- Every instance meets the invariant `P`. -/
def State.All (P : Inst → Prop) (s : State) : Prop := ∀ n ∈ s.insts, P n

/-- The run has ended normally: no command is pending and every command completed with outcome Done
(70_reset_and_hazards.md R402). -/
abbrev State.EndedNormally (s : State) : Prop :=
  s.pending = [] ∧ ∀ n ∈ s.insts, n.faultCause = .none

/-- The result words of an outcome; a fault returns none (60_exceptions.md R344). -/
def CmdOutcome.results : CmdOutcome → List XferWord
  | .done rs => rs
  | .faulted _ _ => []

/-- The sequence of result words of each instance, oldest first: the observation of a run
(70_reset_and_hazards.md R402). -/
def State.observation (s : State) : List (List XferWord) :=
  s.insts.map fun n => n.outcomes.reverse.flatMap CmdOutcome.results

end Sys2Proof.Machine
end

