-- ==== Sys2Proof/Certificates/Slice0/Obligations.lean ====
section
/-! DEFINITION. The statements for the provers, from the numbered rules of spec/. Where a statement says
"for some draws d", the values of NaN results are left open, as 00_scope.md R18 leaves them. -/

open Sys2Proof Sys2Proof.Machine

/-! ### The step, decoding and encoding -/

/-- A step performs the first pending command that has a step: where its words decode to the command i,
with operand words of their types' widths, step is exec of i, on the state in which that command is in
progress and the others are still pending. A command at the head whose instance is not faulted is that
one; one whose instance is faulted is passed over. With no command pending the block waits and keeps all
its state (20_memory.md R88, 10_state.md R42, 60_exceptions.md R350, R358; logs 14, 15). -/
def Obligations.StepPerformsDeliveredCommand : Prop :=
  (∀ (s : State) (c : Command) (rest : List Command) (i : Instr),
    nextCommand s.insts s.pending = some (c, rest) → decode c.word c.operands = .ok i →
    operandsFit s.params c.operands = true →
    step s = exec i (s.deliver c rest)) ∧
  (∀ (insts : List Inst) (c : Command) (cs : List Command),
    (∀ n, insts[c.inst]? = some n → n.faultCause = .none) →
    nextCommand insts (c :: cs) = some (c, cs)) ∧
  (∀ (insts : List Inst) (c : Command) (cs : List Command) (n : Inst),
    insts[c.inst]? = some n → n.faultCause ≠ .none →
    nextCommand insts (c :: cs) = (nextCommand insts cs).map fun p => (p.1, c :: p.2)) ∧
  ∀ s : State, s.pending = [] → step s = .next s

/-- Where some instance is not faulted, a step after withFetchWord performs the command that the table's
bits decode to in a block with the state's formats, on an instance that is not faulted; decodeTableWord
reads them with the formats that the block has at reset (log 21). -/
def Obligations.FetchWordRunsDecodedCommand : Prop :=
  (∀ (s : State) (nbits w : Nat) (i : Instr),
    (∃ n ∈ s.insts, n.faultCause = .none) → decodeTable s.params nbits w = some i →
    (∃ n, s.insts[firstLive s.insts]? = some n ∧ n.faultCause = .none) ∧
    step (s.withFetchWord nbits w) =
      exec i (s.deliver (tableCommand s.params (firstLive s.insts) nbits w) s.pending)) ∧
  ∀ nbits w : Nat, decodeTableWord nbits w = decodeTable State.reset.params nbits w

/-- Words written out from the command table and the test vectors decode to their commands
(30_encoding.md R110, 95_test_vectors.md V24, V25, V40, P4). -/
def Obligations.SpecWordsDecode : Prop :=
  decode 0x00000010 [] = .ok .bqNew ∧
  decode 0x00000121 [.f ⟨0x40E7700000000000⟩] = .ok (.butterReset (some ⟨0x40E7700000000000⟩)) ∧
  decode 0x00030070 [.u32 7] = .ok (.mlsNew 3 7) ∧
  decode 0x00030080 [] = .ok (.mlsnoiseNew 3) ∧
  decode 0x00000161 [.f ⟨0x4000000000000000⟩] = .ok (.declickReset (some ⟨0x4000000000000000⟩)) ∧
  decode 0x000001A1 [.f ⟨0x4020000000000000⟩] = .ok (.sineReset (some ⟨0x4020000000000000⟩)) ∧
  decode 0x00000093 [] = .ok .noiseTick ∧
  (∀ ops, decode 0x00280170 ops = .illegalWord) ∧
  (∀ ops, decode 0x00000074 ops = .illegalWord)

/-- Decoding the encoding of any well-formed command gives it back, with every operand at every value
(30_encoding.md R101, R110). -/
def Obligations.DecodeEncodeRoundTrip : Prop :=
  ∀ i : Instr, i.WellFormed → decode (encode i).1 (encode i).2 = .ok i

/-- Words that decode to a command are exactly that command's encoding, and the command is well formed:
no two words mean one command, and no bit is ignored (30_encoding.md R110, R117). -/
def Obligations.EncodeDecodeRoundTrip : Prop :=
  ∀ (w : BitVec 32) (ops : List XferWord) (i : Instr),
    decode w ops = .ok i → encode i = (w, ops) ∧ i.WellFormed

/-- A word is legal exactly when it matches a row of the command table, and no word matches two rows
(30_encoding.md R110, R114, R117). -/
def Obligations.LegalWordsAreTableRows : Prop :=
  (∀ w : BitVec 32,
    (fieldsOf w).isSome ↔ ∃ row ∈ commandTable, w &&& row.2.2 = row.2.1) ∧
  commandTable.Pairwise fun a b =>
    ∀ w : BitVec 32, ¬(w &&& a.2.2 = a.2.1 ∧ w &&& b.2.2 = b.2.1)

/-- The words that are no command. An illegal word raises ILLEGAL_COMMAND on a live instance of any kind,
whatever operand words came with it; a legal word with operand words that differ from those it calls for
in number, type or width has no move, whatever the instance's kind (30_encoding.md R114, R118 step 2,
60_exceptions.md R341, R344, R362; the refusal and its name are the model's, log 18). -/
def Obligations.WordsThatAreNoCommand : Prop :=
  (∀ (c : Command) (s : State) (n : Inst),
    fieldsOf c.word = none → s.insts[c.inst]? = some n → n.faultCause = .none →
    ∃ n' : Inst, perform c (s.deliver c s.pending) =
        .next ((s.deliver c s.pending).setTarget n') ∧
      n'.node = n.node ∧ n'.faultCause = .illegalCommand ∧ n'.faultWord = c.word ∧
      n'.outcomes = .faulted .illegalCommand c.word :: n.outcomes) ∧
  ∀ (c : Command) (s : State) (n : Inst), Live s n →
    ((∃ f, decode c.word c.operands = .wrongOperands f) ∨
      ((∃ i, decode c.word c.operands = .ok i) ∧ operandsFit s.params c.operands = false)) →
    perform c s = .refused .wrongOperands

/-! ### What holds of every command -/

/-- A command other than NEW and NEWSEED to an instance of another kind, or of none, raises
ILLEGAL_COMMAND (30_encoding.md R118 step 4, 60_exceptions.md R341). -/
def Obligations.KindMismatchRaisesIllegalCommand : Prop :=
  ∀ (i : Instr) (s : State) (n : Inst), Live s n →
    Op.constructs i.fields.op = false → n.node.kind ≠ i.fields.unit →
    Faults i s n .illegalCommand

/-- Every command to a faulted instance, NEW included, has no step; and a step with only such commands
pending is stuck (60_exceptions.md R350). -/
def Obligations.FaultedInstanceHasNoStep : Prop :=
  (∀ (i : Instr) (s : State) (n : Inst), s.target? = some n → n.faultCause ≠ .none →
    exec i s = .fault .faultedInstance) ∧
  (∀ s : State, s.pending ≠ [] →
    (∀ c ∈ s.pending, ∃ n, s.insts[c.inst]? = some n ∧ n.faultCause ≠ .none) →
    step s = .fault .faultedInstance)

/-- Every command to an instance that is there and not faulted completes in one step, with one new
outcome for the host, whose result words end the instance's sequence in the observation of the run
(70_reset_and_hazards.md R401, R402, 10_state.md R42). -/
def Obligations.EveryCommandToLiveInstanceCompletes : Prop :=
  ∀ (i : Instr) (s : State) (n : Inst), Live s n →
    ∃ (n' : Inst) (o : CmdOutcome),
      exec i s = .next (s.setTarget n') ∧ n'.outcomes = o :: n.outcomes ∧
      (s.setTarget n').observation = s.observation.modify s.cur.inst (· ++ o.results)

/-- A command changes the addressed instance alone: every other instance, the number of instances, the
pending commands and the parameters, the feedback ROM among them, are as before. And it reads that
instance and the parameters alone: what it leaves of the instance is the same in any two states that agree
on these and on the command in progress (10_state.md R41, 20_memory.md R81). That even the NaN words it leaves
are the same rests on the draws of an instance being its own (the model's choice, log 10). -/
def Obligations.CommandLeavesOtherInstances : Prop :=
  ∀ (i : Instr) (s t : State), exec i s = .next t →
    (t.insts.length = s.insts.length ∧ t.pending = s.pending ∧ t.cur = s.cur ∧
      t.params = s.params ∧ ∀ j : Nat, j ≠ s.cur.inst → t.insts[j]? = s.insts[j]?) ∧
    ∀ u : State, u.params = s.params → u.cur = s.cur → u.target? = s.target? →
      ∃ v : State, exec i u = .next v ∧ v.target? = t.target?

/-- A command that leaves its instance faulted has changed no register but FAULT_CAUSE and FAULT_WORD,
returned no result word, and put the command word in FAULT_WORD (60_exceptions.md R344). -/
def Obligations.FaultChangesOnlyFaultRegisters : Prop :=
  ∀ (i : Instr) (s t : State) (n n' : Inst), exec i s = .next t →
    s.target? = some n → t.target? = some n' → n'.faultCause ≠ .none →
    n'.node = n.node ∧ n'.faultWord = s.cur.word ∧
    n'.outcomes = .faulted n'.faultCause s.cur.word :: n.outcomes

/-- No step changes a faulted instance: FAULT_CAUSE and FAULT_WORD are never written again, and no
register of it changes (10_state.md R47, R48, 60_exceptions.md R350). -/
def Obligations.FaultedInstanceNeverChanges : Prop :=
  ∀ (s t : State) (j : Nat) (n : Inst), step s = .next t →
    s.insts[j]? = some n → n.faultCause ≠ .none → t.insts[j]? = some n

/-- Two commands to different instances commute: where each has a step from s, each has a step after
the other, and both orders leave every instance in the same state with the same results (20_memory.md
R89). That even their NaN words are the same rests on the draws of an instance being its own (log 10). -/
def Obligations.CommandsToDifferentInstancesCommute : Prop :=
  ∀ (s sa sb : State) (a b : Command), a.inst ≠ b.inst →
    perform a (s.deliver a s.pending) = .next sa →
    perform b (s.deliver b s.pending) = .next sb →
    ∃ sab sba : State,
      perform b (sa.deliver b sa.pending) = .next sab ∧
      perform a (sb.deliver a sb.pending) = .next sba ∧
      sab.insts = sba.insts ∧ sab.pending = sba.pending

/-- FAULT_CAUSE has the values 0 to 3. At power-on every instance has KIND = NONE, FAULT_CAUSE = 0 and
FAULT_WORD = 0 and holds no other register, whatever the number of instances and the parameters; it
accepts NEW and NEWSEED, and every other command raises ILLEGAL_COMMAND (10_state.md R47, R63). The
parameters and the number of instances of State.reset are the model's choice (log 7). -/
def Obligations.PowerOnState : Prop :=
  (FaultCause.none.code = 0 ∧ FaultCause.illegalCommand.code = 1 ∧ FaultCause.widthAbort.code = 2 ∧
    FaultCause.mlsStateInvalid.code = 3) ∧
  (∃ count, State.reset = State.powerOn Params.default count ∧ 0 < count) ∧
  ∀ (p : Params) (count : Nat), (State.powerOn p count).insts.length = count ∧
    ∀ n ∈ (State.powerOn p count).insts, n.node = .none ∧ n.node.kind.code = 0 ∧
      n.faultCause.code = 0 ∧ n.faultWord = 0 ∧
      ∀ (i : Instr) (s : State), s.target? = some n →
        if Op.constructs i.fields.op then ¬ Faults i s n .illegalCommand
        else Faults i s n .illegalCommand

/-! ### BQ -/

/-- BQ.NEW, on an instance of any kind (41_biquad.md R171). -/
def Obligations.BqNewZeroesRegisters : Prop :=
  decode 0x00000010 [] = .ok .bqNew ∧
  ∀ (s : State) (n : Inst), Live s n →
    Completes .bqNew s n
      (.bq ⟨⟨zeroF, zeroF, zeroF, zeroF, zeroF⟩, ⟨zeroF, zeroF, zeroF, zeroF⟩, Config.initialHash⟩) []

/-- BQ.SETCOEFS writes the five coefficients in the operand order a1, a2, b0, b1, b2 and no delay
register; BQ.RESET, with or without a sample rate, zeroes the four delay registers and keeps the
coefficients and HASH (41_biquad.md R172, R176). -/
def Obligations.BqSetCoefsAndReset : Prop :=
  ∀ (s : State) (n : Inst) (r : BqRegs) (a1 a2 b0 b1 b2 sr : FWord), Live s n → n.node = .bq r →
    decode 0x00000014 [.f a1, .f a2, .f b0, .f b1, .f b2] = .ok (.bqSetCoefs a1 a2 b0 b1 b2) ∧
    decode 0x00000011 [] = .ok (.bqReset none) ∧
    decode 0x00000111 [.f sr] = .ok (.bqReset (some sr)) ∧
    Completes (.bqSetCoefs a1 a2 b0 b1 b2) s n
      (.bq ⟨⟨a1, a2, b0, b1, b2⟩, r.delays, r.hash⟩) [] ∧
    ∀ rate : Option FWord,
      Completes (.bqReset rate) s n (.bq ⟨r.coefs, ⟨zeroF, zeroF, zeroF, zeroF⟩, r.hash⟩) []

/-- BQ.TICK is the Direct Form I recurrence, each product and each sum rounded once, left to right, and
the shift of the delay registers; Y1 keeps the F value (41_biquad.md R173, R174). Where all coefficients
are +0 the sign of a zero y0 is that of this pseudocode, against a corner case of R174 (the model's choice,
log 28). -/
def Obligations.BqTickRunsDirectFormOne : Prop :=
  ∀ (s : State) (n : Inst) (c : Coefs) (x1 x2 y1 y2 : FWord) (h : U32) (x : SWord), Live s n →
    n.node = .bq ⟨c, ⟨x1, x2, y1, y2⟩, h⟩ →
    let f := s.params.calcFmt
    decode 0x00000013 [.s x] = .ok (.bqTick x) ∧
    ∃ (d : Draws) (x0 y0 : FWord), x0 = toF s.params (d 0) x ∧
      y0 = fsub f (d 8) (fsub f (d 6) (fadd f (d 4) (fadd f (d 2) (fmul f (d 1) c.b0 x0)
          (fmul f (d 3) c.b1 x1)) (fmul f (d 5) c.b2 x2)) (fmul f (d 7) c.a1 y1))
          (fmul f (d 9) c.a2 y2) ∧
      Completes (.bqTick x) s n (.bq ⟨c, ⟨x0, x1, y0, y1⟩, h⟩) [.s (toS s.params (d 10) y0)]

/-- BQ.RESPONSE, BUTTER.RESPONSE and RESON.RESPONSE return RESP of the current coefficients, re then im,
and write no register (41_biquad.md R175, 42_derived_filters.md R215, R222). -/
def Obligations.ResponsesWriteNoRegister : Prop :=
  ∀ (s : State) (n : Inst) (omega : FWord), Live s n →
    let f := s.params.calcFmt
    (decode 0x00000015 [.f omega] = .ok (.bqResponse omega) ∧
      decode 0x00000025 [.f omega] = .ok (.butterResponse omega) ∧
      decode 0x00000035 [.f omega] = .ok (.resonResponse omega)) ∧
    (∀ r, n.node = .bq r → ∃ d, Completes (.bqResponse omega) s n (.bq r)
      [.f (fresp f d r.coefs omega).1, .f (fresp f d r.coefs omega).2]) ∧
    (∀ r, n.node = .butter r → ∃ d, Completes (.butterResponse omega) s n (.butter r)
      [.f (fresp f d r.coefs omega).1, .f (fresp f d r.coefs omega).2]) ∧
    (∀ r, n.node = .reson r → ∃ d, Completes (.resonResponse omega) s n (.reson r)
      [.f (fresp f d r.coefs omega).1, .f (fresp f d r.coefs omega).2])

/-- RESPONSE_OF, the ideal value of a response, is H at z1 = e^(-i 2π omega): it has period 1 in omega,
-omega gives the complex conjugate, and at DC and at Nyquist it is the quotient of the sums (40_coefficients.md
R140, R151, R153). And where RESP_FAITHFUL(ε) is assumed, and the words concerned are finite and the
denominator is not 0, a BQ.RESPONSE completes with words within ε (1 + |H|) of it (R152). -/
def Obligations.ResponseOfIsPeriodicAndConjugate : Prop :=
  (∀ (c : RealCoefs) (omega : ℝ),
    (∀ k : ℤ, responseOf c (omega + k) = responseOf c omega) ∧
    responseOf c (-omega) = (starRingEnd ℂ) (responseOf c omega) ∧
    responseOf c 0 = ((c.b0 + c.b1 + c.b2) / (1 + c.a1 + c.a2) : ℝ) ∧
    responseOf c (1 / 2) = ((c.b0 - c.b1 + c.b2) / (1 - c.a1 + c.a2) : ℝ)) ∧
  ∀ (s : State) (n : Inst) (r : BqRegs) (omega : FWord) (ε : ℝ), Live s n → n.node = .bq r →
    let f := s.params.calcFmt
    RespFaithful f ε →
    finiteF f r.coefs.a1 → finiteF f r.coefs.a2 → finiteF f r.coefs.b0 → finiteF f r.coefs.b1 →
    finiteF f r.coefs.b2 → finiteF f omega →
    denominator (realCoefs f r.coefs) (unitDelay (realF f omega)) ≠ 0 →
    ∃ re im : FWord, Completes (.bqResponse omega) s n (.bq r) [.f re, .f im] ∧
      (finiteF f re → finiteF f im →
        ‖(⟨realF f re, realF f im⟩ : ℂ) - responseOf (realCoefs f r.coefs) (realF f omega)‖ ≤
          ε * (1 + ‖responseOf (realCoefs f r.coefs) (realF f omega)‖))

/-- The nine SETHASH commands write HASH and nothing else (41_biquad.md R177, 42_derived_filters.md R212,
R220, R228, R235, R243, 44_noise.md R293, R305, 45_oscillator.md R323). -/
def Obligations.SetHashWritesOnlyHash : Prop :=
  ∀ (s : State) (n : Inst) (h : U32), Live s n →
    (decode 0x00000012 [.u32 h] = .ok (.bqSetHash h) ∧
      ∀ r, n.node = .bq r → Completes (.bqSetHash h) s n (.bq { r with hash := h }) []) ∧
    (decode 0x00000022 [.u32 h] = .ok (.butterSetHash h) ∧
      ∀ r, n.node = .butter r → Completes (.butterSetHash h) s n (.butter { r with hash := h }) []) ∧
    (decode 0x00000032 [.u32 h] = .ok (.resonSetHash h) ∧
      ∀ r, n.node = .reson r → Completes (.resonSetHash h) s n (.reson { r with hash := h }) []) ∧
    (decode 0x00000042 [.u32 h] = .ok (.lowpoleSetHash h) ∧
      ∀ r, n.node = .lowpole r →
        Completes (.lowpoleSetHash h) s n (.lowpole { r with hash := h }) []) ∧
    (decode 0x00000052 [.u32 h] = .ok (.dcblockSetHash h) ∧
      ∀ r, n.node = .dcblock r →
        Completes (.dcblockSetHash h) s n (.dcblock { r with hash := h }) []) ∧
    (decode 0x00000062 [.u32 h] = .ok (.declickSetHash h) ∧
      ∀ r, n.node = .declick r →
        Completes (.declickSetHash h) s n (.declick { r with hash := h }) []) ∧
    (decode 0x00000082 [.u32 h] = .ok (.mlsnoiseSetHash h) ∧
      ∀ r, n.node = .mlsnoise r →
        Completes (.mlsnoiseSetHash h) s n (.mlsnoise { r with hash := h }) []) ∧
    (decode 0x00000092 [.u32 h] = .ok (.noiseSetHash h) ∧
      ∀ r, n.node = .noise r → Completes (.noiseSetHash h) s n (.noise { r with hash := h }) []) ∧
    (decode 0x000000A2 [.u32 h] = .ok (.sineSetHash h) ∧
      ∀ r, n.node = .sine r → Completes (.sineSetHash h) s n (.sine { r with hash := h }) [])

/-! ### The derived filters -/

/-- The four coefficient functions compute the formulas of the rules, one rounded operation at a time in
the order written, for every format and argument; RESON_COEFS in both forms of b0, of which the
parameters give one, sqrt by default (40_coefficients.md R142, R143, R145, R149, R150; that the block at
reset has the sqrt form is the model's choice, log 5). -/
def Obligations.CoefficientFunctionsFollowFormulas : Prop :=
  (∀ (f : Fmt) (d : Draws) (sr fc bw : FWord),
    (∃ (e : Draws) (g g2 sg a0r b0 : FWord),
      g = ftan f (e 15) (fdiv f (e 1) (fmul f (e 0) (piF f) fc) sr) ∧
      g2 = fmul f (e 2) g g ∧ sg = fmul f (e 3) (sqrt2F f) g ∧
      a0r = fdiv f (e 6) (natToF f 1) (fadd f (e 4) (fadd f (e 5) (natToF f 1) sg) g2) ∧
      b0 = fmul f (e 13) g2 a0r ∧
      (butterCoefs f d sr fc).a1 =
        fmul f (e 7) (fsub f (e 8) (fmul f (e 9) (natToF f 2) g2) (natToF f 2)) a0r ∧
      (butterCoefs f d sr fc).a2 =
        fmul f (e 10) (fadd f (e 11) (fsub f (e 12) (natToF f 1) sg) g2) a0r ∧
      (butterCoefs f d sr fc).b0 = b0 ∧ (butterCoefs f d sr fc).b1 = fmul f (e 14) (natToF f 2) b0 ∧
      (butterCoefs f d sr fc).b2 = b0) ∧
    (∀ form : B0Form, ∃ (e : Draws) (r u : FWord) (c : Coefs), c = resonCoefsOf form f d sr fc bw ∧
      r = fexp f (e 13) (fdiv f (e 0) (fmul f (e 1) (fneg f (e 2) (piF f)) bw) sr) ∧
      u = fsub f (e 8) (natToF f 1) (fmul f (e 9) r r) ∧
      c.a1 = fmul f (e 5) (fmul f (e 6) (litF f true 2 1) r)
        (fcos f (e 14) (fdiv f (e 3) (fmul f (e 4) (tauF f) fc) sr)) ∧
      c.a2 = fmul f (e 7) r r ∧
      (form = .sqrt → c.b0 = fmul f (e 10) (fsqrt f (e 11) u) (litF f false 1 2)) ∧
      (form = .linear → c.b0 = fmul f (e 10) u (litF f false 1 2)) ∧
      c.b1 = zeroF ∧ c.b2 = fneg f (e 12) c.b0) ∧
    (∃ e : Draws, lowpoleCoeff f d sr fc =
      fexp f (e 3) (fdiv f (e 0) (fmul f (e 1) (fneg f (e 2) (tauF f)) fc) sr)) ∧
    ∃ e : Draws, dcCoeff f d sr fc =
      fsub f (e 0) (natToF f 1) (fdiv f (e 1) (fmul f (e 2) (tauF f) fc) sr)) ∧
  (∀ (p : Params) (d : Draws) (sr fc bw : FWord),
    resonCoefs p d sr fc bw = resonCoefsOf p.b0Form p.calcFmt d sr fc bw) ∧
  State.reset.params.b0Form = .sqrt

/-- BUTTER.NEW on an instance of any kind, and BUTTER.RESET without and with a sample rate
(42_derived_filters.md R210, R211). -/
def Obligations.ButterNewAndReset : Prop :=
  ∀ (s : State) (n : Inst) (sr fc : FWord), Live s n →
    (decode 0x00000020 [.f sr, .f fc] = .ok (.butterNew sr fc) ∧
      decode 0x00000021 [] = .ok (.butterReset none) ∧
      decode 0x00000121 [.f sr] = .ok (.butterReset (some sr))) ∧
    (∃ d, Completes (.butterNew sr fc) s n
      (.butter ⟨sr, fc, butterCoefs s.params.calcFmt d sr fc, ⟨zeroF, zeroF, zeroF, zeroF⟩, Config.initialHash⟩) []) ∧
    ∀ r, n.node = .butter r →
      Completes (.butterReset none) s n
        (.butter { r with delays := ⟨zeroF, zeroF, zeroF, zeroF⟩ }) [] ∧
      ∃ d, Completes (.butterReset (some sr)) s n
        (.butter ⟨sr, r.cutoff, butterCoefs s.params.calcFmt d sr r.cutoff, ⟨zeroF, zeroF, zeroF, zeroF⟩, r.hash⟩) []

/-- BUTTER.TICK recomputes exactly when the widened cutoff is not feq to the key, before it filters the
same sample, and then stores the cutoff as the key (42_derived_filters.md R200 to R202, R213). -/
def Obligations.ButterTickRecomputesLazily : Prop :=
  ∀ (s : State) (n : Inst) (r : ButterRegs) (x cutoff : SWord), Live s n → n.node = .butter r →
    decode 0x00000023 [.s x, .s cutoff] = .ok (.butterTick x cutoff) ∧
    ∃ (d e : Draws) (c : FWord) (k : Coefs), c = toF s.params (d 11) cutoff ∧
      (if feq s.params.calcFmt c r.cutoff then k = r.coefs else k = butterCoefs s.params.calcFmt e r.sr c) ∧
      Completes (.butterTick x cutoff) s n
        (.butter ⟨r.sr, if feq s.params.calcFmt c r.cutoff then r.cutoff else c, k,
          (biquadStep s.params d k r.delays x).1, r.hash⟩)
        [.s (toS s.params (d 10) (biquadStep s.params d k r.delays x).2)]

/-- RESON.NEW on an instance of any kind, and RESON.RESET without and with a sample rate
(42_derived_filters.md R218, R219). -/
def Obligations.ResonNewAndReset : Prop :=
  ∀ (s : State) (n : Inst) (sr fc bw : FWord), Live s n →
    (decode 0x00000030 [.f sr, .f fc, .f bw] = .ok (.resonNew sr fc bw) ∧
      decode 0x00000031 [] = .ok (.resonReset none) ∧
      decode 0x00000131 [.f sr] = .ok (.resonReset (some sr))) ∧
    (∃ d, Completes (.resonNew sr fc bw) s n
      (.reson ⟨sr, fc, bw, resonCoefs s.params d sr fc bw, ⟨zeroF, zeroF, zeroF, zeroF⟩,
        Config.initialHash⟩) []) ∧
    ∀ r, n.node = .reson r →
      Completes (.resonReset none) s n
        (.reson { r with delays := ⟨zeroF, zeroF, zeroF, zeroF⟩ }) [] ∧
      ∃ d, Completes (.resonReset (some sr)) s n
        (.reson ⟨sr, r.center, r.bandwidth, resonCoefs s.params d sr r.center r.bandwidth,
          ⟨zeroF, zeroF, zeroF, zeroF⟩, r.hash⟩) []

/-- RESON.TICK recomputes exactly when either widened control input is not feq to its key, and then
stores both (42_derived_filters.md R200 to R202, R221). -/
def Obligations.ResonTickRecomputesLazily : Prop :=
  ∀ (s : State) (n : Inst) (r : ResonRegs) (x center bandwidth : SWord), Live s n →
    n.node = .reson r →
    decode 0x00000033 [.s x, .s center, .s bandwidth] = .ok (.resonTick x center bandwidth) ∧
    ∃ (d e : Draws) (c b : FWord) (k : Coefs), c = toF s.params (d 11) center ∧ b = toF s.params (d 12) bandwidth ∧
      (if feq s.params.calcFmt c r.center ∧ feq s.params.calcFmt b r.bandwidth then
        k = r.coefs ∧
        Completes (.resonTick x center bandwidth) s n
          (.reson ⟨r.sr, r.center, r.bandwidth, k, (biquadStep s.params d k r.delays x).1, r.hash⟩)
          [.s (toS s.params (d 10) (biquadStep s.params d k r.delays x).2)]
      else
        k = resonCoefs s.params e r.sr c b ∧
        Completes (.resonTick x center bandwidth) s n
          (.reson ⟨r.sr, c, b, k, (biquadStep s.params d k r.delays x).1, r.hash⟩)
          [.s (toS s.params (d 10) (biquadStep s.params d k r.delays x).2)])

/-- LOWPOLE.NEW on an instance of any kind, and LOWPOLE.RESET without and with a sample rate
(42_derived_filters.md R226, R227). -/
def Obligations.LowpoleNewAndReset : Prop :=
  ∀ (s : State) (n : Inst) (sr fc : FWord), Live s n →
    (decode 0x00000040 [.f sr, .f fc] = .ok (.lowpoleNew sr fc) ∧
      decode 0x00000041 [] = .ok (.lowpoleReset none) ∧
      decode 0x00000141 [.f sr] = .ok (.lowpoleReset (some sr))) ∧
    (∃ d, Completes (.lowpoleNew sr fc) s n
      (.lowpole ⟨sr, fc, lowpoleCoeff s.params.calcFmt d sr fc, zeroF, Config.initialHash⟩) []) ∧
    ∀ r, n.node = .lowpole r →
      Completes (.lowpoleReset none) s n (.lowpole { r with value := zeroF }) [] ∧
      ∃ d, Completes (.lowpoleReset (some sr)) s n
        (.lowpole ⟨sr, r.cutoff, lowpoleCoeff s.params.calcFmt d sr r.cutoff, zeroF, r.hash⟩) []

/-- LOWPOLE.TICK recomputes lazily, then computes `((1 - COEFF) * x0) + (COEFF * VALUE)`; VALUE keeps the
F value (42_derived_filters.md R200 to R202, R229). -/
def Obligations.LowpoleTickRunsOnePole : Prop :=
  ∀ (s : State) (n : Inst) (r : LowpoleRegs) (x cutoff : SWord), Live s n → n.node = .lowpole r →
    let f := s.params.calcFmt
    decode 0x00000043 [.s x, .s cutoff] = .ok (.lowpoleTick x cutoff) ∧
    ∃ (d e : Draws) (c k v : FWord), c = toF s.params (d 11) cutoff ∧
      (if feq f c r.cutoff then k = r.coeff else k = lowpoleCoeff f e r.sr c) ∧
      v = fadd f (d 0) (fmul f (d 1) (fsub f (d 2) (natToF f 1) k) (toF s.params (d 12) x)) (fmul f (d 3) k r.value) ∧
      Completes (.lowpoleTick x cutoff) s n
        (.lowpole ⟨r.sr, if feq f c r.cutoff then r.cutoff else c, k, v, r.hash⟩)
        [.s (toS s.params (d 10) v)]

/-- DCBLOCK.NEW on an instance of any kind, and DCBLOCK.RESET, which recomputes COEFF always
(42_derived_filters.md R233, R234). Where fc and sr are both 0, COEFF is by the pseudocode the NaN of 0 / 0, where
a corner case of R233 says 1 for fc = 0 (the model's reading, log 32). -/
def Obligations.DcblockNewAndReset : Prop :=
  ∀ (s : State) (n : Inst) (sr fc : FWord), Live s n →
    (decode 0x00000050 [.f sr, .f fc] = .ok (.dcblockNew sr fc) ∧
      decode 0x00000051 [] = .ok (.dcblockReset none) ∧
      decode 0x00000151 [.f sr] = .ok (.dcblockReset (some sr))) ∧
    (∃ d, Completes (.dcblockNew sr fc) s n
      (.dcblock ⟨sr, fc, dcCoeff s.params.calcFmt d sr fc, zeroF, zeroF, Config.initialHash⟩) []) ∧
    ∀ r, n.node = .dcblock r →
      (∃ d, Completes (.dcblockReset none) s n
        (.dcblock ⟨r.sr, r.cutoff, dcCoeff s.params.calcFmt d r.sr r.cutoff, zeroF, zeroF, r.hash⟩) []) ∧
      ∃ d, Completes (.dcblockReset (some sr)) s n
        (.dcblock ⟨sr, r.cutoff, dcCoeff s.params.calcFmt d sr r.cutoff, zeroF, zeroF, r.hash⟩) []

/-- DCBLOCK.TICK computes `(x0 - X1) + (COEFF * Y1)` (42_derived_filters.md R236). After an infinite input, where
COEFF is negative and the next input finite, this pseudocode may give an infinity, against a corner case of R236
that says NaN (the model's reading, log 32). -/
def Obligations.DcblockTickRunsFirstOrder : Prop :=
  ∀ (s : State) (n : Inst) (r : DcblockRegs) (x : SWord), Live s n → n.node = .dcblock r →
    let f := s.params.calcFmt
    decode 0x00000053 [.s x] = .ok (.dcblockTick x) ∧
    ∃ (d : Draws) (x0 y0 : FWord), x0 = toF s.params (d 12) x ∧
      y0 = fadd f (d 0) (fsub f (d 1) x0 r.x1) (fmul f (d 2) r.coeff r.y1) ∧
      Completes (.dcblockTick x) s n
        (.dcblock ⟨r.sr, r.cutoff, r.coeff, x0, y0, r.hash⟩) [.s (toS s.params (d 10) y0)]

/-- DECLICK.NEW on an instance of any kind, and DECLICK.RESET without and with a sample rate
(42_derived_filters.md R241, R242). Where sr is -0, DT is by the pseudocode -inf, where a corner case of R241
says +inf for sr = 0 (the model's reading, log 32). -/
def Obligations.DeclickNewAndReset : Prop :=
  ∀ (s : State) (n : Inst) (sr dur : FWord), Live s n →
    (decode 0x00000060 [.f sr, .f dur] = .ok (.declickNew sr dur) ∧
      decode 0x00000061 [] = .ok (.declickReset none) ∧
      decode 0x00000161 [.f sr] = .ok (.declickReset (some sr))) ∧
    (∃ d, Completes (.declickNew sr dur) s n
      (.declick ⟨fdiv s.params.calcFmt d (natToF s.params.calcFmt 1) sr, dur, zeroF, Config.initialHash⟩) []) ∧
    ∀ r, n.node = .declick r →
      Completes (.declickReset none) s n (.declick { r with t := zeroF }) [] ∧
      ∃ d, Completes (.declickReset (some sr)) s n
        (.declick ⟨fdiv s.params.calcFmt d (natToF s.params.calcFmt 1) sr, r.duration, zeroF, r.hash⟩) []

/-- DECLICK.TICK: while T < DURATION the gain is SMOOTH9 of the time before the increment and T advances
by DT; otherwise the result is the input word bit for bit and T is kept (42_derived_filters.md R244,
R245). -/
def Obligations.DeclickTickFadesThenPasses : Prop :=
  ∀ (s : State) (n : Inst) (r : DeclickRegs) (x : SWord), Live s n → n.node = .declick r →
    let f := s.params.calcFmt
    decode 0x00000063 [.s x] = .ok (.declickTick x) ∧
    if flt f r.t r.duration then
      ∃ (d e : Draws) (g : FWord), g = smooth9 f e (fdiv f (d 0) r.t r.duration) ∧
        Completes (.declickTick x) s n
          (.declick { r with t := fadd f (d 3) r.t r.dt })
          [.s (toS s.params (d 10) (fmul f (d 1) (toF s.params (d 2) x) g))]
    else Completes (.declickTick x) s n (.declick r) [.s x]

/-- SMOOTH9 is the polynomial of the rule, evaluated by Horner's scheme and then multiplied by p^5, one
rounded operation at a time in every format; and in binary64 it has the values of test vector V16 at its
seven points, which name no NaN. The polynomial and its order of evaluation are the spec's decision
(42_derived_filters.md R240, 95_test_vectors.md V16). -/
def Obligations.SmoothStepValues : Prop :=
  (∀ (f : Fmt) (d : Draws) (p : FWord), ∃ (e : Draws) (p4 p5 h1 h2 h3 h4 : FWord),
    p4 = fmul f (e 1) (fmul f (e 0) p p) (fmul f (e 0) p p) ∧ p5 = fmul f (e 2) p4 p ∧
    h1 = fadd f (e 4) (litF f true 315 1) (fmul f (e 3) (natToF f 70) p) ∧
    h2 = fadd f (e 6) (natToF f 540) (fmul f (e 5) p h1) ∧
    h3 = fadd f (e 8) (litF f true 420 1) (fmul f (e 7) p h2) ∧
    h4 = fadd f (e 10) (natToF f 126) (fmul f (e 9) p h3) ∧
    smooth9 f d p = fmul f (e 11) p5 h4) ∧
  ∀ d : Draws,
    smooth9 .binary64 d zeroF = zeroF ∧
    smooth9 .binary64 d (litF .binary64 false 1 4) = ⟨0x3FA90D0000000000⟩ ∧
    smooth9 .binary64 d (litF .binary64 false 1 2) = litF .binary64 false 1 2 ∧
    smooth9 .binary64 d (litF .binary64 false 3 4) = ⟨0x3FEE6F3000000000⟩ ∧
    smooth9 .binary64 d (natToF .binary64 1) = natToF .binary64 1 ∧
    smooth9 .binary64 d (litF .binary64 true 1 1) = litF .binary64 true 1471 1 ∧
    smooth9 .binary64 d (natToF .binary64 2) = natToF .binary64 1472

/-! ### MLS -/

/-- MLS.NEW, on an instance of any kind: an invalid width raises WIDTH_ABORT, checked first; an explicit
state that is 0 or has a bit at n or above raises MLS_STATE_INVALID; otherwise it constructs
(43_mls.md R267, 60_exceptions.md R342, R343, R345). -/
def Obligations.MlsNewChecksThenConstructs : Prop :=
  ∀ (s : State) (n : Inst) (width : Nat) (st : U32), Live s n →
    (width < 256 →
      decode (BitVec.ofNat 32 (width * 2 ^ 16 + 0x70)) [.u32 st] = .ok (.mlsNew width st)) ∧
    if width = 0 ∨ 31 < width then Faults (.mlsNew width st) s n .widthAbort
    else if st.toNat = 0 ∨ 2 ^ width ≤ st.toNat then
      Faults (.mlsNew width st) s n .mlsStateInvalid
    else ∃ r : MlsRegs, r.n.toNat = width ∧ r.s = st ∧ Completes (.mlsNew width st) s n (.mls r) []

/-- MLS.NEWSEED and MLSNOISE.NEW, on an instance of any kind: an invalid width raises WIDTH_ABORT;
otherwise S is `1 + (seed mod (2^n - 1))`, the seed being the operand of MLS.NEWSEED and INITIAL_HASH for
MLSNOISE.NEW (43_mls.md R264, R268, 44_noise.md R291). -/
def Obligations.SeededConstructionsDeriveState : Prop :=
  ∀ (s : State) (n : Inst) (width : Nat) (seed : U32), Live s n →
    (width < 256 →
      decode (BitVec.ofNat 32 (width * 2 ^ 16 + 0x79)) [.u32 seed] = .ok (.mlsNewSeed width seed) ∧
      decode (BitVec.ofNat 32 (width * 2 ^ 16 + 0x80)) [] = .ok (.mlsnoiseNew width)) ∧
    if width = 0 ∨ 31 < width then
      Faults (.mlsNewSeed width seed) s n .widthAbort ∧ Faults (.mlsnoiseNew width) s n .widthAbort
    else
      (∃ r : MlsRegs, r.n.toNat = width ∧ r.s.toNat = 1 + seed.toNat % (2 ^ width - 1) ∧
        Completes (.mlsNewSeed width seed) s n (.mls r) []) ∧
      ∃ r : MlsnoiseRegs, r.n.toNat = width ∧ r.hash = Config.initialHash ∧
        r.s.toNat = 1 + Config.initialHash.toNat % (2 ^ width - 1) ∧
        Completes (.mlsnoiseNew width) s n (.mlsnoise r) []

/-- MLS.NEXT replaces S by MLS_NEXT(N, S) and keeps N; MLS.VALUE returns bit N-1 of S and MLS.STATE
returns S, and neither writes a register (43_mls.md R266, R269, R270, R271). -/
def Obligations.MlsNextAndQueries : Prop :=
  ∀ (s : State) (n : Inst) (r : MlsRegs), Live s n → n.node = .mls r →
    (decode 0x00000076 [] = .ok .mlsNext ∧ decode 0x00000077 [] = .ok .mlsValue ∧
      decode 0x00000078 [] = .ok .mlsState) ∧
    Completes .mlsNext s n (.mls ⟨r.n, mlsNext s.params.mlsPoly r.n.toNat r.s⟩) [] ∧
    Completes .mlsState s n (.mls r) [.u32 r.s] ∧
    (1 ≤ r.n.toNat ∧ r.n.toNat ≤ 31 → ∃ b : U32,
      b.toNat = (if r.s.getLsbD (r.n.toNat - 1) then 1 else 0) ∧
      Completes .mlsValue s n (.mls r) [.u32 b])

/-- MLS_NEXT over any table: the new bit 0 is the parity of the masked state, every other bit below n is
the bit below it, and no bit at n or above is set (43_mls.md R265). -/
def Obligations.MlsNextShiftsInParity : Prop :=
  ∀ (poly : Nat → U32) (n : Nat) (st : U32), 1 ≤ n → n ≤ 31 →
    ∀ i : Nat, i < 32 → (mlsNext poly n st).getLsbD i =
      if n ≤ i then false
      else if i = 0 then
        decide (((Finset.range 32).filter fun j =>
          (poly n).getLsbD j ∧ st.getLsbD j).card % 2 = 1)
      else st.getLsbD (i - 1)

/-- For any table whose mask for n has bit n-1 set, MLS_NEXT(n, ·) is a bijection on [1, 2^n - 1]
(43_mls.md R273). -/
def Obligations.MlsNextIsBijection : Prop :=
  ∀ (poly : Nat → U32) (n : Nat), 1 ≤ n → n ≤ 31 → (poly n).getLsbD (n - 1) = true →
    Set.BijOn (mlsNext poly n)
      {st | 1 ≤ st.toNat ∧ st.toNat < 2 ^ n} {st | 1 ≤ st.toNat ∧ st.toNat < 2 ^ n}

/-- For the default table (log 3), every width n and every start in [1, 2^n - 1]:
the sequence returns to its start after 2^n - 1 steps and not before, visits every value of
[1, 2^n - 1], and never reaches 0 (43_mls.md R272). -/
def Obligations.MlsSequenceHasFullPeriod : Prop :=
  ∀ (n : Nat) (st : U32), 1 ≤ n → n ≤ 31 → 1 ≤ st.toNat → st.toNat < 2 ^ n →
    Function.minimalPeriod (mlsNext Params.default.mlsPoly n) st = 2 ^ n - 1 ∧
    (∀ v : U32, 1 ≤ v.toNat → v.toNat < 2 ^ n →
      ∃ k, k < 2 ^ n - 1 ∧ (mlsNext Params.default.mlsPoly n)^[k] st = v) ∧
    ∀ k, (mlsNext Params.default.mlsPoly n)^[k] st ≠ 0

/-! ### MLSNOISE and NOISE -/

/-- MLSNOISE.RESET, with or without a sample rate, reseeds S from HASH and keeps N and HASH.
MLSNOISE.TICK returns, in S, +1 if bit N-1 of S is 1 and -1 if it is 0 (counted here in the quanta of the
format), from the state before the advance, and then advances (44_noise.md R290, R292, R294). -/
def Obligations.MlsnoiseResetAndTick : Prop :=
  ∀ (s : State) (n : Inst) (r : MlsnoiseRegs) (sr : FWord), FormatsOk s.params → Live s n →
    n.node = .mlsnoise r → 1 ≤ r.n.toNat → r.n.toNat ≤ 31 →
    decode 0x00000081 [] = .ok (.mlsnoiseReset none) ∧
    decode 0x00000181 [.f sr] = .ok (.mlsnoiseReset (some sr)) ∧
    decode 0x00000083 [] = .ok .mlsnoiseTick ∧
    (∀ rate : Option FWord, ∃ st : U32,
      st.toNat = 1 + r.hash.toNat % (2 ^ r.n.toNat - 1) ∧
      Completes (.mlsnoiseReset rate) s n (.mlsnoise ⟨r.n, st, r.hash⟩) []) ∧
    ∃ y : SWord,
      valS s.params.sampleFmt y =
        .fin (!r.s.getLsbD (r.n.toNat - 1)) (2 ^ qexp s.params.sampleFmt) ∧
      Completes .mlsnoiseTick s n
        (.mlsnoise ⟨r.n, mlsNext s.params.mlsPoly r.n.toNat r.s, r.hash⟩) [.s y]

/-- NOISE.NEW on an instance of any kind, and NOISE.RESET with or without a sample rate: X is the hash
zero-extended to 64 bits (44_noise.md R303, R304). -/
def Obligations.NoiseNewAndReset : Prop :=
  ∀ (s : State) (n : Inst) (sr : FWord), Live s n →
    (decode 0x00000090 [] = .ok .noiseNew ∧ decode 0x00000091 [] = .ok (.noiseReset none) ∧
      decode 0x00000191 [.f sr] = .ok (.noiseReset (some sr))) ∧
    (∃ x : U64, x.toNat = Config.initialHash.toNat ∧
      Completes .noiseNew s n (.noise ⟨x, Config.initialHash⟩) []) ∧
    ∀ r, n.node = .noise r → ∀ rate : Option FWord, ∃ x : U64, x.toNat = r.hash.toNat ∧
      Completes (.noiseReset rate) s n (.noise ⟨x, r.hash⟩) []

/-- NOISE.TICK advances X by the LCG modulo 2^64 and returns, in S, exactly the value
`(X[63:44] - 2^19) / 2^19` of the new X: a multiple of 2^-19 in [-1, 1), counted here in the quanta of
the format (44_noise.md R301, R302, R306, R307). -/
def Obligations.NoiseTickReturnsExactSample : Prop :=
  ∀ (s : State) (n : Inst) (r : NoiseRegs), FormatsOk s.params → Live s n → n.node = .noise r →
    decode 0x00000093 [] = .ok .noiseTick ∧
    ∃ (x : U64) (y : SWord),
      x.toNat = (r.x.toNat * 6364136223846793005 + 1442695040888963407) % 2 ^ 64 ∧
      valS s.params.sampleFmt y = .fin (x.toNat / 2 ^ 44 < 2 ^ 19)
        (((x.toNat / 2 ^ 44 : ℕ) - 2 ^ 19 : ℤ).natAbs * 2 ^ (qexp s.params.sampleFmt - 19)) ∧
      Completes .noiseTick s n (.noise ⟨x, r.hash⟩) [.s y]

/-! ### SINE -/

/-- SINE.NEW on an instance of any kind, and SINE.RESET without and with a sample rate
(45_oscillator.md R321, R322). Where sr is -0, DT is by the pseudocode -inf, where a corner case of R321 says
+inf for sr = 0 (the model's reading, log 32). -/
def Obligations.SineNewAndReset : Prop :=
  ∀ (s : State) (n : Inst) (sr : FWord), Live s n →
    (decode 0x000000A0 [.f sr] = .ok (.sineNew sr) ∧
      decode 0x000000A1 [] = .ok (.sineReset none) ∧
      decode 0x000001A1 [.f sr] = .ok (.sineReset (some sr))) ∧
    (∃ d, Completes (.sineNew sr) s n
      (.sine ⟨fdiv s.params.calcFmt d (natToF s.params.calcFmt 1) sr, phaseOfHash s.params Config.initialHash, Config.initialHash⟩) []) ∧
    ∀ r, n.node = .sine r →
      Completes (.sineReset none) s n (.sine { r with phase := phaseOfHash s.params r.hash }) [] ∧
      ∃ d, Completes (.sineReset (some sr)) s n
        (.sine ⟨fdiv s.params.calcFmt d (natToF s.params.calcFmt 1) sr, phaseOfHash s.params r.hash, r.hash⟩) []

/-- SINE.TICK advances the phase by `f * DT`, never wrapping it, and returns the sine of the new phase
(45_oscillator.md R324, 10_state.md R67). For an infinite frequency where DT is 0 or a NaN, and where a NaN or
infinities of opposite sign meet, PHASE is by the pseudocode a NaN, against a corner case of R324 that says an
infinite frequency makes it infinite until RESET or NEW (the model's choice, log 31). -/
def Obligations.SineTickAdvancesThenSamples : Prop :=
  ∀ (s : State) (n : Inst) (r : SineRegs) (freq : SWord), Live s n → n.node = .sine r →
    let f := s.params.calcFmt
    decode 0x000000A3 [.s freq] = .ok (.sineTick freq) ∧
    ∃ (d : Draws) (phase : FWord),
      phase = fadd f (d 2) r.phase (fmul f (d 0) (toF s.params (d 1) freq) r.dt) ∧
      Completes (.sineTick freq) s n (.sine ⟨r.dt, phase, r.hash⟩)
        [.s (toS s.params (d 10) (fsin f (d 4) (fmul f (d 3) phase (tauF f))))]

/-- Every map that PHASE_OF_HASH may be has its values in [0, 1). The default is h / 2^32 rounded toward
zero, the greatest value of F not above it; where F has at least 32 significand bits it is exactly h / 2^32
and injective (45_oscillator.md R320, log 4). Values are counted in the quanta of the format. -/
def Obligations.PhaseOfHashIsExact : Prop :=
  (∀ (p : Params) (h : U32), FormatsOk p → ∃ (s : Bool) (m : Nat),
    valF p.calcFmt (phaseOfHash p h) = .fin s m ∧ m < 2 ^ qexp p.calcFmt ∧ (s = true → m = 0)) ∧
  (∀ (p : Params) (h : U32), FormatsOk p → p.phaseMap = .scaled →
    ∃ m : Nat, valF p.calcFmt (phaseOfHash p h) = .fin false m ∧
      Representable p.calcFmt m ∧ m * 2 ^ 32 ≤ h.toNat * 2 ^ qexp p.calcFmt ∧
      (∀ q, Representable p.calcFmt q → q * 2 ^ 32 ≤ h.toNat * 2 ^ qexp p.calcFmt → q ≤ m) ∧
      (31 ≤ p.calcFmt.mb → m = h.toNat * 2 ^ (qexp p.calcFmt - 32))) ∧
  ∀ p : Params, FormatsOk p → p.phaseMap = .scaled → 31 ≤ p.calcFmt.mb →
    Function.Injective (phaseOfHash p)

/-! ### Arithmetic -/

/-- Rounding gives a nearest value of the format, as if its exponent range had no top, and of two nearest
ones the even one; where that value is at or above the overflow threshold, the result is the infinity of
the same sign (00_scope.md R15, R17, R22). -/
def Obligations.RoundingIsNearestTiesToEven : Prop :=
  ∀ (f : Fmt) (neg : Bool) (n d : Nat), 0 < d → IsRounding f neg ((n : ℝ) / d) (Fp.round f neg n d)

/-- Addition, subtraction, multiplication and division of finite values are the exact real sum, difference,
product and quotient rounded once, with the signs of zero of IEEE 754; their results for zeros, infinities
and NaNs are those of R17; and on words, in every interchange format, the operations compute exactly these
values (00_scope.md R12, R17, R26; log 24). -/
def Obligations.ArithmeticFollowsIeee : Prop :=
  (∀ (f : Fmt) (s t : Bool) (m k : Nat),
    let x : ℤ := if s then -(m : ℤ) else m
    let y : ℤ := if t then -(k : ℤ) else k
    (if x + y = 0 then Fp.add f (.fin s m) (.fin t k) = .fin (s && t) 0
      else IsRounding f (x + y < 0) |(x + y : ℝ)| (Fp.add f (.fin s m) (.fin t k))) ∧
    (if x - y = 0 then Fp.sub f (.fin s m) (.fin t k) = .fin (s && !t) 0
      else IsRounding f (x - y < 0) |(x - y : ℝ)| (Fp.sub f (.fin s m) (.fin t k))) ∧
    IsRounding f (s != t) ((m : ℝ) * k / 2 ^ qexp f) (Fp.mul f (.fin s m) (.fin t k)) ∧
    (k ≠ 0 → IsRounding f (s != t) ((m : ℝ) / k * 2 ^ qexp f) (Fp.div f (.fin s m) (.fin t k))) ∧
    (m ≠ 0 → Fp.div f (.fin s m) (.fin t 0) = .inf (s != t)) ∧
    Fp.div f (.fin s 0) (.fin t 0) = .nan) ∧
  (∀ (f : Fmt) (s t : Bool) (m : Nat),
    Fp.add f (.inf s) (.fin t m) = .inf s ∧ Fp.add f (.fin t m) (.inf s) = .inf s ∧
    Fp.add f (.inf s) (.inf s) = .inf s ∧ Fp.add f (.inf s) (.inf !s) = .nan ∧
    Fp.sub f (.inf s) (.inf s) = .nan ∧
    Fp.mul f (.inf s) (.inf t) = .inf (s != t) ∧
    (m ≠ 0 → Fp.mul f (.inf s) (.fin t m) = .inf (s != t) ∧
      Fp.mul f (.fin t m) (.inf s) = .inf (t != s)) ∧
    Fp.mul f (.inf s) (.fin t 0) = .nan ∧ Fp.mul f (.fin t 0) (.inf s) = .nan ∧
    Fp.div f (.inf s) (.fin t m) = .inf (s != t) ∧ Fp.div f (.fin s m) (.inf t) = .fin (s != t) 0 ∧
    Fp.div f (.inf s) (.inf t) = .nan) ∧
  (∀ (f : Fmt) (v : Fp), Fp.add f .nan v = .nan ∧ Fp.add f v .nan = .nan ∧ Fp.sub f .nan v = .nan ∧
    Fp.sub f v .nan = .nan ∧ Fp.mul f .nan v = .nan ∧ Fp.mul f v .nan = .nan ∧
    Fp.div f .nan v = .nan ∧ Fp.div f v .nan = .nan) ∧
  ∀ (f : Fmt) (d : Draw) (a b : FWord), Interchange f →
    valF f (fadd f d a b) = Fp.add f (valF f a) (valF f b) ∧
    valF f (fsub f d a b) = Fp.sub f (valF f a) (valF f b) ∧
    valF f (fmul f d a b) = Fp.mul f (valF f a) (valF f b) ∧
    valF f (fdiv f d a b) = Fp.div f (valF f a) (valF f b) ∧
    valF f (fsqrt f d a) = Fp.sqrt f (valF f a) ∧
    valF f (fneg f d a) = (valF f a).neg

/-- In every interchange format the root of a positive finite value is a finite value of the format, and
no value of the format is nearer to the real square root; the root of a zero is that zero, of +inf is
+inf, and of every other value is a NaN (00_scope.md R15, R17). -/
def Obligations.SquareRootIsCorrectlyRounded : Prop :=
  (∀ (f : Fmt) (m : Nat), Interchange f → 0 < m → m < overflow f →
    ∃ r : Nat, Fp.sqrt f (.fin false m) = .fin false r ∧ Representable f r ∧ r < overflow f ∧
      ∀ q, Representable f q →
        |(r : ℝ) - Real.sqrt (m * 2 ^ qexp f)| ≤ |(q : ℝ) - Real.sqrt (m * 2 ^ qexp f)|) ∧
  ∀ (f : Fmt) (s : Bool) (m : Nat), Fp.sqrt f (.fin s 0) = .fin s 0 ∧
    (0 < m → Fp.sqrt f (.fin true m) = .nan) ∧ Fp.sqrt f (.inf false) = .inf false ∧
    Fp.sqrt f (.inf true) = .nan ∧ Fp.sqrt f .nan = .nan

/-- Reading an F word and writing its value back gives the word, unless it is a NaN; widening an S word
to F keeps its value exactly, and a NaN becomes a NaN; narrowing an F word to S rounds its value once, and
a NaN becomes a NaN; narrowing a widened S word gives the word, unless it is a NaN; and where the formats
are the same, narrowing is the identity (20_memory.md R82, 00_scope.md R21, R22). -/
def Obligations.ConversionsAreExactWhereTheyCanBe : Prop :=
  ∀ p : Params, FormatsOk p →
    (∀ (d : Draw) (w : FWord), w.bits < 2 ^ p.calcFmt.width → valF p.calcFmt w ≠ .nan →
      wordF p.calcFmt d (valF p.calcFmt w) = w) ∧
    (∀ (d : Draw) (v : SWord) (neg : Bool) (m : Nat), valS p.sampleFmt v = .fin neg m →
      valF p.calcFmt (toF p d v) = .fin neg (m * 2 ^ (qexp p.calcFmt - qexp p.sampleFmt))) ∧
    (∀ (d : Draw) (v : SWord) (neg : Bool), valS p.sampleFmt v = .inf neg →
      valF p.calcFmt (toF p d v) = .inf neg) ∧
    (∀ (d : Draw) (v : SWord), valS p.sampleFmt v = .nan → valF p.calcFmt (toF p d v) = .nan) ∧
    (∀ (d : Draw) (w : FWord) (neg : Bool) (m : Nat), valF p.calcFmt w = .fin neg m →
      IsRounding p.sampleFmt neg ((m : ℝ) * 2 ^ qexp p.sampleFmt / 2 ^ qexp p.calcFmt)
        (valS p.sampleFmt (toS p d w))) ∧
    (∀ (d : Draw) (w : FWord) (neg : Bool), valF p.calcFmt w = .inf neg →
      valS p.sampleFmt (toS p d w) = .inf neg) ∧
    (∀ (d : Draw) (w : FWord), valF p.calcFmt w = .nan → valS p.sampleFmt (toS p d w) = .nan) ∧
    (∀ (d e : Draw) (v : SWord), v.bits < 2 ^ p.sampleFmt.width → valS p.sampleFmt v ≠ .nan →
      toS p e (toF p d v) = v) ∧
    (p.calcFmt = p.sampleFmt → ∀ (d : Draw) (w : FWord), (toS p d w).bits = w.bits)

/-- In every interchange format TAU_F is exactly twice PI_F, and SQRT2_F is √2 rounded; in binary32 and
in binary64 PI_F is π rounded (00_scope.md R25; for wider formats log 23). -/
def Obligations.ConstantsAreCorrectlyRounded : Prop :=
  (∀ f : Fmt, Interchange f → ∃ p t q : Nat, valF f (piF f) = .fin false p ∧
    valF f (tauF f) = .fin false t ∧ valF f (sqrt2F f) = .fin false q ∧ t = 2 * p ∧
    ∀ r, Representable f r →
      |(q : ℝ) - Real.sqrt 2 * 2 ^ qexp f| ≤ |(r : ℝ) - Real.sqrt 2 * 2 ^ qexp f|) ∧
  ∀ f ∈ [Fmt.binary32, Fmt.binary64], ∃ p : Nat, valF f (piF f) = .fin false p ∧
    ∀ r, Representable f r →
      |(p : ℝ) - Real.pi * 2 ^ qexp f| ≤ |(r : ℝ) - Real.pi * 2 ^ qexp f|

/-- In every interchange format, feq is false for a NaN, true for the two zeros against each other, and
otherwise says that the operands are the same number. flt is false for a NaN; on finite operands it
compares the signed magnitudes, which are counted in one unit; -inf is less than every other number, and
every other number is less than +inf (00_scope.md R23, R24; log 24). -/
def Obligations.ComparisonsAreQuiet : Prop :=
  ∀ (f : Fmt) (a b : FWord), Interchange f →
    (feq f a b = true ↔
      valF f a ≠ .nan ∧ valF f b ≠ .nan ∧
        (valF f a = valF f b ∨ ∃ s t, valF f a = .fin s 0 ∧ valF f b = .fin t 0)) ∧
    (flt f a b = true → valF f a ≠ .nan ∧ valF f b ≠ .nan ∧ feq f a b = false ∧
      flt f b a = false) ∧
    (∀ (s t : Bool) (m k : Nat), valF f a = .fin s m → valF f b = .fin t k →
      (flt f a b = true ↔ (if s then -(m : ℤ) else m) < (if t then -(k : ℤ) else k))) ∧
    (valF f a = .inf true → valF f b ≠ .nan → valF f b ≠ .inf true → flt f a b = true) ∧
    (valF f b = .inf false → valF f a ≠ .nan → valF f a ≠ .inf false → flt f a b = true)

/-- Under both forms of b0 and for every argument, b1 = +0 and b2 = neg(b0), and wherever b0 is finite
that makes `b0 + b1 + b2` and `b0 - b1 + b2` zero, in every interchange format (40_coefficients.md
R147). -/
def Obligations.ResonatorHasZerosAtDcAndNyquist : Prop :=
  ∀ f : Fmt, Interchange f →
    (∀ (form : B0Form) (d : Draws) (sr fc bw : FWord), ∃ e : Draw,
      (resonCoefsOf form f d sr fc bw).b1 = zeroF ∧
      (resonCoefsOf form f d sr fc bw).b2 = fneg f e (resonCoefsOf form f d sr fc bw).b0) ∧
    ∀ (d e : Draw) (b0 : FWord) (neg : Bool) (m : Nat), valF f b0 = .fin neg m →
      feq f (fadd f d (fadd f d b0 zeroF) (fneg f e b0)) zeroF = true ∧
      feq f (fadd f d (fsub f d b0 zeroF) (fneg f e b0)) zeroF = true

/-- A NaN in Y1 or Y2 of a biquad, in VALUE of LOWPOLE, in Y1 of DCBLOCK or in PHASE of SINE makes the
next value of that recurrence a NaN, and the sample of a NaN value is a NaN
(70_reset_and_hazards.md R395). -/
def Obligations.NanStaysInRecurrenceRegisters : Prop :=
  ∀ p : Params, FormatsOk p →
    (∀ (d : Draws) (c : Coefs) (z : Delays) (x : SWord),
      isNaNF p.calcFmt z.y1 ∨ isNaNF p.calcFmt z.y2 →
      isNaNF p.calcFmt (biquadStep p d c z x).2 ∧ isNaNF p.calcFmt (biquadStep p d c z x).1.y1) ∧
    (∀ (d : Draws) (coeff x0 value : FWord), isNaNF p.calcFmt value →
      isNaNF p.calcFmt (lowpoleValue p.calcFmt d coeff x0 value)) ∧
    (∀ (d : Draws) (coeff x0 x1 y1 : FWord), isNaNF p.calcFmt y1 →
      isNaNF p.calcFmt (dcblockValue p.calcFmt d coeff x0 x1 y1)) ∧
    (∀ (d : Draw) (phase inc : FWord), isNaNF p.calcFmt phase →
      isNaNF p.calcFmt (fadd p.calcFmt d phase inc)) ∧
    (∀ (d : Draw) (y : FWord), isNaNF p.calcFmt y → isNaNS p.sampleFmt (toS p d y))

/-- Which NaN a word is, is never observed: two states that differ in it alone, and two commands whose
operands differ in it alone, give next states that differ in it alone, the results among them; so TAN, EXP,
COS, SIN, RESP and the coefficient functions depend on the values of their arguments (00_scope.md R18, R20,
40_coefficients.md R141, R152; logs 8 to 10). -/
def Obligations.NanIdentityIsNeverObserved : Prop :=
  ∀ (i j : Instr) (s u t : State), FormatsOk s.params → i.fields = j.fields →
    i.operands.map (XferWord.forget s.params) = j.operands.map (XferWord.forget s.params) →
    s.forget = u.forget → exec i s = .next t →
    ∃ v : State, exec j u = .next v ∧ v.forget = t.forget

/-! ### Resets and invariants -/

/-- The three RESPONSE commands, MLS.VALUE and MLS.STATE leave every register as it was; repeated, each of
these, each SETHASH and each RESET, with or without a sample rate, leaves the registers and returns the
result that it did the first time, up to the identity of NaN values (20_memory.md R85, 00_scope.md R18). -/
def Obligations.RepeatedCommandIsOnce : Prop :=
  ∀ (s t u : State) (i : Instr) (l m n : Inst), FormatsOk s.params →
    i.fields.op ∈ [Op.reset, .setHash, .response, .value, .state] →
    exec i s = .next t → exec i t = .next u →
    s.target? = some l → t.target? = some m → u.target? = some n →
    n.node.mapF (forgetF s.params) = m.node.mapF (forgetF s.params) ∧
    n.outcomes.head?.map (CmdOutcome.forget s.params) =
      m.outcomes.head?.map (CmdOutcome.forget s.params) ∧
    (i.fields.op ∈ [Op.response, .value, .state] → m.node = l.node)

/-- 1 ≤ N ≤ 31 and 1 ≤ S ≤ 2^N - 1 in every MLS and MLSNOISE instance is kept by every step, with any
table that meets the first two clauses of 43_mls.md R261 (10_state.md R66). -/
def Obligations.MlsStateStaysInRange : Prop :=
  ∀ s t : State, TapsOk s.params → s.All (fun n => n.node.MlsOk) → step s = .next t →
    TapsOk t.params ∧ t.All (fun n => n.node.MlsOk)

/-- That the coefficients of BUTTER, RESON, LOWPOLE and DCBLOCK are the coefficient function of SR and
the cached keys is kept by every step (42_derived_filters.md R203). -/
def Obligations.CoefficientsStayCurrent : Prop :=
  ∀ s t : State, s.All (fun n => n.node.CoefsCurrent s.params) → step s = .next t →
    t.All (fun n => n.node.CoefsCurrent t.params)

/-- That every F register has the width of F, and every word returned to the host the width of its type,
is kept by every step (20_memory.md R82, 00_scope.md R14). -/
def Obligations.WordsFitTheirFormats : Prop :=
  ∀ s t : State, FormatsOk s.params → s.All (Inst.Fits s.params) → step s = .next t →
    FormatsOk t.params ∧ t.All (Inst.Fits t.params)

/-- That FAULT_CAUSE and FAULT_WORD agree with the faults reported to the host, of which there is at most
one, the last outcome of its instance, is kept by every step (60_exceptions.md R344, R350, R351). -/
def Obligations.FaultRegistersMatchReports : Prop :=
  ∀ s t : State, s.All Inst.FaultOk → step s = .next t → t.All Inst.FaultOk

/-- The four invariants hold at power-on, for any number of instances and any parameters (10_state.md
R63), and the default parameters meet the constraints of 00_scope.md R9 and the first two clauses of
43_mls.md R261. -/
def Obligations.PowerOnMeetsInvariants : Prop :=
  (∀ (p : Params) (count : Nat),
    (State.powerOn p count).All (fun n => n.node.MlsOk) ∧
    (State.powerOn p count).All (fun n => n.node.CoefsCurrent p) ∧
    (State.powerOn p count).All (Inst.Fits p) ∧
    (State.powerOn p count).All Inst.FaultOk) ∧
  FormatsOk Params.default ∧ TapsOk Params.default
end

