-- ==== Sys2Proof/Laws/State.lean ====
section
/-! SUPPORT. What each named update of the state leaves in each field, so that no later proof unfolds a
record update. -/

namespace Sys2Proof.Machine

section
variable (s : State) (n : Inst) (c : FaultCause) (w : BitVec 32) (node : Node) (rs : List XferWord)

@[simp] theorem raise_node : (n.raise c w).node = n.node := rfl
@[simp] theorem raise_faultCause : (n.raise c w).faultCause = c := rfl
@[simp] theorem raise_faultWord : (n.raise c w).faultWord = w := rfl
@[simp] theorem raise_outcomes : (n.raise c w).outcomes = .faulted c w :: n.outcomes := rfl
@[simp] theorem raise_draws : (n.raise c w).draws = n.draws := rfl

@[simp] theorem complete_node : (n.complete node rs).node = node := rfl
@[simp] theorem complete_faultCause : (n.complete node rs).faultCause = n.faultCause := rfl
@[simp] theorem complete_faultWord : (n.complete node rs).faultWord = n.faultWord := rfl
@[simp] theorem complete_outcomes : (n.complete node rs).outcomes = .done rs :: n.outcomes := rfl
@[simp] theorem complete_draws : (n.complete node rs).draws = n.draws + 1 := rfl

@[simp] theorem setTarget_params : (s.setTarget n).params = s.params := rfl
@[simp] theorem setTarget_insts : (s.setTarget n).insts = s.insts.set s.cur.inst n := rfl
@[simp] theorem setTarget_pending : (s.setTarget n).pending = s.pending := rfl
@[simp] theorem setTarget_cur : (s.setTarget n).cur = s.cur := rfl

variable (cmd : Command) (rest : List Command)

@[simp] theorem deliver_params : (s.deliver cmd rest).params = s.params := rfl
@[simp] theorem deliver_insts : (s.deliver cmd rest).insts = s.insts := rfl
@[simp] theorem deliver_pending : (s.deliver cmd rest).pending = rest := rfl
@[simp] theorem deliver_cur : (s.deliver cmd rest).cur = ⟨cmd.inst, cmd.word⟩ := rfl

variable (nbits word : Nat)

@[simp] theorem withFetchWord_params : (s.withFetchWord nbits word).params = s.params := rfl
@[simp] theorem withFetchWord_insts : (s.withFetchWord nbits word).insts = s.insts := rfl
@[simp] theorem withFetchWord_cur : (s.withFetchWord nbits word).cur = s.cur := rfl
@[simp] theorem withFetchWord_pending :
    (s.withFetchWord nbits word).pending =
      tableCommand s.params (firstLive s.insts) nbits word :: s.pending := rfl

end

section
variable (p : Params) (k : Nat)

@[simp] theorem powerOn_params : (State.powerOn p k).params = p := rfl
@[simp] theorem powerOn_pending : (State.powerOn p k).pending = [] := rfl
@[simp] theorem powerOn_insts : (State.powerOn p k).insts = List.replicate k Inst.powerOn := rfl

end

@[simp] theorem reset_eq_powerOn :
    State.reset = State.powerOn Params.default Config.numInstances := rfl

end Sys2Proof.Machine
end

