-- ==== Sys2Proof/Laws/Ops.lean ====
section
/-! SUPPORT. What each shared operation can do, said once. -/

namespace Sys2Proof.Machine

variable {s t : State} {n : Inst}

theorem not_faulted_iff : n.faulted = false ↔ n.faultCause = .none := by simp [Inst.faulted]

theorem faulted_iff : n.faulted = true ↔ n.faultCause ≠ .none := by simp [Inst.faulted]

/-- On an instance that is there and not faulted, `onTarget` is one atomic step of it. -/
theorem onTarget_live {f : Inst → Inst} (h : s.target? = some n) (hf : n.faultCause = .none) :
    s.onTarget f = .next (s.setTarget (f n)) := by
  simp [State.onTarget, h, Inst.faulted, hf]

/-- A faulted instance has no step (60_exceptions.md R350). -/
theorem onTarget_faulted {f : Inst → Inst} (h : s.target? = some n) (hf : n.faultCause ≠ .none) :
    s.onTarget f = .fault .faultedInstance := by
  simp [State.onTarget, h, Inst.faulted, hf]

/-- A missing instance has no step. -/
theorem onTarget_missing {f : Inst → Inst} (h : s.target? = none) :
    s.onTarget f = .fault .noSuchInstance := by
  simp [State.onTarget, h]

/-- Everything `onTarget` can answer with a next state. -/
theorem onTarget_next {f : Inst → Inst} (h : s.onTarget f = .next t) :
    ∃ n, s.target? = some n ∧ n.faultCause = .none ∧ t = s.setTarget (f n) := by
  cases hs : s.target? with
  | none => simp [State.onTarget, hs] at h
  | some n =>
    by_cases hf : n.faultCause = .none
    · rw [onTarget_live hs hf] at h
      exact ⟨n, rfl, hf, by simpa using h.symm⟩
    · simp [onTarget_faulted hs hf] at h

/-- `onTarget` never refuses. -/
theorem onTarget_not_refused {f : Inst → Inst} {r : Refusal} : s.onTarget f ≠ .refused r := by
  simp only [State.onTarget]
  split
  · simp
  · split <;> simp

/-- A construction on a live instance. -/
theorem construct_live {node : Draws → Node} (h : s.target? = some n) (hf : n.faultCause = .none) :
    construct s node = .next (s.setTarget (n.complete (node (s.drawsOf n)) [])) :=
  onTarget_live h hf

/-- A command of the unit that KIND names. -/
theorem onUnit_live {R : Type} {regs : Node → Option R} {f : Draws → R → Node × List XferWord} {r : R}
    (h : s.target? = some n) (hf : n.faultCause = .none) (hr : regs n.node = some r) :
    onUnit regs s f =
      .next (s.setTarget (n.complete (f (s.drawsOf n) r).1 (f (s.drawsOf n) r).2)) := by
  simp [onUnit, onTarget_live h hf, hr]

/-- A command of another unit raises ILLEGAL_COMMAND (30_encoding.md R118 step 4). -/
theorem onUnit_mismatch {R : Type} {regs : Node → Option R} {f : Draws → R → Node × List XferWord}
    (h : s.target? = some n) (hf : n.faultCause = .none) (hr : regs n.node = none) :
    onUnit regs s f = .next (s.setTarget (n.raise .illegalCommand s.cur.word)) := by
  simp [onUnit, onTarget_live h hf, hr]

/-- Writing the addressed instance and reading it back. -/
theorem target_setTarget {n' : Inst} (h : s.target? = some n) :
    (s.setTarget n').target? = some n' := by
  simp only [State.target?, setTarget_insts, setTarget_cur] at *
  obtain ⟨hlt, -⟩ := List.getElem?_eq_some_iff.mp h
  simp [hlt]

/-- Writing the addressed instance leaves every other one (10_state.md R41). -/
theorem setTarget_other {n' : Inst} {j : Nat} (hj : j ≠ s.cur.inst) :
    (s.setTarget n').insts[j]? = s.insts[j]? := by
  simp [List.getElem?_set_ne (Ne.symm hj)]

/-- A property every instance has is kept by writing an instance that has it. -/
theorem all_setTarget {P : Inst → Prop} {n' : Inst} (hs : ∀ m ∈ s.insts, P m) (hn : P n') :
    ∀ m ∈ (s.setTarget n').insts, P m := by
  intro m hm
  rcases List.mem_or_eq_of_mem_set hm with h | rfl
  exacts [hs m h, hn]

/-- The addressed instance is one of the instances. -/
theorem target_mem (h : s.target? = some n) : n ∈ s.insts := List.mem_of_getElem? h

end Sys2Proof.Machine
end

