-- ==== Sys2Proof/Laws/Exec.lean ====
section
/-! SUPPORT. What any command can do to the state, in one lemma that the invariants go through. -/

namespace Sys2Proof.Machine

/-- What a command that has a step leaves of its instance: it took a fault, or it completed. -/
def Inst.After (w : BitVec 32) (n n' : Inst) : Prop :=
  (∃ c, c ≠ .none ∧ n' = n.raise c w) ∨ ∃ node rs, n' = n.complete node rs

/-- An operation on the addressed instance that takes a fault or completes. -/
def IsStepOf (s : State) (o : Host.Outcome State Fault Refusal) : Prop :=
  ∃ f : Inst → Inst, o = s.onTarget f ∧ ∀ n, Inst.After s.cur.word n (f n)

theorem isStepOf_construct (s : State) (node : Draws → Node) : IsStepOf s (construct s node) :=
  ⟨_, rfl, fun _ => .inr ⟨_, _, rfl⟩⟩

theorem isStepOf_onUnit {R : Type} (regs : Node → Option R) (s : State)
    (f : Draws → R → Node × List XferWord) : IsStepOf s (onUnit regs s f) := by
  refine ⟨_, rfl, fun n => ?_⟩
  cases h : regs n.node with
  | none => exact .inl ⟨.illegalCommand, by simp, rfl⟩
  | some r => exact .inr ⟨_, _, rfl⟩

theorem after_ite {p : Prop} [Decidable p] {w : BitVec 32} {n a b : Inst}
    (ha : Inst.After w n a) (hb : Inst.After w n b) : Inst.After w n (if p then a else b) := by
  split <;> assumption

theorem after_raise {c : FaultCause} (hc : c ≠ .none) (w : BitVec 32) (n : Inst) :
    Inst.After w n (n.raise c w) := .inl ⟨c, hc, rfl⟩

theorem after_complete (w : BitVec 32) (n : Inst) (node : Node) (rs : List XferWord) :
    Inst.After w n (n.complete node rs) := .inr ⟨node, rs, rfl⟩

theorem isStepOf_raiseIllegal (s : State) : IsStepOf s (raiseIllegal s) :=
  ⟨_, rfl, fun n => after_raise (by decide) _ n⟩

/-- Every command is an operation on the addressed instance that takes a fault or completes. -/
theorem isStepOf_exec (i : Instr) (s : State) : IsStepOf s (exec i s) := by
  cases i
  case mlsNew n st =>
    exact ⟨_, rfl, fun _ => after_ite (after_raise (by decide) _ _)
      (after_ite (after_raise (by decide) _ _) (after_complete _ _ _ _))⟩
  case mlsNewSeed n seed =>
    exact ⟨_, rfl, fun _ => after_ite (after_raise (by decide) _ _) (after_complete _ _ _ _)⟩
  case mlsnoiseNew n =>
    exact ⟨_, rfl, fun _ => after_ite (after_raise (by decide) _ _) (after_complete _ _ _ _)⟩
  all_goals
    simp only [exec, execBqNew, execBqReset, execBqSetHash, execBqTick, execBqSetCoefs, execBqResponse,
      execButterNew, execButterReset, execButterSetHash, execButterTick, execButterResponse,
      execResonNew, execResonReset, execResonSetHash, execResonTick, execResonResponse,
      execLowpoleNew, execLowpoleReset, execLowpoleSetHash, execLowpoleTick, execDcblockNew,
      execDcblockReset, execDcblockSetHash, execDcblockTick, execDeclickNew, execDeclickReset,
      execDeclickSetHash, execDeclickTick, execMlsNext, execMlsValue, execMlsState,
      execMlsnoiseReset, execMlsnoiseSetHash, execMlsnoiseTick, execNoiseNew, execNoiseReset,
      execNoiseSetHash, execNoiseTick, execSineNew, execSineReset, execSineSetHash, execSineTick]
    first | exact isStepOf_construct _ _ | exact isStepOf_onUnit _ _ _

/-- Everything a command can answer with a next state. -/
theorem exec_next {i : Instr} {s t : State} (h : exec i s = .next t) :
    ∃ n n', s.target? = some n ∧ n.faultCause = .none ∧ t = s.setTarget n' ∧
      Inst.After s.cur.word n n' := by
  obtain ⟨f, hf, ha⟩ := isStepOf_exec i s
  obtain ⟨n, hn, hl, ht⟩ := onTarget_next (hf ▸ h)
  exact ⟨n, f n, hn, hl, ht, ha n⟩

/-- Every command to a live instance has a step (70_reset_and_hazards.md R401). -/
theorem exec_live {i : Instr} {s : State} {n : Inst} (h : s.target? = some n)
    (hf : n.faultCause = .none) :
    ∃ n', exec i s = .next (s.setTarget n') ∧ Inst.After s.cur.word n n' := by
  obtain ⟨f, he, ha⟩ := isStepOf_exec i s
  exact ⟨f n, he.trans (onTarget_live h hf), ha n⟩

end Sys2Proof.Machine
end

