-- ==== Sys2Proof/Laws/Step.lean ====
section
/-! SUPPORT. What a step can do. -/

namespace Sys2Proof.Machine

/-- A command at the head of the queue to an instance that is not faulted is the one delivered. -/
theorem nextCommand_head {insts : List Inst} {c : Command} {cs : List Command}
    (h : ∀ n, insts[c.inst]? = some n → n.faultCause = .none) :
    nextCommand insts (c :: cs) = some (c, cs) := by
  cases hc : insts[c.inst]? with
  | none => simp [nextCommand, hc]
  | some n => simp [nextCommand, hc, Inst.faulted, h n hc]

/-- Everything a performed command can answer with a next state. -/
theorem perform_next {c : Command} {s t : State} (h : perform c s = .next t) :
    ∃ n n', s.target? = some n ∧ n.faultCause = .none ∧ t = s.setTarget n' ∧
      Inst.After s.cur.word n n' := by
  have illegal : ∀ {t}, raiseIllegal s = .next t → ∃ n n', s.target? = some n ∧
      n.faultCause = .none ∧ t = s.setTarget n' ∧ Inst.After s.cur.word n n' := fun h => by
    obtain ⟨n, hn, hl, ht⟩ := onTarget_next h
    exact ⟨n, _, hn, hl, ht, after_raise (by decide) _ n⟩
  have wrong : ∀ {t}, wrongOperands s ≠ .next t := fun {t} h => by
    simp only [wrongOperands] at h
    split at h
    · cases h
    · split at h <;> cases h
  simp only [perform] at h
  split at h
  · exact illegal h
  · exact absurd h wrong
  · split at h
    · exact exec_next h
    · exact absurd h wrong

/-- Everything a step can do: with no command pending it leaves the state; otherwise it delivers one
command, to an instance that is there and not faulted, which takes a fault or completes. -/
theorem step_next {s t : State} (h : step s = .next t) :
    (s.pending = [] ∧ t = s) ∨
    ∃ c rest n n', nextCommand s.insts s.pending = some (c, rest) ∧
      (s.deliver c rest).target? = some n ∧ n.faultCause = .none ∧
      t = (s.deliver c rest).setTarget n' ∧ Inst.After c.word n n' ∧
      perform c (s.deliver c rest) = .next t := by
  simp only [step] at h
  split at h
  · simp only [noDelivery] at h
    split at h
    · exact .inl ⟨‹_›, by simpa using h.symm⟩
    · cases h
  · next c rest hc =>
    obtain ⟨n, n', hn, hl, ht, ha⟩ := perform_next h
    exact .inr ⟨c, rest, n, n', hc, hn, hl, ht, ha, h⟩

end Sys2Proof.Machine
end

