-- ==== Sys2Proof/Machine/Assemble.lean ====
section
/-! DEFINITION. What a line of the assembler syntax stands for (30_encoding.md R119 to R121), from its
mnemonic and its literals; the characters of a line are not modelled (log 25). -/

namespace Sys2Proof.Machine

/-- An operand as written: a decimal floating literal as the rational `n / d` it spells, `inf`, `-inf`,
`nan`, or an unsigned integer (30_encoding.md R119). -/
inductive Literal where
  | decimal (neg : Bool) (n d : Nat)
  | inf (neg : Bool)
  | nan
  | int (n : Nat)
deriving DecidableEq, Repr

/-- The word a literal denotes as an operand of a type: the value of that type it rounds to
(30_encoding.md R120); which NaN `nan` denotes is the draw's. -/
def Literal.word (p : Params) (d : Draw) : WordType → Literal → Option XferWord
  | .f, .decimal neg n den => some (.f (litF p.calcFmt neg n den))
  | .f, .inf neg => some (.f (wordF p.calcFmt d (.inf neg)))
  | .f, .nan => some (.f (wordF p.calcFmt d .nan))
  | .s, .decimal neg n den => some (.s (litS p.sampleFmt neg n den))
  | .s, .inf neg => some (.s (wordS p.sampleFmt d (.inf neg)))
  | .s, .nan => some (.s (wordS p.sampleFmt d .nan))
  | .u32, .int n => if n < 2 ^ 32 then some (.u32 (BitVec.ofNat 32 n)) else none
  | _, _ => none

/-- The operand words of the literals, one for each type. -/
def literalWords (p : Params) (d : Draw) : List WordType → List Literal → Option (List XferWord)
  | [], [] => some []
  | t :: ts, l :: ls => (l.word p d t).bind fun w => (literalWords p d ts ls).map (w :: ·)
  | _, _ => none

/-- The fields a line sets, and its literals that are operand words: a CMD-N line gives the width first,
and a literal written for a RESET sets SRF (30_encoding.md R119). -/
def lineFields (f : Fields) (ls : List Literal) : Option (Fields × List Literal) :=
  if takesWidth f.unit f.op then
    match ls with
    | .int n :: rest => if n < 256 then some ({ f with n := n }, rest) else none
    | _ => none
  else if f.op = .reset then some ({ f with srf := !ls.isEmpty }, ls)
  else some (f, ls)

/-- The command word and operand words of a line; every mnemonic is one row of the command table
(30_encoding.md R119, R121). -/
def assemble (p : Params) (d : Draw) (mnemonic : String) (ls : List Literal) :
    Option (BitVec 32 × List XferWord) := do
  let row ← commandTable.find? fun r => r.1 == mnemonic
  let f ← fieldsOf row.2.1
  let (f, ls) ← lineFields f ls
  let ws ← literalWords p d f.operandTypes ls
  return (f.word, ws)

end Sys2Proof.Machine
end

