-- ==== Sys2Proof/Tests/Slice0.lean ====
section
/-! SUPPORT. The model's own tests. Every expected value is from spec/ (the command table R110, the
vectors V1 to V40 of 95_test_vectors.md) or a hand calculation from its rules; and the witnesses that
the hypotheses of each statement can be met. -/

namespace Sys2Proof.Tests

open Sys2Proof Sys2Proof.Machine

/-! ### Helpers -/

/-- A live instance holding `node`. -/
def live (node : Node) : Inst := { Inst.powerOn with node := node }

/-- One live instance, with a command whose word is `w` in progress on it. -/
def block (node : Node) (w : BitVec 32 := 0) : State :=
  { params := Params.default, insts := [live node], pending := [], cur := ⟨0, w⟩ }

/-- What the first instance holds and last returned. -/
def seen : Host.Outcome State Fault Refusal → Option (Node × Option CmdOutcome)
  | .next s => s.insts[0]?.map fun n => (n.node, n.outcomes.head?)
  | .fault _ => none
  | .refused _ => none

def delays0 : Delays := ⟨zeroF, zeroF, zeroF, zeroF⟩

/-- The coefficients -0.5, 0.25, 1.0, 0.5, 0.25 of V1. -/
def coefsV1 : Coefs :=
  ⟨⟨0xBFE0000000000000⟩, ⟨0x3FD0000000000000⟩, ⟨0x3FF0000000000000⟩, ⟨0x3FE0000000000000⟩,
    ⟨0x3FD0000000000000⟩⟩

/-- BUTTER_COEFS(44100, 1000) as V10 gives it. -/
def coefsV10 : Coefs :=
  ⟨⟨0xBFFCC9195111671D⟩, ⟨0x3FEA290FC59394A5⟩, ⟨0x3F72DBA46E18CD80⟩, ⟨0x3F82DBA46E18CD80⟩,
    ⟨0x3F72DBA46E18CD80⟩⟩

def bq1 : BqRegs := ⟨coefsV1, delays0, 0⟩
def butter1 : ButterRegs := ⟨⟨0x40E5888000000000⟩, ⟨0x408F400000000000⟩, coefsV10, delays0, 0⟩
def reson1 : ResonRegs :=
  ⟨⟨0x40E5888000000000⟩, ⟨0x408F400000000000⟩, ⟨0x4059000000000000⟩, coefsV10, delays0, 0⟩
def lowpole1 : LowpoleRegs := ⟨⟨0x40E7700000000000⟩, ⟨0⟩, ⟨0x3FF0000000000000⟩, ⟨0⟩, 0⟩
def dcblock1 : DcblockRegs := ⟨⟨0x40E7700000000000⟩, ⟨0⟩, ⟨0x3FF0000000000000⟩, ⟨0⟩, ⟨0⟩, 0⟩
def declick1 : DeclickRegs := ⟨⟨0x3FD0000000000000⟩, ⟨0x3FF0000000000000⟩, ⟨0x3FD0000000000000⟩, 0⟩
def mls1 : MlsRegs := ⟨3, 1⟩
def mlsnoise1 : MlsnoiseRegs := ⟨3, 1, 10⟩
def noise1 : NoiseRegs := ⟨0, 1⟩
def sine1 : SineRegs := ⟨⟨0x3FD0000000000000⟩, ⟨0⟩, 0x40000000⟩

/-! ### WellFormed -/

theorem test_wellFormed_refuses :
    ¬ (Instr.mlsNew 256 1).WellFormed ∧ ¬ (Instr.mlsNewSeed 256 1).WellFormed ∧
      ¬ (Instr.mlsnoiseNew 256).WellFormed := by decide

theorem test_wellFormed_accepts :
    (Instr.mlsNew 255 1).WellFormed ∧ (Instr.mlsNewSeed 0 1).WellFormed ∧ Instr.bqNew.WellFormed := by
  decide

/-! ### Decoding: every row of 30_encoding.md R110, its word written out -/

theorem test_decode_bq :
    decode 0b00000000000000000000000000010000 [] = .ok .bqNew ∧
    decode 0b00000000000000000000000000010001 [] = .ok (.bqReset none) ∧
    decode 0b00000000000000000000000100010001 [.f ⟨5⟩] = .ok (.bqReset (some ⟨5⟩)) ∧
    decode 0b00000000000000000000000000010010 [.u32 7] = .ok (.bqSetHash 7) ∧
    decode 0b00000000000000000000000000010011 [.s ⟨3⟩] = .ok (.bqTick ⟨3⟩) ∧
    decode 0b00000000000000000000000000010100 [.f ⟨1⟩, .f ⟨2⟩, .f ⟨3⟩, .f ⟨4⟩, .f ⟨5⟩] =
      .ok (.bqSetCoefs ⟨1⟩ ⟨2⟩ ⟨3⟩ ⟨4⟩ ⟨5⟩) ∧
    decode 0b00000000000000000000000000010101 [.f ⟨9⟩] = .ok (.bqResponse ⟨9⟩) := by decide

theorem test_decode_butter :
    decode 0b00000000000000000000000000100000 [.f ⟨1⟩, .f ⟨2⟩] = .ok (.butterNew ⟨1⟩ ⟨2⟩) ∧
    decode 0b00000000000000000000000000100001 [] = .ok (.butterReset none) ∧
    decode 0b00000000000000000000000100100001 [.f ⟨5⟩] = .ok (.butterReset (some ⟨5⟩)) ∧
    decode 0b00000000000000000000000000100010 [.u32 7] = .ok (.butterSetHash 7) ∧
    decode 0b00000000000000000000000000100011 [.s ⟨3⟩, .s ⟨4⟩] = .ok (.butterTick ⟨3⟩ ⟨4⟩) ∧
    decode 0b00000000000000000000000000100101 [.f ⟨9⟩] = .ok (.butterResponse ⟨9⟩) := by decide

theorem test_decode_reson :
    decode 0b00000000000000000000000000110000 [.f ⟨1⟩, .f ⟨2⟩, .f ⟨3⟩] = .ok (.resonNew ⟨1⟩ ⟨2⟩ ⟨3⟩) ∧
    decode 0b00000000000000000000000000110001 [] = .ok (.resonReset none) ∧
    decode 0b00000000000000000000000100110001 [.f ⟨5⟩] = .ok (.resonReset (some ⟨5⟩)) ∧
    decode 0b00000000000000000000000000110010 [.u32 7] = .ok (.resonSetHash 7) ∧
    decode 0b00000000000000000000000000110011 [.s ⟨3⟩, .s ⟨4⟩, .s ⟨5⟩] = .ok (.resonTick ⟨3⟩ ⟨4⟩ ⟨5⟩) ∧
    decode 0b00000000000000000000000000110101 [.f ⟨9⟩] = .ok (.resonResponse ⟨9⟩) := by decide

theorem test_decode_lowpole :
    decode 0b00000000000000000000000001000000 [.f ⟨1⟩, .f ⟨2⟩] = .ok (.lowpoleNew ⟨1⟩ ⟨2⟩) ∧
    decode 0b00000000000000000000000001000001 [] = .ok (.lowpoleReset none) ∧
    decode 0b00000000000000000000000101000001 [.f ⟨5⟩] = .ok (.lowpoleReset (some ⟨5⟩)) ∧
    decode 0b00000000000000000000000001000010 [.u32 7] = .ok (.lowpoleSetHash 7) ∧
    decode 0b00000000000000000000000001000011 [.s ⟨3⟩, .s ⟨4⟩] = .ok (.lowpoleTick ⟨3⟩ ⟨4⟩) := by decide

theorem test_decode_dcblock :
    decode 0b00000000000000000000000001010000 [.f ⟨1⟩, .f ⟨2⟩] = .ok (.dcblockNew ⟨1⟩ ⟨2⟩) ∧
    decode 0b00000000000000000000000001010001 [] = .ok (.dcblockReset none) ∧
    decode 0b00000000000000000000000101010001 [.f ⟨5⟩] = .ok (.dcblockReset (some ⟨5⟩)) ∧
    decode 0b00000000000000000000000001010010 [.u32 7] = .ok (.dcblockSetHash 7) ∧
    decode 0b00000000000000000000000001010011 [.s ⟨3⟩] = .ok (.dcblockTick ⟨3⟩) := by decide

theorem test_decode_declick :
    decode 0b00000000000000000000000001100000 [.f ⟨1⟩, .f ⟨2⟩] = .ok (.declickNew ⟨1⟩ ⟨2⟩) ∧
    decode 0b00000000000000000000000001100001 [] = .ok (.declickReset none) ∧
    decode 0b00000000000000000000000101100001 [.f ⟨5⟩] = .ok (.declickReset (some ⟨5⟩)) ∧
    decode 0b00000000000000000000000001100010 [.u32 7] = .ok (.declickSetHash 7) ∧
    decode 0b00000000000000000000000001100011 [.s ⟨3⟩] = .ok (.declickTick ⟨3⟩) := by decide

theorem test_decode_mls :
    decode 0b00000000000000110000000001110000 [.u32 7] = .ok (.mlsNew 3 7) ∧
    decode 0b00000000000000000000000001110110 [] = .ok .mlsNext ∧
    decode 0b00000000000000000000000001110111 [] = .ok .mlsValue ∧
    decode 0b00000000000000000000000001111000 [] = .ok .mlsState ∧
    decode 0b00000000111111110000000001111001 [.u32 5] = .ok (.mlsNewSeed 255 5) := by decide

theorem test_decode_mlsnoise :
    decode 0b00000000000000110000000010000000 [] = .ok (.mlsnoiseNew 3) ∧
    decode 0b00000000000000000000000010000001 [] = .ok (.mlsnoiseReset none) ∧
    decode 0b00000000000000000000000110000001 [.f ⟨5⟩] = .ok (.mlsnoiseReset (some ⟨5⟩)) ∧
    decode 0b00000000000000000000000010000010 [.u32 7] = .ok (.mlsnoiseSetHash 7) ∧
    decode 0b00000000000000000000000010000011 [] = .ok .mlsnoiseTick := by decide

theorem test_decode_noise :
    decode 0b00000000000000000000000010010000 [] = .ok .noiseNew ∧
    decode 0b00000000000000000000000010010001 [] = .ok (.noiseReset none) ∧
    decode 0b00000000000000000000000110010001 [.f ⟨5⟩] = .ok (.noiseReset (some ⟨5⟩)) ∧
    decode 0b00000000000000000000000010010010 [.u32 7] = .ok (.noiseSetHash 7) ∧
    decode 0b00000000000000000000000010010011 [] = .ok .noiseTick := by decide

theorem test_decode_sine :
    decode 0b00000000000000000000000010100000 [.f ⟨1⟩] = .ok (.sineNew ⟨1⟩) ∧
    decode 0b00000000000000000000000010100001 [] = .ok (.sineReset none) ∧
    decode 0b00000000000000000000000110100001 [.f ⟨5⟩] = .ok (.sineReset (some ⟨5⟩)) ∧
    decode 0b00000000000000000000000010100010 [.u32 7] = .ok (.sineSetHash 7) ∧
    decode 0b00000000000000000000000010100011 [.s ⟨3⟩] = .ok (.sineTick ⟨3⟩) := by decide

/-- V40: the illegal words (BUTTER.TICK is legal, its mismatch is tested below). -/
theorem test_decode_illegal :
    [0x00001010, 0x000000B0, 0x0000001A, 0x00000074, 0x00000113, 0x00010010, 0x01000010,
      0x00280170, 0x00000000].all (fun w => fieldsOf w == none) = true := by decide

/-- V40, last row: BQ.TICK without its operand. -/
theorem test_decode_wrongOperands :
    decode 0x00000013 [] = .wrongOperands ⟨.bq, .tick, false, 0⟩ ∧
    decode 0x00000013 [.f ⟨0⟩] = .wrongOperands ⟨.bq, .tick, false, 0⟩ := by decide

theorem test_tableWord :
    decodeTableWord 32 0x00000014 = some (.bqSetCoefs ⟨0⟩ ⟨0⟩ ⟨0⟩ ⟨0⟩ ⟨0⟩) ∧
    decodeTableWord 32 0x00000121 = some (.butterReset (some ⟨0⟩)) ∧
    decodeTableWord 32 0x001F0070 = some (.mlsNew 31 0) ∧
    decodeTableWord 32 0x00000074 = none := by decide

/-! ### The step and the faults -/

/-- From power-on, BQ.NEW is the first command a step can run (10_state.md R63). -/
theorem test_step_bqNew :
    seen (step (State.reset.withFetchWord 32 0x10)) =
      some (.bq ⟨⟨zeroF, zeroF, zeroF, zeroF, zeroF⟩, delays0, 0⟩, some (.done [])) := by decide +kernel

/-- From power-on, BQ.TICK raises ILLEGAL_COMMAND (V40). -/
theorem test_step_powerOn_tick :
    seen (step (State.reset.withFetchWord 32 0x13)) =
      some (.none, some (.faulted .illegalCommand 0x13)) := by decide +kernel

/-- V40: BUTTER.TICK to a BQ instance. -/
theorem test_kind_mismatch :
    seen (exec (.butterTick ⟨0⟩ ⟨0⟩) (block (.bq bq1) 0x23)) =
      some (.bq bq1, some (.faulted .illegalCommand 0x23)) := by decide +kernel

/-- A command to a faulted instance is passed over; the next command's instance steps. -/
theorem test_step_passes_faulted :
    (nextCommand [(live .none).raise .widthAbort 0x70, live .none]
      [⟨0, 0x10, []⟩, ⟨1, 0x90, []⟩]).map (fun p => (p.1.inst, p.2.length)) = some (1, 1) := by decide

/-- V24: the Mls faults and their order. -/
theorem test_mls_faults :
    seen (exec (.mlsNew 0 1) (block .none 0x70)) =
      some (.none, some (.faulted .widthAbort 0x70)) ∧
    seen (exec (.mlsNew 3 0) (block .none 0x30070)) =
      some (.none, some (.faulted .mlsStateInvalid 0x30070)) ∧
    seen (exec (.mlsNew 3 8) (block .none 0x30070)) =
      some (.none, some (.faulted .mlsStateInvalid 0x30070)) ∧
    seen (exec (.mlsNew 0 0) (block .none 0x70)) =
      some (.none, some (.faulted .widthAbort 0x70)) := by decide +kernel

/-! ### Commands -/

/-- V1, tick 1. -/
theorem test_bqTick_impulse :
    seen (exec (.bqTick ⟨0x3F800000⟩) (block (.bq bq1))) =
      some (.bq ⟨coefsV1, ⟨⟨0x3FF0000000000000⟩, ⟨0⟩, ⟨0x3FF0000000000000⟩, ⟨0⟩⟩, 0⟩,
        some (.done [.s ⟨0x3F800000⟩])) := by decide +kernel

/-- V1, tick 5: x1 = x2 = 0, y1 = 0, y2 = 0.5 gives -0.125. -/
theorem test_bqTick_feedback :
    seen (exec (.bqTick ⟨0⟩) (block (.bq ⟨coefsV1, ⟨⟨0⟩, ⟨0⟩, ⟨0⟩, ⟨0x3FE0000000000000⟩⟩, 0⟩))) =
      some (.bq ⟨coefsV1, ⟨⟨0⟩, ⟨0⟩, ⟨0xBFC0000000000000⟩, ⟨0⟩⟩, 0⟩, some (.done [.s ⟨0xBE000000⟩])) := by
  decide +kernel

/-- V5, step 6: the new coefficients meet the kept delay registers. -/
theorem test_bqSetCoefs :
    seen (exec (.bqSetCoefs ⟨0⟩ ⟨0⟩ ⟨0⟩ ⟨0⟩ ⟨0x3FF0000000000000⟩) (block (.bq ⟨coefsV1, ⟨⟨2⟩, ⟨1⟩, ⟨3⟩, ⟨4⟩⟩, 6⟩))) =
      some (.bq ⟨⟨⟨0⟩, ⟨0⟩, ⟨0⟩, ⟨0⟩, ⟨0x3FF0000000000000⟩⟩, ⟨⟨2⟩, ⟨1⟩, ⟨3⟩, ⟨4⟩⟩, 6⟩, some (.done [])) := by
  decide +kernel

/-- V2. -/
theorem test_bqReset :
    seen (exec (.bqReset (some ⟨5⟩)) (block (.bq ⟨coefsV1, ⟨⟨2⟩, ⟨1⟩, ⟨3⟩, ⟨4⟩⟩, 6⟩))) =
      some (.bq ⟨coefsV1, delays0, 6⟩, some (.done [])) := by decide +kernel

/-- V9. -/
theorem test_bqSetHash :
    seen (exec (.bqSetHash 7) (block (.bq bq1))) =
      some (.bq { bq1 with hash := 7 }, some (.done [])) := by decide +kernel

/-- V4: with zero coefficients, -1 gives +0, not -0; R173 on a negative X1 and X2 gives -0 (log 28). -/
theorem test_bqTick_zero_sign :
    (biquadStep .default (fun _ => default) ⟨zeroF, zeroF, zeroF, zeroF, zeroF⟩ delays0
      ⟨0xBF800000⟩).2 = zeroF ∧
    (biquadStep .default (fun _ => default) ⟨zeroF, zeroF, zeroF, zeroF, zeroF⟩
      ⟨⟨0xBFF0000000000000⟩, ⟨0xBFF0000000000000⟩, zeroF, zeroF⟩ ⟨0xBF800000⟩).2 =
      ⟨0x8000000000000000⟩ := by decide +kernel

/-- A block whose F is binary32: V1, tick 1, with the coefficients as binary32 words. -/
theorem test_bqTick_binary32 :
    seen (exec (.bqTick ⟨0x3F800000⟩) { block (.bq ⟨⟨⟨0xBF000000⟩, ⟨0x3E800000⟩, ⟨0x3F800000⟩,
        ⟨0x3F000000⟩, ⟨0x3E800000⟩⟩, delays0, 0⟩) with
          params := { Params.default with calcFmt := .binary32 } }) =
      some (.bq ⟨⟨⟨0xBF000000⟩, ⟨0x3E800000⟩, ⟨0x3F800000⟩, ⟨0x3F000000⟩, ⟨0x3E800000⟩⟩,
        ⟨⟨0x3F800000⟩, zeroF, ⟨0x3F800000⟩, zeroF⟩, 0⟩, some (.done [.s ⟨0x3F800000⟩])) := by
  decide +kernel

/-- R362: a legal word with the wrong operands has no move, on an instance of any kind; so has an operand
word wider than its format. -/
theorem test_wrongOperands :
    perform ⟨0, 0x13, []⟩ (block (.bq bq1)) = .refused .wrongOperands ∧
    perform ⟨0, 0x13, []⟩ (block .none) = .refused .wrongOperands ∧
    perform ⟨0, 0x13, [.s ⟨2 ^ 32⟩]⟩ (block (.bq bq1)) = .refused .wrongOperands := ⟨rfl, rfl, rfl⟩

/-- R402: the observation is the result words; a SETHASH adds none. -/
theorem test_observation :
    State.observation { block .none with insts :=
      [{ live .none with outcomes := [.done [.s ⟨2⟩], .done [], .done [.f ⟨1⟩, .f ⟨3⟩]] }] } =
      [[.f ⟨1⟩, .f ⟨3⟩, .s ⟨2⟩]] := by decide

/-- V7: 1e300 overflows in S and stays finite in Y1. -/
theorem test_toS_overflow : toS .default default ⟨0x7E37E43C8800759C⟩ = ⟨0x7F800000⟩ := by decide +kernel

/-- V11, row 2: 1000 equals the key, so the coefficients of V10 are used as they are. -/
theorem test_butterTick_same_key :
    (seen (exec (.butterTick ⟨0x3F800000⟩ ⟨0x447A0000⟩) (block (.butter butter1)))).map (·.2) =
      some (some (.done [.s ⟨0x3B96DD23⟩])) := by decide +kernel

/-- V11, row 4: 2000 differs from the key. -/
theorem test_butterTick_new_key :
    feq .binary64 (toF .default default ⟨0x447A0000⟩) butter1.cutoff = true ∧
      feq .binary64 (toF .default default ⟨0x44FA0000⟩) butter1.cutoff = false := by decide +kernel

/-- R211: without a rate the coefficients stay. -/
theorem test_butterReset :
    seen (exec (.butterReset none) (block (.butter { butter1 with delays := ⟨⟨1⟩, ⟨2⟩, ⟨3⟩, ⟨4⟩⟩ }))) =
      some (.butter butter1, some (.done [])) := by decide +kernel

/-- R219: without a rate the coefficients stay. -/
theorem test_resonReset :
    seen (exec (.resonReset none) (block (.reson { reson1 with delays := ⟨⟨1⟩, ⟨2⟩, ⟨3⟩, ⟨4⟩⟩ }))) =
      some (.reson reson1, some (.done [])) := by decide +kernel

/-- R221: equal keys, so the recurrence alone acts. -/
theorem test_resonTick_same_key :
    (seen (exec (.resonTick ⟨0x3F800000⟩ ⟨0x447A0000⟩ ⟨0x42C80000⟩) (block (.reson reson1)))).map (·.2) =
      some (some (.done [.s ⟨0x3B96DD23⟩])) := by decide +kernel

/-- V13, row 2, and row 6 with VALUE = -0.5: COEFF = 1 holds VALUE. -/
theorem test_lowpoleTick :
    seen (exec (.lowpoleTick ⟨0x3F800000⟩ ⟨0⟩) (block (.lowpole lowpole1))) =
      some (.lowpole lowpole1, some (.done [.s ⟨0⟩])) ∧
    (seen (exec (.lowpoleTick ⟨0x3F800000⟩ ⟨0⟩)
      (block (.lowpole { lowpole1 with value := ⟨0xBFE0000000000000⟩ })))).map (·.2) =
      some (some (.done [.s ⟨0xBF000000⟩])) := by decide +kernel

/-- P5, step 7: feq(+0, -0) is true, so CUTOFF stays -0. -/
theorem test_lowpoleTick_zero_key :
    seen (exec (.lowpoleTick ⟨0x3F800000⟩ ⟨0⟩)
      (block (.lowpole { lowpole1 with cutoff := ⟨0x8000000000000000⟩ }))) =
      some (.lowpole { lowpole1 with cutoff := ⟨0x8000000000000000⟩ }, some (.done [.s ⟨0⟩])) := by
  decide +kernel

/-- V10: DC_COEFF(48000, 0) = 1, and P7, step 6. -/
theorem test_dcblockReset :
    seen (exec (.dcblockReset none) (block (.dcblock { dcblock1 with x1 := ⟨1⟩, y1 := ⟨2⟩ }))) =
      some (.dcblock dcblock1, some (.done [])) := by decide +kernel

/-- V14: 0.5 after 1, 1 gives 0.5. -/
theorem test_dcblockTick :
    seen (exec (.dcblockTick ⟨0x3F000000⟩) (block (.dcblock
      { dcblock1 with x1 := ⟨0x3FF0000000000000⟩, y1 := ⟨0x3FF0000000000000⟩ }))) =
      some (.dcblock { dcblock1 with x1 := ⟨0x3FE0000000000000⟩, y1 := ⟨0x3FE0000000000000⟩ },
        some (.done [.s ⟨0x3F000000⟩])) := by decide +kernel

/-- V10: DC_COEFF(44100, 10) = 0.9985752414269434. -/
theorem test_dcCoeff :
    dcCoeff .binary64 (fun _ => default) ⟨0x40E5888000000000⟩ ⟨0x4024000000000000⟩ = ⟨0x3FEFF4541090C4D3⟩ := by
  decide +kernel

/-- V15: DECLICK.NEW 4.0, 1.0. -/
theorem test_declickNew :
    seen (exec (.declickNew ⟨0x4010000000000000⟩ ⟨0x3FF0000000000000⟩) (block .none)) =
      some (.declick ⟨⟨0x3FD0000000000000⟩, ⟨0x3FF0000000000000⟩, ⟨0⟩, 0⟩, some (.done [])) := by
  decide +kernel

/-- V15, tick 2, and past the window a NaN passes bit for bit. -/
theorem test_declickTick :
    seen (exec (.declickTick ⟨0x3F800000⟩) (block (.declick declick1))) =
      some (.declick { declick1 with t := ⟨0x3FE0000000000000⟩ }, some (.done [.s ⟨0x3D486800⟩])) ∧
    seen (exec (.declickTick ⟨0x7F812345⟩) (block (.declick { declick1 with t := ⟨0x3FF0000000000000⟩ }))) =
      some (.declick { declick1 with t := ⟨0x3FF0000000000000⟩ }, some (.done [.s ⟨0x7F812345⟩])) := by
  decide +kernel

/-- V15: the first tick of a negative input is -0. -/
theorem test_declickTick_first :
    (seen (exec (.declickTick ⟨0xC0000000⟩) (block (.declick { declick1 with t := ⟨0⟩ })))).map (·.2) =
      some (some (.done [.s ⟨0x80000000⟩])) := by decide +kernel

/-- V20: the states 1, 3, 7, 6, 5, 2, 4, 1 and the bits of 7 and 5. -/
theorem test_mlsNext :
    [1, 3, 7, 6, 5, 2, 4].map (mlsNext Params.default.mlsPoly 3) = [3, 7, 6, 5, 2, 4, 1] ∧
    [1, 3, 7, 5, 2].map (mlsOut 3) = [0, 0, 1, 1, 0] := by decide +kernel

/-- V23: width 31 and width 8. -/
theorem test_mlsNext_widths :
    [1, 2, 4, 9, 0x12, 0x24].map (mlsNext Params.default.mlsPoly 31) = [2, 4, 9, 0x12, 0x24, 0x49] ∧
    [1, 2, 5, 0xB, 0x16, 0x2C].map (mlsNext Params.default.mlsPoly 8) = [2, 5, 0xB, 0x16, 0x2C, 0x58] := by
  decide +kernel

/-- V22. -/
theorem test_mlsSeed :
    mlsSeed 3 10 = 4 ∧ mlsSeed 3 7 = 1 ∧ mlsSeed 31 0xFFFFFFFF = 2 ∧ mlsSeed 31 0x7FFFFFFF = 1 ∧
      mlsSeed 1 12345 = 1 ∧ mlsSeed 16 65535 = 1 := by decide +kernel

/-- V25. -/
theorem test_mls_queries :
    seen (exec .mlsValue (block (.mls ⟨3, 7⟩))) = some (.mls ⟨3, 7⟩, some (.done [.u32 1])) ∧
    seen (exec .mlsState (block (.mls ⟨3, 6⟩))) = some (.mls ⟨3, 6⟩, some (.done [.u32 6])) ∧
    seen (exec (.mlsNew 3 7) (block (.bq bq1))) = some (.mls ⟨3, 7⟩, some (.done [])) := by
  decide +kernel

/-- V30: with hash 10, RESET gives S = 4, whose sample is +1 before the advance to 1. -/
theorem test_mlsnoise :
    seen (exec (.mlsnoiseReset none) (block (.mlsnoise mlsnoise1))) =
      some (.mlsnoise ⟨3, 4, 10⟩, some (.done [])) ∧
    seen (exec .mlsnoiseTick (block (.mlsnoise ⟨3, 4, 10⟩))) =
      some (.mlsnoise ⟨3, 1, 10⟩, some (.done [.s ⟨0x3F800000⟩])) ∧
    seen (exec .mlsnoiseTick (block (.mlsnoise ⟨3, 1, 10⟩))) =
      some (.mlsnoise ⟨3, 3, 10⟩, some (.done [.s ⟨0xBF800000⟩])) := by decide +kernel

/-- V31: the first tick from X = 0, and RESET from the hash 1. -/
theorem test_noise :
    seen (exec .noiseTick (block (.noise noise1))) =
      some (.noise ⟨0x14057B7EF767814F, 1⟩, some (.done [.s ⟨0xBF57F520⟩])) ∧
    seen (exec (.noiseReset none) (block (.noise noise1))) =
      some (.noise ⟨1, 1⟩, some (.done [])) := by decide +kernel

/-- V32: the sample map at its extremes. -/
theorem test_lcgSample :
    lcgSample .default (fun _ => default) 0 = ⟨0xBF800000⟩ ∧
    lcgSample .default (fun _ => default) (2 ^ 63) = ⟨0⟩ ∧
    lcgSample .default (fun _ => default) 0xFFFFFFFFFFFFFFFF = ⟨0x3F7FFFE0⟩ := by decide +kernel

/-- V35: RESET from the hash 0x40000000 gives PHASE = 0.25, and SINE.NEW 4.0 gives DT = 0.25. -/
theorem test_sine :
    seen (exec (.sineReset none) (block (.sine sine1))) =
      some (.sine { sine1 with phase := ⟨0x3FD0000000000000⟩ }, some (.done [])) ∧
    seen (exec (.sineNew ⟨0x4010000000000000⟩) (block .none)) =
      some (.sine ⟨⟨0x3FD0000000000000⟩, ⟨0⟩, 0⟩, some (.done [])) := by decide +kernel

/-- V35, tick 1: PHASE becomes 0.25 before the sine is taken. -/
theorem test_sineTick_phase :
    (seen (exec (.sineTick ⟨0x3F800000⟩) (block (.sine sine1)))).map (·.1) =
      some (.sine { sine1 with phase := ⟨0x3FD0000000000000⟩ }) := by decide +kernel

/-- SQRT2_F, TAU_F and PI_F as words: binary64, and PI_F in binary32 and binary128. -/
theorem test_constants :
    sqrt2F .binary64 = ⟨0x3FF6A09E667F3BCD⟩ ∧ tauF .binary64 = ⟨0x401921FB54442D18⟩ ∧
    piF .binary64 = ⟨0x400921FB54442D18⟩ ∧ piF .binary32 = ⟨0x40490FDB⟩ ∧
    piF .binary128 = ⟨0x4000921FB54442D18469898CC51701B8⟩ := by decide +kernel

/-- A NaN result is quiet, whatever the draw: inf - inf (00_scope.md R17, R18). -/
theorem test_nan_is_quiet :
    fsub .binary64 ⟨true, 2 ^ 60 + 5⟩ ⟨0x7FF0000000000000⟩ ⟨0x7FF0000000000000⟩ = ⟨0xFFF8000000000005⟩ := by
  decide +kernel

/-! ### Assembler lines -/

/-- P1 line 2, P2 line 1, P4 line 4, P5 lines 4 and 5, P6 line 6. -/
theorem test_assemble :
    assemble .default default "BQ.SETCOEFS" [.decimal true 5 10, .decimal false 25 100, .decimal false 10 10,
      .decimal false 5 10, .decimal false 25 100] =
      some (0x00000014, [.f ⟨0xBFE0000000000000⟩, .f ⟨0x3FD0000000000000⟩, .f ⟨0x3FF0000000000000⟩,
        .f ⟨0x3FE0000000000000⟩, .f ⟨0x3FD0000000000000⟩]) ∧
    assemble .default default "MLSNOISE.NEW" [.int 3] = some (0x00030080, []) ∧
    assemble .default default "DECLICK.RESET" [.decimal false 20 10] =
      some (0x00000161, [.f ⟨0x4000000000000000⟩]) ∧
    assemble .default default "LOWPOLE.TICK" [.decimal true 5 10, .inf false] =
      some (0x00000043, [.s ⟨0xBF000000⟩, .s ⟨0x7F800000⟩]) ∧
    assemble .default default "LOWPOLE.TICK" [.decimal false 10 10, .decimal true 0 10] =
      some (0x00000043, [.s ⟨0x3F800000⟩, .s ⟨0x80000000⟩]) ∧
    assemble .default default "MLS.NEWSEED" [.int 32, .int 5] = some (0x00200079, [.u32 5]) := by
  decide +kernel

/-! ### Witnesses: the hypotheses of each statement can be met -/

/-- A faulted instance. -/
def dead : Inst := (live .none).raise .illegalCommand 0x13

theorem witness_StepPerformsDeliveredCommand :
    (nextCommand [live .none] [⟨0, 0x10, []⟩] = some (⟨0, 0x10, []⟩, []) ∧
      decode 0x10 [] = .ok .bqNew ∧ operandsFit .default [] = true ∧
      operandsFit .default [.f ⟨2 ^ 64 - 1⟩, .s ⟨2 ^ 32 - 1⟩] = true) ∧
    (∀ n, [live .none][(⟨0, 0x10, []⟩ : Command).inst]? = some n → n.faultCause = .none) ∧
    ([dead][(⟨0, 0x10, []⟩ : Command).inst]? = some dead ∧ dead.faultCause ≠ .none) ∧
    State.reset.pending = [] := by
  refine ⟨by decide, ?_, by decide, by decide⟩
  intro n hn
  have : live .none = n := by simpa using hn
  rw [← this]; rfl

theorem witness_FetchWordRunsDecodedCommand :
    (∃ n ∈ State.reset.insts, n.faultCause = .none) ∧ 
      decodeTable State.reset.params 32 0x10 = some .bqNew := by decide

theorem witness_DecodeEncodeRoundTrip :
    (Instr.mlsNew 0 0).WellFormed ∧ (Instr.mlsNew 255 0).WellFormed ∧ Instr.noiseTick.WellFormed := by
  decide

theorem witness_EncodeDecodeRoundTrip :
    decode 0x00FF0080 [] = .ok (.mlsnoiseNew 255) ∧ decode 0x00000083 [] = .ok .mlsnoiseTick := by decide

theorem witness_WordsThatAreNoCommand :
    (fieldsOf 0x00000113 = none ∧ (block (.bq bq1)).insts[0]? = some (live (.bq bq1)) ∧
      (live (.bq bq1)).faultCause = .none) ∧
    Live (block (.bq bq1)) (live (.bq bq1)) ∧ Live (block .none) (live .none) ∧
    decode 0x13 [] = .wrongOperands ⟨.bq, .tick, false, 0⟩ ∧
    (decode 0x13 [.s ⟨2 ^ 32⟩] = .ok (.bqTick ⟨2 ^ 32⟩) ∧
      operandsFit Params.default [.s ⟨2 ^ 32⟩] = false) := by decide

theorem witness_KindMismatchRaisesIllegalCommand :
    Live (block .none) (live .none) ∧ Op.constructs (Instr.bqTick ⟨0⟩).fields.op = false ∧
      (live .none).node.kind ≠ (Instr.bqTick ⟨0⟩).fields.unit := by decide

theorem witness_FaultedInstanceHasNoStep :
    (⟨.default, [dead], [⟨0, 0x10, []⟩], ⟨0, 0⟩⟩ : State).target? = some dead ∧ dead.faultCause ≠ .none ∧
      (⟨.default, [dead], [⟨0, 0x10, []⟩], ⟨0, 0⟩⟩ : State).pending ≠ [] := by decide

theorem witness_FaultedInstanceHasNoStep_pending :
    ∀ c ∈ (⟨.default, [dead], [⟨0, 0x10, []⟩], ⟨0, 0⟩⟩ : State).pending,
      ∃ n, [dead][c.inst]? = some n ∧ n.faultCause ≠ .none := by
  intro c hc
  have h : c = ⟨0, 0x10, []⟩ := by simpa using hc
  exact ⟨dead, by rw [h]; rfl, by decide⟩

theorem witness_EveryCommandToLiveInstanceCompletes : Live (block .none) (live .none) := by decide

theorem witness_CommandLeavesOtherInstances :
    ∃ t, exec .bqNew State.reset = .next t ∧ (0 : Nat) ≠ 1 ∧
      State.reset.params = State.reset.params ∧ State.reset.cur = State.reset.cur ∧
      State.reset.target? = State.reset.target? :=
  ⟨_, rfl, by decide, rfl, rfl, rfl⟩

theorem witness_FaultChangesOnlyFaultRegisters :
    ∃ t n', exec (.bqTick ⟨0⟩) (block .none 0x13) = .next t ∧
      (block .none 0x13).target? = some (live .none) ∧ t.target? = some n' ∧
      n'.faultCause ≠ .none :=
  ⟨_, _, rfl, rfl, rfl, by decide⟩

/-- Two instances, the second faulted, and a command for the first. -/
def oneDead : State := ⟨.default, [live .none, dead], [⟨0, 0x10, []⟩], ⟨0, 0⟩⟩

theorem witness_FaultedInstanceNeverChanges :
    ∃ t, step oneDead = .next t ∧ oneDead.insts[1]? = some dead ∧ dead.faultCause ≠ .none :=
  ⟨_, rfl, rfl, by decide⟩

theorem witness_CommandsToDifferentInstancesCommute :
    ∃ sa sb, (0 : Nat) ≠ 1 ∧
      perform ⟨0, 0x10, []⟩ (State.reset.deliver ⟨0, 0x10, []⟩ State.reset.pending) = .next sa ∧
      perform ⟨1, 0x90, []⟩ (State.reset.deliver ⟨1, 0x90, []⟩ State.reset.pending) = .next sb :=
  ⟨_, _, by decide, rfl, rfl⟩

theorem witness_PowerOnState :
    Inst.powerOn ∈ (State.powerOn .default 1).insts ∧ (State.powerOn .default 1).target? = some Inst.powerOn ∧
      Op.constructs Instr.bqNew.fields.op = true ∧
      Op.constructs Instr.noiseTick.fields.op = false := by decide

theorem witness_BqNewZeroesRegisters : Live (block (.mls mls1)) (live (.mls mls1)) := by decide

theorem witness_BqSetCoefsAndReset :
    Live (block (.bq bq1)) (live (.bq bq1)) ∧ (live (.bq bq1)).node = .bq bq1 := by decide

theorem witness_BqTickRunsDirectFormOne :
    Live (block (.bq bq1)) (live (.bq bq1)) ∧
      (live (.bq bq1)).node = .bq ⟨coefsV1, ⟨zeroF, zeroF, zeroF, zeroF⟩, 0⟩ := by decide

theorem witness_ResponsesWriteNoRegister :
    (Live (block (.bq bq1)) (live (.bq bq1)) ∧ (live (.bq bq1)).node = .bq bq1) ∧
    (Live (block (.butter butter1)) (live (.butter butter1)) ∧
      (live (.butter butter1)).node = .butter butter1) ∧
    (Live (block (.reson reson1)) (live (.reson reson1)) ∧
      (live (.reson reson1)).node = .reson reson1) := by decide

/-- A finite value is below 2 to a power of the format. -/
theorem fin_lt {f : Fmt} {w : FWord} {s : Bool} {m : Nat} (h : valF f w = .fin s m) :
    m < 2 ^ (f.mb + 1 + 2 ^ f.eb) := by
  simp only [valF, Fp.ofBits] at h
  have hf : w.bits % 2 ^ f.mb < 2 ^ f.mb := Nat.mod_lt _ (by positivity)
  have he : (w.bits >>> f.mb) % 2 ^ f.eb < 2 ^ f.eb := Nat.mod_lt _ (by positivity)
  have hp : 2 ^ f.mb ≤ 2 ^ (f.mb + 1 + 2 ^ f.eb) := Nat.pow_le_pow_right (by omega) (by omega)
  split at h
  · split at h <;> cases h
  · split at h <;> injection h with _ h
    · omega
    · rw [← h, Nat.shiftLeft_eq, Nat.pow_add _ (f.mb + 1)]
      refine Nat.mul_lt_mul_of_lt_of_le (by rw [Nat.pow_succ]; omega)
        (Nat.pow_le_pow_right (by omega) (by omega)) (by positivity)

theorem abs_realF_le {f : Fmt} {w : FWord} (h : finiteF f w) :
    |realF f w| ≤ 2 ^ (f.mb + 1 + 2 ^ f.eb) := by
  obtain ⟨s, m, h⟩ := h
  have hm : (m : ℝ) ≤ 2 ^ (f.mb + 1 + 2 ^ f.eb) := by exact_mod_cast (fin_lt h).le
  have hq : (1 : ℝ) ≤ 2 ^ qexp f := one_le_pow₀ (by norm_num)
  have : |realF f w| = m / 2 ^ qexp f := by
    rw [realF, h, Fp.real, abs_div, abs_mul]
    cases s <;> simp
  rw [this]
  exact (div_le_self (by positivity) hq).trans hm

/-- RESP_FAITHFUL(ε) holds of every block for a great enough ε. -/
theorem respFaithful_exists (f : Fmt) : RespFaithful f (2 * 2 ^ (f.mb + 1 + 2 ^ f.eb)) := by
  intro d c omega _ _ _ _ _ _ _ hr hi
  set re := (fresp f d c omega).1
  set im := (fresp f d c omega).2
  set H := responseOf (realCoefs f c) (realF f omega)
  have h1 : ‖(⟨realF f re, realF f im⟩ : ℂ)‖ ≤ 2 * 2 ^ (f.mb + 1 + 2 ^ f.eb) := by
    have := Complex.norm_le_abs_re_add_abs_im (⟨realF f re, realF f im⟩ : ℂ)
    have := abs_realF_le hr
    have := abs_realF_le hi
    simp only at *
    linarith
  have h2 : (1 : ℝ) ≤ 2 ^ (f.mb + 1 + 2 ^ f.eb) := one_le_pow₀ (by norm_num)
  have h3 := norm_sub_le (⟨realF f re, realF f im⟩ : ℂ) H
  nlinarith [norm_nonneg H]

/-- BQ at DC with the coefficients of V1: 1 - 0.5 + 0.25 is not 0. -/
theorem witness_ResponseOfIsPeriodicAndConjugate :
    Live (block (.bq bq1)) (live (.bq bq1)) ∧ (live (.bq bq1)).node = .bq bq1 ∧
    (∃ ε, RespFaithful .binary64 ε) ∧
    finiteF .binary64 coefsV1.a1 ∧ finiteF .binary64 coefsV1.a2 ∧ finiteF .binary64 coefsV1.b0 ∧
    finiteF .binary64 coefsV1.b1 ∧ finiteF .binary64 coefsV1.b2 ∧ finiteF .binary64 zeroF ∧
    denominator (realCoefs .binary64 coefsV1) (unitDelay (realF .binary64 zeroF)) ≠ 0 := by
  have h1 : valF .binary64 coefsV1.a1 = .fin true (2 ^ 1073) := by decide +kernel
  have h2 : valF .binary64 coefsV1.a2 = .fin false (2 ^ 1072) := by decide +kernel
  have h3 : valF .binary64 coefsV1.b0 = .fin false (2 ^ 1074) := by decide +kernel
  have h4 : valF .binary64 coefsV1.b1 = .fin false (2 ^ 1073) := by decide +kernel
  have h5 : valF .binary64 coefsV1.b2 = .fin false (2 ^ 1072) := by decide +kernel
  have h6 : valF .binary64 zeroF = .fin false 0 := by decide +kernel
  have hq : qexp .binary64 = 1074 := by decide
  refine ⟨by decide, rfl, ⟨_, respFaithful_exists _⟩, ⟨_, _, h1⟩, ⟨_, _, h2⟩, ⟨_, _, h3⟩,
    ⟨_, _, h4⟩, ⟨_, _, h5⟩, ⟨_, _, h6⟩, ?_⟩
  have r1 : realF .binary64 coefsV1.a1 = -(1 / 2) := by
    rw [realF, h1, Fp.real, hq]; push_cast; rw [pow_succ (2 : ℝ) 1073]; simp; field_simp
  have r2 : realF .binary64 coefsV1.a2 = 1 / 4 := by
    rw [realF, h2, Fp.real, hq]; push_cast
    rw [show (2 : ℝ) ^ 1074 = 2 ^ 1072 * 4 by rw [show 1074 = 1072 + 2 from rfl, pow_add]; norm_num]
    simp; field_simp
  have r3 : realF .binary64 zeroF = 0 := by rw [realF, h6, Fp.real]; simp
  simp only [denominator, realCoefs, r1, r2, r3, unitDelay]
  norm_num

theorem witness_SetHashWritesOnlyHash :
    [Node.bq bq1, .butter butter1, .reson reson1, .lowpole lowpole1, .dcblock dcblock1,
      .declick declick1, .mlsnoise mlsnoise1, .noise noise1, .sine sine1].all (fun node =>
      decide (Live (block node) (live node) ∧ (live node).node = node)) = true := by decide

theorem witness_CoefficientFunctionsFollowFormulas :
    B0Form.sqrt = .sqrt ∧ B0Form.linear = .linear := by decide

theorem witness_ButterNewAndReset :
    Live (block (.butter butter1)) (live (.butter butter1)) ∧
      (live (.butter butter1)).node = .butter butter1 := by decide

theorem witness_ButterTickRecomputesLazily :
    Live (block (.butter butter1)) (live (.butter butter1)) ∧
      (live (.butter butter1)).node = .butter butter1 ∧
      feq .binary64 (toF .default default ⟨0x447A0000⟩) butter1.cutoff = true ∧
      feq .binary64 (toF .default default ⟨0x447A0001⟩) butter1.cutoff = false ∧
      feq .binary64 (toF .default default ⟨0x7FC00000⟩) butter1.cutoff = false := by decide +kernel

theorem witness_ResonNewAndReset :
    Live (block (.reson reson1)) (live (.reson reson1)) ∧
      (live (.reson reson1)).node = .reson reson1 := by decide

theorem witness_ResonTickRecomputesLazily :
    Live (block (.reson reson1)) (live (.reson reson1)) ∧
      (live (.reson reson1)).node = .reson reson1 ∧
      feq .binary64 (toF .default default ⟨0x447A0000⟩) reson1.center = true ∧
      feq .binary64 (toF .default default ⟨0x42C80000⟩) reson1.bandwidth = true ∧
      feq .binary64 (toF .default default ⟨0x43480000⟩) reson1.bandwidth = false := by decide +kernel

theorem witness_LowpoleNewAndReset :
    Live (block (.lowpole lowpole1)) (live (.lowpole lowpole1)) ∧
      (live (.lowpole lowpole1)).node = .lowpole lowpole1 := by decide

theorem witness_LowpoleTickRunsOnePole :
    Live (block (.lowpole lowpole1)) (live (.lowpole lowpole1)) ∧
      (live (.lowpole lowpole1)).node = .lowpole lowpole1 ∧
      feq .binary64 (toF .default default ⟨0x80000000⟩) lowpole1.cutoff = true ∧
      feq .binary64 (toF .default default ⟨0x00000001⟩) lowpole1.cutoff = false := by decide +kernel

theorem witness_DcblockNewAndReset :
    Live (block (.dcblock dcblock1)) (live (.dcblock dcblock1)) ∧
      (live (.dcblock dcblock1)).node = .dcblock dcblock1 := by decide

theorem witness_DcblockTickRunsFirstOrder :
    Live (block (.dcblock dcblock1)) (live (.dcblock dcblock1)) ∧
      (live (.dcblock dcblock1)).node = .dcblock dcblock1 := by decide

theorem witness_DeclickNewAndReset :
    Live (block (.declick declick1)) (live (.declick declick1)) ∧
      (live (.declick declick1)).node = .declick declick1 := by decide

/-- T just below DURATION, T equal to it, and a NaN DURATION. -/
theorem witness_DeclickTickFadesThenPasses :
    Live (block (.declick declick1)) (live (.declick declick1)) ∧
      (live (.declick declick1)).node = .declick declick1 ∧
      flt .binary64 ⟨0x3FEFFFFFFFFFFFFF⟩ declick1.duration = true ∧
      flt .binary64 ⟨0x3FF0000000000000⟩ declick1.duration = false ∧
      flt .binary64 ⟨0⟩ ⟨0x7FF8000000000000⟩ = false := by decide +kernel

/-- The widths 0, 1, 31 and 32 and the states 0, 1, 2^31 - 1 and 2^31. -/
theorem witness_MlsNewChecksThenConstructs :
    Live (block .none) (live .none) ∧
    (0 = 0 ∨ 31 < 0) ∧ (32 = 0 ∨ 31 < 32) ∧ ¬ (1 = 0 ∨ 31 < 1) ∧ ¬ (31 = 0 ∨ 31 < 31) ∧
    ((0 : U32).toNat = 0 ∨ 2 ^ 31 ≤ (0 : U32).toNat) ∧
    ((0x80000000 : U32).toNat = 0 ∨ 2 ^ 31 ≤ (0x80000000 : U32).toNat) ∧
    ¬ ((0x7FFFFFFF : U32).toNat = 0 ∨ 2 ^ 31 ≤ (0x7FFFFFFF : U32).toNat) ∧
    ¬ ((1 : U32).toNat = 0 ∨ 2 ^ 1 ≤ (1 : U32).toNat) ∧ 255 < 256 := by decide

theorem witness_SeededConstructionsDeriveState :
    Live (block .none) (live .none) ∧ (0 = 0 ∨ 31 < 0) ∧ (32 = 0 ∨ 31 < 32) ∧
      ¬ (1 = 0 ∨ 31 < 1) ∧ ¬ (31 = 0 ∨ 31 < 31) ∧ 255 < 256 := by decide

theorem witness_MlsNextAndQueries :
    Live (block (.mls mls1)) (live (.mls mls1)) ∧ (live (.mls mls1)).node = .mls mls1 ∧
      1 ≤ mls1.n.toNat ∧ mls1.n.toNat ≤ 31 := by decide

theorem witness_MlsNextShiftsInParity : 1 ≤ 1 ∧ 1 ≤ 31 ∧ 31 ≤ 31 ∧ 31 < 32 := by decide

theorem witness_MlsNextIsBijection :
    ∀ n ∈ List.range' 1 31, (Params.default.mlsPoly n).getLsbD (n - 1) = true := by decide

theorem witness_MlsSequenceHasFullPeriod :
    1 ≤ (0x7FFFFFFF : U32).toNat ∧ (0x7FFFFFFF : U32).toNat < 2 ^ 31 ∧ 1 ≤ (1 : U32).toNat ∧
      (1 : U32).toNat < 2 ^ 1 := by decide

theorem witness_MlsnoiseResetAndTick :
    FormatsOk (block (.mlsnoise mlsnoise1)).params ∧
      Live (block (.mlsnoise mlsnoise1)) (live (.mlsnoise mlsnoise1)) ∧
      (live (.mlsnoise mlsnoise1)).node = .mlsnoise mlsnoise1 ∧
      1 ≤ mlsnoise1.n.toNat ∧ mlsnoise1.n.toNat ≤ 31 := by decide

theorem witness_NoiseNewAndReset :
    Live (block (.noise noise1)) (live (.noise noise1)) ∧
      (live (.noise noise1)).node = .noise noise1 := by decide

theorem witness_NoiseTickReturnsExactSample :
    FormatsOk (block (.noise noise1)).params ∧ Live (block (.noise noise1)) (live (.noise noise1)) ∧
      (live (.noise noise1)).node = .noise noise1 := by decide

theorem witness_SineNewAndReset :
    Live (block (.sine sine1)) (live (.sine sine1)) ∧ (live (.sine sine1)).node = .sine sine1 := by
  decide

theorem witness_SineTickAdvancesThenSamples :
    Live (block (.sine sine1)) (live (.sine sine1)) ∧ (live (.sine sine1)).node = .sine sine1 := by
  decide

/-- The formats a block may have: the defaults, binary32 for both, the widest pair of basic formats, and a
wider interchange format; not a format of another shape, nor S wider than F. -/
theorem test_formats :
    FormatsOk .default ∧ FormatsOk { Params.default with calcFmt := .binary32 } ∧
    FormatsOk { Params.default with calcFmt := .binary128, sampleFmt := .binary128 } ∧
    Interchange ⟨19, 236⟩ ∧ ¬ Interchange ⟨8, 7⟩ ∧
    ¬ FormatsOk { Params.default with sampleFmt := .binary128 } := by decide +kernel

theorem witness_PhaseOfHashIsExact :
    FormatsOk .default ∧ Params.default.phaseMap = .scaled ∧ 31 ≤ Params.default.calcFmt.mb ∧
      Representable Params.default.calcFmt 0 ∧ 0 * 2 ^ 32 ≤ (0 : U32).toNat * 2 ^ qexp .binary64 :=
  ⟨by decide, rfl, by decide, ⟨0, 0, by decide, by decide⟩, by simp⟩

/-- A tie: 2^53 + 1 quanta lies halfway between two values, and goes to the even one; and the overflow
threshold goes to infinity. -/
theorem witness_RoundingIsNearestTiesToEven :
    0 < 1 ∧ Fp.round .binary64 true (2 ^ 53 + 1) 1 = .fin true (2 ^ 53) ∧
      Fp.round .binary64 true (overflow .binary64) 1 = .inf true ∧
      Fp.round .binary64 false (overflow .binary64 - 1) 1 = .inf false ∧
      Fp.round .binary64 false (overflow .binary64 - 2 ^ 2045 + 2 ^ 2044 - 1) 1 =
        .fin false (overflow .binary64 - 2 ^ 2045) := by decide +kernel

theorem witness_ArithmeticFollowsIeee :
    Interchange .binary32 ∧ Interchange .binary64 ∧ Interchange .binary128 ∧ (1 : Nat) ≠ 0 := by
  decide

theorem witness_SquareRootIsCorrectlyRounded :
    Interchange .binary64 ∧ 0 < 1 ∧ 1 < overflow .binary64 ∧
      Fp.sqrt .binary64 (.fin false 1) = .fin false (2 ^ 537) := by decide +kernel

theorem witness_SquareRootIsCorrectlyRounded_representable :
    Representable .binary64 0 := ⟨0, 0, by decide, by decide⟩

theorem witness_ConversionsAreExactWhereTheyCanBe :
    FormatsOk .default ∧ FormatsOk { Params.default with calcFmt := .binary32 } ∧
      (⟨1⟩ : FWord).bits < 2 ^ Fmt.binary64.width ∧ valF .binary64 ⟨1⟩ ≠ .nan ∧
      valS .binary32 ⟨1⟩ = .fin false 1 ∧ valS .binary32 ⟨0xFF800000⟩ = .inf true ∧
      valS .binary32 ⟨0x7F800001⟩ = .nan ∧ valF .binary64 ⟨1⟩ = .fin false 1 ∧
      valF .binary64 ⟨0x7FF0000000000000⟩ = .inf false ∧
      valF .binary64 ⟨0x7FF0000000000001⟩ = .nan := by decide +kernel

theorem witness_ConstantsAreCorrectlyRounded :
    Interchange .binary128 ∧ Fmt.binary32 ∈ [Fmt.binary32, Fmt.binary64] ∧
      Representable .binary64 1 :=
  ⟨by decide, by decide, 1, 0, by decide, by decide⟩

theorem witness_ComparisonsAreQuiet :
    Interchange .binary64 ∧ flt .binary64 ⟨0x8000000000000001⟩ zeroF = true ∧
      valF .binary64 zeroF = .fin false 0 ∧ valF .binary64 ⟨0xFFF0000000000000⟩ = .inf true ∧
      valF .binary64 ⟨0x7FF0000000000000⟩ = .inf false := by decide +kernel

theorem witness_ResonatorHasZerosAtDcAndNyquist :
    Interchange .binary64 ∧ valF .binary64 ⟨0x3FF0000000000000⟩ = .fin false (2 ^ 1074) ∧
      valF .binary64 ⟨0x8000000000000000⟩ = .fin true 0 := by decide +kernel

theorem witness_NanStaysInRecurrenceRegisters :
    FormatsOk .default ∧ isNaNF .binary64 ⟨0x7FF8000000000000⟩ = true ∧
      isNaNF .binary64 ⟨0xFFF0000000000001⟩ = true := by decide +kernel

/-- BQ.SETCOEFS with two different NaNs. -/
theorem witness_NanIdentityIsNeverObserved :
    FormatsOk (block (.bq bq1)).params ∧
    (Instr.bqSetCoefs ⟨0x7FF8000000000000⟩ zeroF zeroF zeroF zeroF).fields =
      (Instr.bqSetCoefs ⟨0xFFF0000000000001⟩ zeroF zeroF zeroF zeroF).fields ∧
    (Instr.bqSetCoefs ⟨0x7FF8000000000000⟩ zeroF zeroF zeroF zeroF).operands.map
        (XferWord.forget .default) =
      (Instr.bqSetCoefs ⟨0xFFF0000000000001⟩ zeroF zeroF zeroF zeroF).operands.map
        (XferWord.forget .default) ∧
    (block (.bq { bq1 with delays := ⟨⟨0x7FF8000000000000⟩, zeroF, zeroF, zeroF⟩ })).forget =
      (block (.bq { bq1 with delays := ⟨⟨0xFFF0000000000001⟩, zeroF, zeroF, zeroF⟩ })).forget ∧
    (seen (exec (.bqSetCoefs ⟨0x7FF8000000000000⟩ zeroF zeroF zeroF zeroF)
      (block (.bq bq1)))).isSome = true := by decide +kernel

theorem witness_RepeatedCommandIsOnce :
    FormatsOk (block (.noise noise1)).params ∧
    ∃ t u l m n, (Instr.noiseReset none).fields.op ∈ [Op.reset, .setHash, .response, .value, .state] ∧
      exec (.noiseReset none) (block (.noise noise1)) = .next t ∧
      exec (.noiseReset none) t = .next u ∧ (block (.noise noise1)).target? = some l ∧
      t.target? = some m ∧ u.target? = some n :=
  ⟨by decide, _, _, _, _, _, by decide, rfl, rfl, rfl, rfl, rfl⟩

theorem witness_RepeatedCommandIsOnce_query :
    ∃ t u l m n, Instr.mlsState.fields.op ∈ [Op.response, .value, .state] ∧
      exec .mlsState (block (.mls mls1)) = .next t ∧ exec .mlsState t = .next u ∧
      (block (.mls mls1)).target? = some l ∧ t.target? = some m ∧ u.target? = some n :=
  ⟨_, _, _, _, _, by decide, rfl, rfl, rfl, rfl, rfl⟩

/-- The first instance holds `node`, and command word `w` is pending for it. -/
def waiting (node : Node) (w : BitVec 32) : State := ⟨.default, [live node], [⟨0, w, []⟩], ⟨0, 0⟩⟩

theorem all_waiting {P : Inst → Prop} {node : Node} {w : BitVec 32} (h : P (live node)) :
    (waiting node w).All P := by
  intro n hn
  rw [show n = live node by simpa [waiting] using hn]
  exact h

theorem witness_MlsStateStaysInRange :
    TapsOk (waiting (.mls mls1) 0x76).params ∧
      (waiting (.mls mls1) 0x76).All (fun n => n.node.MlsOk) ∧
      ∃ t, step (waiting (.mls mls1) 0x76) = .next t :=
  ⟨by decide, all_waiting (by decide : MlsInRange mls1.n mls1.s), _, rfl⟩

/-- A DCBLOCK instance whose COEFF is the function of its SR and CUTOFF. -/
def dcblockCurrent : DcblockRegs :=
  { dcblock1 with coeff := dcCoeff .binary64 (fun _ => default) dcblock1.sr dcblock1.cutoff }

theorem witness_CoefficientsStayCurrent :
    (waiting (.dcblock dcblockCurrent) 0x51).All (fun n => n.node.CoefsCurrent .default) ∧
      ∃ t, step (waiting (.dcblock dcblockCurrent) 0x51) = .next t :=
  ⟨all_waiting ⟨fun _ => default, rfl⟩, _, rfl⟩

theorem witness_WordsFitTheirFormats :
    FormatsOk (waiting (.mls mls1) 0x76).params ∧
      (waiting (.dcblock dcblock1) 0x51).All (Inst.Fits .default) ∧
      ∃ t, step (waiting (.dcblock dcblock1) 0x51) = .next t :=
  ⟨by decide, all_waiting ⟨by decide, fun _ h => by simp [live, Inst.powerOn] at h⟩, _, rfl⟩

theorem witness_FaultRegistersMatchReports :
    oneDead.All Inst.FaultOk ∧ ∃ t, step oneDead = .next t := by
  refine ⟨?_, _, rfl⟩
  intro n hn
  have h : n = live .none ∨ n = dead := by simpa [oneDead] using hn
  rcases h with rfl | rfl
  · exact .inl ⟨rfl, rfl, by simp [live, Inst.powerOn]⟩
  · exact .inr ⟨by decide, [], rfl, by simp⟩

end Sys2Proof.Tests
end

section
/-! SUPPORT. Proofs of the statements about the arithmetic, the identity of NaNs and repeated commands:
the rounding of a rational, the values of a format and their words, the operations, the comparisons, the
root, the constants; then what no command can tell of a NaN, and what a repeated command leaves. -/

-- Elaborating one declaration at a time keeps this text within the memory the check allows.
set_option Elab.async false

/-! ### Rounding

The magnitude that `Fp.round` gives is a multiple of the spacing of the format, within half of it of the
exact quotient; that alone makes it a nearest value of the format (00_scope.md R15). -/

namespace Sys2Proof.Machine

/-! ### The integer nearest to a quotient -/

theorem nearestEven_dist (n : ℕ) {D : ℕ} (hD : 0 < D) :
    2 * |(nearestEven n D : ℤ) * D - n| ≤ D ∧
      (2 * |(nearestEven n D : ℤ) * D - n| = D → nearestEven n D % 2 = 0) := by
  have hdm : (D : ℤ) * (n / D : ℕ) + (n % D : ℕ) = n := by exact_mod_cast Nat.div_add_mod n D
  have hlt : n % D < D := Nat.mod_lt n hD
  simp only [nearestEven]
  generalize n / D = k at *
  generalize n % D = r at *
  split
  case isTrue hup =>
    have hdist : ((k + 1 : ℕ) : ℤ) * D - n = (D - r : ℕ) := by
      rw [Nat.cast_sub hlt.le]
      push_cast
      linarith
    rw [hdist, Nat.abs_cast]
    omega
  case isFalse hdown =>
    have hdist : (k : ℤ) * D - n = -(r : ℕ) := by linarith
    rw [hdist, abs_neg, Nat.abs_cast]
    omega

theorem nearestEven_le (n D : ℕ) : nearestEven n D ≤ n / D + 1 := by
  simp only [nearestEven]
  split <;> omega

/-- The distance of `nearestEven` from the quotient, as real numbers: at most half the unit `g`, and
half of it only at an even integer. -/
theorem nearestEven_real_dist (n : ℕ) {d g : ℕ} (hd : 0 < d) (hg : 0 < g) :
    |((nearestEven n (d * g) * g : ℕ) : ℝ) - n / d| ≤ g / 2 ∧
      (|((nearestEven n (d * g) * g : ℕ) : ℝ) - n / d| = g / 2 → nearestEven n (d * g) % 2 = 0) := by
  obtain ⟨hle, heven⟩ := nearestEven_dist n (Nat.mul_pos hd hg)
  generalize nearestEven n (d * g) = k at *
  have hd' : (0 : ℝ) < d := by exact_mod_cast hd
  have hscale : ((2 * |(k : ℤ) * (d * g : ℕ) - n| : ℤ) : ℝ) =
      2 * d * |((k * g : ℕ) : ℝ) - n / d| := by
    have : ((k * g : ℕ) : ℝ) - n / d = ((k : ℝ) * (d * g) - n) / d := by
      push_cast
      field_simp
    rw [this, abs_div, abs_of_pos hd']
    push_cast
    field_simp
  constructor
  · have h : ((2 * |(k : ℤ) * (d * g : ℕ) - n| : ℤ) : ℝ) ≤ ((d * g : ℕ) : ℤ) := by
      exact_mod_cast hle
    rw [hscale] at h
    push_cast at h ⊢
    nlinarith
  · intro heq
    apply heven
    have h : ((2 * |(k : ℤ) * (d * g : ℕ) - n| : ℤ) : ℝ) = ((d * g : ℕ) : ℤ) := by
      rw [hscale, heq]
      push_cast
      ring
    exact_mod_cast h

/-! ### The spacing of the values of a format -/

/-- The exponent of the spacing at a magnitude. -/
def spacingExp (f : Fmt) (q : ℕ) : ℕ := Nat.log2 q - f.mb

theorem spacing_eq_two_pow (f : Fmt) (q : ℕ) : spacing f q = 2 ^ spacingExp f q := by
  simp only [spacing, spacingExp]
  split
  case isTrue h =>
    have : Nat.log2 q ≤ f.mb := by
      rcases Nat.eq_zero_or_pos q with rfl | hq
      · simp
      · exact Nat.lt_succ_iff.mp ((Nat.log2_lt hq.ne').mpr h)
    simp [Nat.sub_eq_zero_of_le this]
  case isFalse => rfl

theorem lt_two_pow_spacingExp (f : Fmt) (q : ℕ) : q < 2 ^ (f.mb + 1 + spacingExp f q) := by
  refine Nat.lt_log2_self.trans_le (Nat.pow_le_pow_right (by norm_num) ?_)
  simp only [spacingExp]
  omega

theorem two_pow_le_of_spacingExp (f : Fmt) (q : ℕ) :
    spacingExp f q = 0 ∨ 2 ^ (f.mb + spacingExp f q) ≤ q := by
  rcases Nat.eq_zero_or_pos (spacingExp f q) with h | h
  · exact .inl h
  · refine .inr ?_
    have hlog : f.mb + spacingExp f q = Nat.log2 q := by simp only [spacingExp] at *; omega
    have hq : q ≠ 0 := by rintro rfl; simp [spacingExp] at h
    exact hlog ▸ Nat.log2_self_le hq

/-! ### Representable magnitudes -/

theorem representable_zero (f : Fmt) : Representable f 0 := ⟨0, 0, by positivity, by simp⟩

theorem representable_two_pow (f : Fmt) (t : ℕ) : Representable f (2 ^ t) :=
  ⟨1, t, Nat.one_lt_two_pow (by omega), by simp⟩

theorem representable_mul_two_pow {f : Fmt} {m : ℕ} (h : Representable f m) (t : ℕ) :
    Representable f (m * 2 ^ t) := by
  obtain ⟨k, e, hk, rfl⟩ := h
  exact ⟨k, e + t, hk, by rw [pow_add, mul_assoc]⟩

theorem representable_of_le {f : Fmt} {k : ℕ} (hk : k ≤ 2 ^ (f.mb + 1)) (t : ℕ) :
    Representable f (k * 2 ^ t) := by
  rcases hk.lt_or_eq with h | rfl
  · exact ⟨k, t, h, rfl⟩
  · exact representable_mul_two_pow (representable_two_pow f _) t

/-- A representable magnitude is a multiple of `2^t` or lies below the magnitudes with that spacing. -/
theorem representable_dvd_or_lt {f : Fmt} {q : ℕ} (h : Representable f q) (t : ℕ) :
    2 ^ t ∣ q ∨ 1 ≤ t ∧ q < 2 ^ (f.mb + t) := by
  obtain ⟨k, e, hk, rfl⟩ := h
  rcases le_or_gt t e with hte | het
  · exact .inl (Dvd.dvd.mul_left (pow_dvd_pow 2 hte) k)
  · refine .inr ⟨by omega, ?_⟩
    calc k * 2 ^ e < 2 ^ (f.mb + 1) * 2 ^ e := Nat.mul_lt_mul_of_pos_right hk (by positivity)
      _ = 2 ^ (f.mb + 1 + e) := (pow_add ..).symm
      _ ≤ 2 ^ (f.mb + t) := Nat.pow_le_pow_right (by norm_num) (by omega)

/-- Two different multiples of `g` are at least `g` apart. -/
theorem le_abs_sub_of_dvd {g m q : ℕ} (hm : g ∣ m) (hq : g ∣ q) (hne : q ≠ m) :
    (g : ℝ) ≤ |(q : ℝ) - m| := by
  have hdvd : (g : ℤ) ∣ (q : ℤ) - m :=
    dvd_sub (Int.natCast_dvd_natCast.mpr hq) (Int.natCast_dvd_natCast.mpr hm)
  have hpos : 0 < |(q : ℤ) - m| := abs_pos.mpr (sub_ne_zero.mpr (by exact_mod_cast hne))
  have := Int.le_of_dvd hpos ((dvd_abs _ _).mpr hdvd)
  exact_mod_cast this

/-- A multiple of the spacing within half of it of `y` is a nearest value to `y`, and another value is
as near only where `y` is half a spacing away. -/
theorem nearest_of_abs_sub_le {f : Fmt} {m t : ℕ} {y : ℝ} (hm : 2 ^ t ∣ m)
    (hy : |(m : ℝ) - y| ≤ 2 ^ t / 2) (hlow : t = 0 ∨ 2 ^ (f.mb + t) ≤ y) {q : ℕ}
    (hq : Representable f q) :
    |(m : ℝ) - y| ≤ |(q : ℝ) - y| ∧
      (q ≠ m → |(m : ℝ) - y| = |(q : ℝ) - y| → |(m : ℝ) - y| = 2 ^ t / 2) := by
  have apart : ∀ q : ℕ, 2 ^ t ∣ q → q ≠ m → (2 : ℝ) ^ t ≤ |(q : ℝ) - y| + |(m : ℝ) - y| :=
    fun q hdvd hne => by
      have h := le_abs_sub_of_dvd hm hdvd hne
      have h' := abs_sub_le (q : ℝ) y m
      rw [abs_sub_comm y] at h'
      push_cast at h
      linarith
  have nearest : ∀ q : ℕ, 2 ^ t ∣ q → |(m : ℝ) - y| ≤ |(q : ℝ) - y| := fun q hdvd => by
    rcases eq_or_ne q m with rfl | hne
    · exact le_rfl
    · linarith [apart q hdvd hne]
  rcases representable_dvd_or_lt hq t with hdvd | ⟨ht, hlt⟩
  · refine ⟨nearest q hdvd, fun hne heq => ?_⟩
    linarith [apart q hdvd hne]
  · have hyl : (2 : ℝ) ^ (f.mb + t) ≤ y := hlow.resolve_left (by omega)
    have hnear := nearest (2 ^ (f.mb + t)) (pow_dvd_pow 2 (by omega))
    have hql : (q : ℝ) < 2 ^ (f.mb + t) := by exact_mod_cast hlt
    push_cast at hnear
    rw [abs_of_nonpos (by linarith : (2 : ℝ) ^ (f.mb + t) - y ≤ 0)] at hnear
    have hlt : |(m : ℝ) - y| < |(q : ℝ) - y| := by
      rw [abs_of_nonpos (by linarith : (q : ℝ) - y ≤ 0)]
      linarith
    exact ⟨hlt.le, fun _ heq => absurd heq hlt.ne⟩

/-! ### The magnitude `Fp.round` rounds to -/

/-- The magnitude that `Fp.round` compares with the overflow threshold. -/
def roundMag (f : Fmt) (n d : ℕ) : ℕ := nearestEven n (d * spacing f (n / d)) * spacing f (n / d)

theorem round_eq (f : Fmt) (neg : Bool) (n d : ℕ) :
    Fp.round f neg n d =
      if roundMag f n d < overflow f then .fin neg (roundMag f n d) else .inf neg := by
  by_cases h : roundMag f n d < overflow f
  · rw [if_pos h]
    exact if_neg (not_le.mpr h)
  · rw [if_neg h]
    exact if_pos (not_lt.mp h)

theorem representable_roundMag (f : Fmt) (n d : ℕ) : Representable f (roundMag f n d) := by
  simp only [roundMag, spacing_eq_two_pow]
  refine representable_of_le ((nearestEven_le _ _).trans ?_) _
  rw [← Nat.div_div_eq_div_mul, Nat.succ_le_iff, Nat.div_lt_iff_lt_mul (by positivity), ← pow_add]
  exact lt_two_pow_spacingExp f _

theorem two_pow_dvd_roundMag (f : Fmt) (n d : ℕ) : 2 ^ spacingExp f (n / d) ∣ roundMag f n d := by
  rw [roundMag, spacing_eq_two_pow]
  exact Dvd.intro_left _ rfl

theorem abs_roundMag_sub_le (f : Fmt) (n : ℕ) {d : ℕ} (hd : 0 < d) :
    |(roundMag f n d : ℝ) - n / d| ≤ 2 ^ spacingExp f (n / d) / 2 := by
  have h := (nearestEven_real_dist n hd (g := spacing f (n / d))
    (by rw [spacing_eq_two_pow]; positivity)).1
  simpa only [roundMag, spacing_eq_two_pow, Nat.cast_pow, Nat.cast_ofNat] using h

theorem two_pow_le_quotient (f : Fmt) (n d : ℕ) :
    spacingExp f (n / d) = 0 ∨ (2 : ℝ) ^ (f.mb + spacingExp f (n / d)) ≤ (n : ℝ) / d := by
  refine (two_pow_le_of_spacingExp f (n / d)).imp_right fun h => ?_
  calc (2 : ℝ) ^ (f.mb + spacingExp f (n / d)) ≤ ((n / d : ℕ) : ℝ) := by exact_mod_cast h
    _ ≤ n / d := Nat.cast_div_le

/-- Settles O46: the magnitude rounded to is a multiple of the spacing within half of it, so that
`nearest_of_abs_sub_le` applies, and at half a spacing it is the even multiple. -/
theorem roundingIsNearestTiesToEven : Obligations.RoundingIsNearestTiesToEven := by
  intro f neg n d hd
  refine ⟨roundMag f n d, representable_roundMag f n d, fun q hq => ?_, round_eq f neg n d⟩
  obtain ⟨hle, htie⟩ := nearest_of_abs_sub_le (two_pow_dvd_roundMag f n d)
    (abs_roundMag_sub_le f n hd) (two_pow_le_quotient f n d) hq
  refine ⟨hle, fun hne heq => ?_⟩
  have hpos : 0 < spacing f (n / d) := by rw [spacing_eq_two_pow]; positivity
  have heven := (nearestEven_real_dist n hd hpos).2
  rw [Nat.floor_div_eq_div, roundMag, Nat.mul_div_cancel _ hpos]
  refine heven ?_
  simpa only [roundMag, spacing_eq_two_pow, Nat.cast_pow, Nat.cast_ofNat] using htie hne heq

end Sys2Proof.Machine

/-! ### The values of a format and the words that hold them -/

namespace Sys2Proof.Machine

/-- The values that words of a format hold. -/
def Fp.InFormat (f : Fmt) : Fp → Prop
  | .nan => True
  | .inf _ => True
  | .fin _ m => Representable f m ∧ m < overflow f

/-! #### The sizes of the interchange formats -/

theorem eight_le_eb {f : Fmt} (hf : Interchange f) : 8 ≤ f.eb := by
  rcases hf with rfl | rfl | ⟨hw, -, heb⟩
  · decide
  · decide
  · have hlog : 56 ≤ Nat.log2 (f.width ^ 8) := by
      rw [Nat.le_log2 (by positivity)]
      calc 2 ^ 56 = 128 ^ 8 := by norm_num
        _ ≤ f.width ^ 8 := Nat.pow_le_pow_left hw 8
    omega

theorem twentythree_le_mb {f : Fmt} (hf : Interchange f) : 23 ≤ f.mb := by
  rcases hf with rfl | rfl | ⟨hw, -, heb⟩
  · decide
  · decide
  · -- the logarithm that gives the exponent width is small against the width
    have hlog : Nat.log2 (f.width ^ 8) < 8 * (f.width / 16 + 4) := by
      rw [Nat.log2_lt (by positivity), mul_comm, pow_mul]
      refine Nat.pow_lt_pow_left ?_ (by norm_num)
      have := Nat.lt_two_pow_self (n := f.width / 16)
      rw [pow_add]
      omega
    have hwidth : f.width = 1 + f.eb + f.mb := rfl
    omega

theorem four_le_two_pow_eb {f : Fmt} (hf : Interchange f) : 4 ≤ 2 ^ f.eb :=
  Nat.pow_le_pow_right (n := 2) (i := 2) (by norm_num) (by have := eight_le_eb hf; omega)

/-! #### Reading the fields of a word -/

/-- Reading a word put together from its sign, exponent and trailing significand. -/
theorem ofBits_fields (f : Fmt) (neg : Bool) {e frac : ℕ} (he : e < 2 ^ f.eb)
    (hfrac : frac < 2 ^ f.mb) :
    Fp.ofBits f (signBits f neg + e * 2 ^ f.mb + frac) =
      if e = 2 ^ f.eb - 1 then (if frac = 0 then .inf neg else .nan)
      else if e = 0 then .fin neg frac
      else .fin neg ((2 ^ f.mb + frac) <<< (e - 1)) := by
  have hlow : e * 2 ^ f.mb + frac < 2 ^ (f.eb + f.mb) := by
    rw [pow_add]
    calc e * 2 ^ f.mb + frac < (e + 1) * 2 ^ f.mb := by rw [add_one_mul]; omega
      _ ≤ 2 ^ f.eb * 2 ^ f.mb := Nat.mul_le_mul_right _ he
  have hsign : (signBits f neg + e * 2 ^ f.mb + frac).testBit (f.eb + f.mb) = neg := by
    rw [add_assoc]
    cases neg
    · simpa [signBits] using Nat.testBit_lt_two_pow hlow
    · simp [signBits, Nat.testBit_two_pow_add_eq, Nat.testBit_lt_two_pow hlow]
  have hword : signBits f neg + e * 2 ^ f.mb + frac =
      frac + 2 ^ f.mb * (e + 2 ^ f.eb * neg.toNat) := by
    cases neg <;> simp [signBits, pow_add] <;> ring
  have hexp : ((signBits f neg + e * 2 ^ f.mb + frac) >>> f.mb) % 2 ^ f.eb = e := by
    rw [hword, Nat.shiftRight_eq_div_pow, Nat.add_mul_div_left _ _ (by positivity),
      Nat.div_eq_of_lt hfrac, zero_add, Nat.add_mul_mod_self_left, Nat.mod_eq_of_lt he]
  have hmant : (signBits f neg + e * 2 ^ f.mb + frac) % 2 ^ f.mb = frac := by
    rw [hword, Nat.add_mul_mod_self_left, Nat.mod_eq_of_lt hfrac]
  simp only [Fp.ofBits, hsign, hexp, hmant]

/-- A magnitude below the normal ones. -/
theorem inFormat_subnormal {f : Fmt} {m : ℕ} (neg : Bool) (hm : m < 2 ^ f.mb)
    (heb : 4 ≤ 2 ^ f.eb) :
    (Fp.fin neg m).InFormat f :=
  ⟨⟨m, 0, hm.trans (Nat.pow_lt_pow_right (by norm_num) (by omega)), by simp⟩,
    hm.trans_le (Nat.pow_le_pow_right (by norm_num) (by omega))⟩

/-- A normal magnitude, given by its exponent and trailing significand. -/
theorem inFormat_normal {f : Fmt} {e frac : ℕ} (neg : Bool) (hfrac : frac < 2 ^ f.mb) (he0 : e ≠ 0)
    (he : e < 2 ^ f.eb - 1) : (Fp.fin neg ((2 ^ f.mb + frac) <<< (e - 1))).InFormat f := by
  have hk : 2 ^ f.mb + frac < 2 ^ (f.mb + 1) := by rw [pow_succ]; omega
  rw [Nat.shiftLeft_eq]
  refine ⟨⟨_, _, hk, rfl⟩, ?_⟩
  calc (2 ^ f.mb + frac) * 2 ^ (e - 1) < 2 ^ (f.mb + 1) * 2 ^ (e - 1) :=
        Nat.mul_lt_mul_of_pos_right hk (by positivity)
    _ = 2 ^ (f.mb + 1 + (e - 1)) := (pow_add ..).symm
    _ ≤ overflow f := Nat.pow_le_pow_right (by norm_num) (by omega)

/-- Every word holds a value of its format. -/
theorem inFormat_ofBits {f : Fmt} (hf : Interchange f) (w : ℕ) : (Fp.ofBits f w).InFormat f := by
  have heb := four_le_two_pow_eb hf
  have hexp : (w >>> f.mb) % 2 ^ f.eb < 2 ^ f.eb := Nat.mod_lt _ (by positivity)
  have hfrac : w % 2 ^ f.mb < 2 ^ f.mb := Nat.mod_lt _ (by positivity)
  simp only [Fp.ofBits]
  split
  · split <;> trivial
  · split
    · exact inFormat_subnormal _ hfrac heb
    · exact inFormat_normal _ hfrac ‹_› (by omega)

/-! #### Writing a value and reading it back -/

theorem spacingExp_dvd {f : Fmt} {m : ℕ} (h : Representable f m) : 2 ^ spacingExp f m ∣ m := by
  rcases representable_dvd_or_lt h (spacingExp f m) with hdvd | ⟨ht, hlt⟩
  · exact hdvd
  · have := (two_pow_le_of_spacingExp f m).resolve_left (by omega)
    omega

/-- The exponent and trailing significand of a normal magnitude. -/
theorem magBits_normal {f : Fmt} {m : ℕ} (hm : 2 ^ f.mb ≤ m) (hr : Representable f m) :
    ∃ frac < 2 ^ f.mb, magBits f m = (spacingExp f m + 1) * 2 ^ f.mb + frac ∧
      (2 ^ f.mb + frac) <<< spacingExp f m = m := by
  obtain ⟨k, hk⟩ := spacingExp_dvd hr
  have hhigh := lt_two_pow_spacingExp f m
  have hlow : 2 ^ (f.mb + spacingExp f m) ≤ m := by
    rcases two_pow_le_of_spacingExp f m with h | h
    · simpa [h] using hm
    · exact h
  have hshift : m >>> spacingExp f m = k := by
    rw [Nat.shiftRight_eq_div_pow]
    exact Nat.div_eq_of_eq_mul_right (by positivity) hk
  have hbits : magBits f m = spacingExp f m * 2 ^ f.mb + k := by
    rw [magBits, if_neg (not_lt.mpr hm), ← hshift]
    rfl
  generalize spacingExp f m = j at *
  subst hk
  rw [pow_add, mul_comm (2 ^ j)] at hlow
  rw [pow_add, mul_comm (2 ^ j)] at hhigh
  have hklow : 2 ^ f.mb ≤ k := Nat.le_of_mul_le_mul_right hlow (by positivity)
  have hkhigh : k < 2 ^ (f.mb + 1) := Nat.lt_of_mul_lt_mul_right hhigh
  refine ⟨k - 2 ^ f.mb, by rw [pow_succ] at hkhigh; omega, by rw [hbits, add_one_mul]; omega, ?_⟩
  rw [Nat.add_sub_cancel' hklow, Nat.shiftLeft_eq, mul_comm]

theorem ofBits_toBits_nan {f : Fmt} (hf : Interchange f) (d : Draw) :
    Fp.ofBits f (Fp.nan.toBits f d) = .nan := by
  have heb := four_le_two_pow_eb hf
  have hmb := twentythree_le_mb hf
  have hquiet : 2 ^ f.mb = 2 * 2 ^ (f.mb - 1) := by rw [← pow_succ']; congr 1; omega
  have hpos : 0 < 2 ^ (f.mb - 1) := by positivity
  have hpay : d.payload % 2 ^ (f.mb - 1) < 2 ^ (f.mb - 1) := Nat.mod_lt _ hpos
  rw [Fp.toBits, add_assoc, ofBits_fields f d.neg (by omega) (by omega), if_pos rfl,
    if_neg (by omega)]

theorem ofBits_toBits_inf {f : Fmt} (hf : Interchange f) (d : Draw) (neg : Bool) :
    Fp.ofBits f ((Fp.inf neg).toBits f d) = .inf neg := by
  have heb := four_le_two_pow_eb hf
  have h := ofBits_fields f neg (e := 2 ^ f.eb - 1) (frac := 0) (by omega) (by positivity)
  rwa [if_pos rfl, if_pos rfl] at h

theorem ofBits_toBits_fin {f : Fmt} (hf : Interchange f) (d : Draw) {neg : Bool} {m : ℕ}
    (hm : (Fp.fin neg m).InFormat f) : Fp.ofBits f ((Fp.fin neg m).toBits f d) = .fin neg m := by
  have heb := four_le_two_pow_eb hf
  obtain ⟨hrep, hover⟩ := hm
  rcases lt_or_ge m (2 ^ f.mb) with hsub | hnormal
  · have h := ofBits_fields f neg (e := 0) (by positivity) hsub
    rw [if_neg (by omega), if_pos rfl] at h
    simpa [Fp.toBits, magBits, hsub] using h
  · obtain ⟨frac, hfrac, hbits, hval⟩ := magBits_normal hnormal hrep
    have hexp : spacingExp f m + 1 < 2 ^ f.eb - 1 := by
      rcases two_pow_le_of_spacingExp f m with h | h
      · omega
      · have := (Nat.pow_lt_pow_iff_right (a := 2) (by norm_num)).mp (h.trans_lt hover)
        omega
    rw [Fp.toBits, hbits, ← add_assoc, ofBits_fields f neg (by omega) hfrac, if_neg (by omega),
      if_neg (by omega), Nat.add_sub_cancel, hval]

/-- Writing a value of the format and reading it back. -/
theorem ofBits_toBits {f : Fmt} (hf : Interchange f) (d : Draw) {v : Fp} (hv : v.InFormat f) :
    Fp.ofBits f (v.toBits f d) = v := by
  cases v with
  | nan => exact ofBits_toBits_nan hf d
  | inf neg => exact ofBits_toBits_inf hf d neg
  | fin neg m => exact ofBits_toBits_fin hf d hv

/-! #### The operations give values of the format -/

section
variable {f : Fmt}

theorem overflow_pos (f : Fmt) : 0 < overflow f := Nat.two_pow_pos _

theorem inFormat_zero (neg : Bool) : (Fp.fin neg 0).InFormat f :=
  ⟨representable_zero f, overflow_pos f⟩

theorem inFormat_round (neg : Bool) (n d : ℕ) : (Fp.round f neg n d).InFormat f := by
  rw [round_eq]
  split
  · exact ⟨representable_roundMag f n d, ‹_›⟩
  · trivial

theorem inFormat_neg {v : Fp} (hv : v.InFormat f) : v.neg.InFormat f := by
  cases v <;> exact hv

theorem inFormat_add (a b : Fp) : (Fp.add f a b).InFormat f := by
  cases a <;> cases b
  case inf.inf s t =>
    rw [Fp.add]
    split <;> trivial
  case fin.fin s m t k =>
    rw [Fp.add]
    split
    · exact inFormat_round _ _ _
    split
    · exact inFormat_zero _
    split <;> exact inFormat_round _ _ _
  all_goals trivial

theorem inFormat_mul (a b : Fp) : (Fp.mul f a b).InFormat f := by
  cases a <;> cases b
  case inf.fin s t k =>
    rw [Fp.mul]
    split <;> trivial
  case fin.inf s m t =>
    rw [Fp.mul]
    split <;> trivial
  case fin.fin s m t k => exact inFormat_round _ _ _
  all_goals trivial

theorem inFormat_div (a b : Fp) : (Fp.div f a b).InFormat f := by
  cases a <;> cases b
  case fin.inf s m t => exact inFormat_zero _
  case fin.fin s m t k =>
    rw [Fp.div]
    split
    · split <;> trivial
    · exact inFormat_round _ _ _
  all_goals trivial

theorem inFormat_sqrt (a : Fp) : (Fp.sqrt f a).InFormat f := by
  cases a with
  | nan => trivial
  | inf s => cases s <;> trivial
  | fin s m =>
    simp only [Fp.sqrt]
    split
    · exact inFormat_zero _
    split
    · trivial
    · exact inFormat_round _ _ _

theorem inFormat_convert (src : Fmt) (a : Fp) : (Fp.convert src f a).InFormat f := by
  cases a with
  | nan => trivial
  | inf s => trivial
  | fin s m => exact inFormat_round _ _ _

end

/-! #### The operations on words compute the operations on values -/

section
variable {f : Fmt} (hf : Interchange f) (d : Draw) (a b : FWord)
include hf

theorem inFormat_valF : (valF f a).InFormat f := inFormat_ofBits hf _

theorem valF_wordF {v : Fp} (hv : v.InFormat f) : valF f (wordF f d v) = v := ofBits_toBits hf d hv

@[simp] theorem valF_fadd : valF f (fadd f d a b) = Fp.add f (valF f a) (valF f b) :=
  valF_wordF hf d (inFormat_add _ _)

@[simp] theorem valF_fsub : valF f (fsub f d a b) = Fp.sub f (valF f a) (valF f b) :=
  valF_wordF hf d (inFormat_add _ _)

@[simp] theorem valF_fmul : valF f (fmul f d a b) = Fp.mul f (valF f a) (valF f b) :=
  valF_wordF hf d (inFormat_mul _ _)

@[simp] theorem valF_fdiv : valF f (fdiv f d a b) = Fp.div f (valF f a) (valF f b) :=
  valF_wordF hf d (inFormat_div _ _)

@[simp] theorem valF_fsqrt : valF f (fsqrt f d a) = Fp.sqrt f (valF f a) :=
  valF_wordF hf d (inFormat_sqrt _)

@[simp] theorem valF_fneg : valF f (fneg f d a) = (valF f a).neg :=
  valF_wordF hf d (inFormat_neg (inFormat_valF hf a))

theorem valF_litF (neg : Bool) (n k : ℕ) : valF f (litF f neg n k) = Fp.ofRat f neg n k :=
  valF_wordF hf default (inFormat_round _ _ _)

end

end Sys2Proof.Machine

/-! ### The operations on values are the exact ones rounded once -/

namespace Sys2Proof.Machine

/-- The integer a signed magnitude is. -/
def signedMag (s : Bool) (m : ℕ) : ℤ := if s then -(m : ℤ) else m

theorem signedMag_not (s : Bool) (m : ℕ) : signedMag (!s) m = -signedMag s m := by
  cases s <;> simp [signedMag]

theorem signedMag_eq_zero {s : Bool} {m : ℕ} : signedMag s m = 0 ↔ m = 0 := by
  cases s <;> simp [signedMag]

theorem abs_signedMag (s : Bool) (m : ℕ) : |((signedMag s m : ℤ) : ℝ)| = m := by
  cases s <;> simp [signedMag]

theorem signedMag_neg_iff {s : Bool} {m : ℕ} (hm : m ≠ 0) : (signedMag s m < 0) ↔ s = true := by
  cases s
  · simp [signedMag]
  · simpa [signedMag] using Nat.pos_of_ne_zero hm

section
variable (f : Fmt) (s t : Bool) (m k : ℕ)

theorem round_zero (neg : Bool) (d : ℕ) : Fp.round f neg 0 d = .fin neg 0 := by
  have h : roundMag f 0 d = 0 := by simp [roundMag, nearestEven]
  rw [round_eq, h, if_pos (overflow_pos f)]

/-- The sum of two finite values: zero, or the exact sum rounded. -/
theorem add_fin_fin : ∃ neg n, signedMag s m + signedMag t k = signedMag neg n ∧
    (n = 0 → Fp.add f (.fin s m) (.fin t k) = .fin (s && t) 0) ∧
    (n ≠ 0 → Fp.add f (.fin s m) (.fin t k) = Fp.round f neg n 1) := by
  by_cases hst : s = t
  · subst hst
    refine ⟨s, m + k, by cases s <;> simp [signedMag]; omega, fun h => ?_, fun _ => ?_⟩
    · simp only [Fp.add, if_pos, h, round_zero, Bool.and_self]
    · simp [Fp.add]
  · obtain rfl : t = !s := by cases s <;> cases t <;> simp_all
    rcases lt_trichotomy m k with hlt | rfl | hgt
    · refine ⟨!s, k - m, by cases s <;> simp [signedMag] <;> omega, fun h => by omega, fun _ => ?_⟩
      simp [Fp.add, hlt.ne, hlt.le]
    · exact ⟨s, 0, by cases s <;> simp [signedMag], fun _ => by simp [Fp.add], fun h => absurd rfl h⟩
    · refine ⟨s, m - k, by cases s <;> simp [signedMag] <;> omega, fun h => by omega, fun _ => ?_⟩
      simp [Fp.add, hgt.ne', hgt]

/-- Addition of finite values is the exact sum rounded, and an exact zero sum is a zero. -/
theorem add_fin_isRounding :
    if signedMag s m + signedMag t k = 0 then Fp.add f (.fin s m) (.fin t k) = .fin (s && t) 0
    else IsRounding f (signedMag s m + signedMag t k < 0)
      |((signedMag s m : ℝ) + signedMag t k)| (Fp.add f (.fin s m) (.fin t k)) := by
  obtain ⟨neg, n, hsum, hzero, hround⟩ := add_fin_fin f s t m k
  rw [← Int.cast_add, hsum]
  split
  case isTrue h => exact hzero (signedMag_eq_zero.mp h)
  case isFalse h =>
    have hn : n ≠ 0 := fun h0 => h (signedMag_eq_zero.mpr h0)
    rw [hround hn, abs_signedMag]
    simpa [signedMag_neg_iff hn] using roundingIsNearestTiesToEven f neg n 1 one_pos

theorem sub_fin_isRounding :
    if signedMag s m - signedMag t k = 0 then Fp.sub f (.fin s m) (.fin t k) = .fin (s && !t) 0
    else IsRounding f (signedMag s m - signedMag t k < 0)
      |((signedMag s m : ℝ) - signedMag t k)| (Fp.sub f (.fin s m) (.fin t k)) := by
  have h := add_fin_isRounding f s (!t) m k
  simp only [signedMag_not, ← sub_eq_add_neg, Int.cast_neg] at h
  exact h

theorem mul_fin_isRounding :
    IsRounding f (s != t) ((m : ℝ) * k / 2 ^ qexp f) (Fp.mul f (.fin s m) (.fin t k)) := by
  have h := roundingIsNearestTiesToEven f (s != t) (m * k) (2 ^ qexp f) (by positivity)
  rw [Fp.mul]
  simpa only [Nat.cast_mul, Nat.cast_pow, Nat.cast_ofNat] using h

theorem div_fin_isRounding (hk : k ≠ 0) :
    IsRounding f (s != t) ((m : ℝ) / k * 2 ^ qexp f) (Fp.div f (.fin s m) (.fin t k)) := by
  have h := roundingIsNearestTiesToEven f (s != t) (m * 2 ^ qexp f) k (Nat.pos_of_ne_zero hk)
  rw [Fp.div, if_neg hk, div_mul_eq_mul_div]
  simpa only [Nat.cast_mul, Nat.cast_pow, Nat.cast_ofNat] using h

end

/-! The special results of R17. -/

section
variable (f : Fmt) (s t : Bool) (m : ℕ) (v : Fp)

theorem add_nan_right : Fp.add f v .nan = .nan := by cases v <;> rfl

theorem mul_nan_right : Fp.mul f v .nan = .nan := by cases v <;> rfl

theorem div_nan_right : Fp.div f v .nan = .nan := by cases v <;> rfl

theorem add_inf_same : Fp.add f (.inf s) (.inf s) = .inf s := by simp [Fp.add]

theorem add_inf_opposite : Fp.add f (.inf s) (.inf !s) = .nan := by simp [Fp.add]

theorem mul_inf_fin (hm : m ≠ 0) : Fp.mul f (.inf s) (.fin t m) = .inf (s != t) := by
  simp [Fp.mul, hm]

theorem mul_fin_inf (hm : m ≠ 0) : Fp.mul f (.fin t m) (.inf s) = .inf (t != s) := by
  simp [Fp.mul, hm]

theorem div_fin_zero (hm : m ≠ 0) : Fp.div f (.fin s m) (.fin t 0) = .inf (s != t) := by
  simp [Fp.div, hm]

end

/-- Settles O47: each operation on finite values is `Fp.round` of the exact result, which O46 describes,
and the words hold the values because every result is a value of the format. -/
theorem arithmeticFollowsIeee : Obligations.ArithmeticFollowsIeee := by
  refine ⟨fun f s t m k => ?_, fun f s t m => ?_, fun f v => ?_, fun f d a b hf => ?_⟩
  · exact ⟨add_fin_isRounding f s t m k, sub_fin_isRounding f s t m k, mul_fin_isRounding f s t m k,
      div_fin_isRounding f s t m k, div_fin_zero f s t m, rfl⟩
  · exact ⟨rfl, rfl, add_inf_same f s, add_inf_opposite f s, add_inf_opposite f s, rfl,
      fun hm => ⟨mul_inf_fin f s t m hm, mul_fin_inf f s t m hm⟩, rfl, rfl, rfl, rfl, rfl⟩
  · exact ⟨rfl, add_nan_right f v, rfl, add_nan_right f v, rfl, mul_nan_right f v, rfl,
      div_nan_right f v⟩
  · exact ⟨valF_fadd hf d a b, valF_fsub hf d a b, valF_fmul hf d a b, valF_fdiv hf d a b,
      valF_fsqrt hf d a, valF_fneg hf d a⟩

end Sys2Proof.Machine

/-! ### Comparisons -/

namespace Sys2Proof.Machine

section
variable {f : Fmt} {a b : Fp}

theorem key_inf (s : Bool) : (Fp.inf s).key f = some (signedMag s (overflow f)) := by
  cases s <;> rfl

theorem key_fin (s : Bool) (m : ℕ) : (Fp.fin s m).key f = some (signedMag s m) := by
  cases s <;> rfl

theorem key_isSome_iff : (a.key f).isSome ↔ a ≠ .nan := by
  cases a <;> simp [Fp.key]

theorem ne_nan_of_key {x : ℤ} (h : a.key f = some x) : a ≠ .nan :=
  (key_isSome_iff (f := f)).mp (by simp [h])

theorem eq_iff_key : Fp.eq f a b = true ↔ ∃ x, a.key f = some x ∧ b.key f = some x := by
  rw [Fp.eq]
  cases a.key f <;> cases b.key f <;> simp [eq_comm]

theorem lt_iff_key : Fp.lt f a b = true ↔ ∃ x y, a.key f = some x ∧ b.key f = some y ∧ x < y := by
  rw [Fp.lt]
  cases a.key f <;> cases b.key f <;> simp

theorem signedMag_eq_iff {s t : Bool} {m k : ℕ} :
    signedMag s m = signedMag t k ↔ (s = t ∧ m = k) ∨ (m = 0 ∧ k = 0) := by
  cases s <;> cases t <;> simp [signedMag] <;> omega

/-- Finite keys lie strictly between those of the infinities. -/
theorem key_bounds (ha : a.InFormat f) {x : ℤ} (h : a.key f = some x) :
    (a ≠ .inf true → -(overflow f : ℤ) < x) ∧ (a ≠ .inf false → x < overflow f) := by
  have hpos := overflow_pos f
  cases a with
  | nan => cases h
  | inf s =>
    obtain rfl := Option.some.inj (key_inf s ▸ h)
    cases s <;> simp [signedMag] <;> omega
  | fin s m =>
    obtain rfl := Option.some.inj (key_fin s m ▸ h)
    have hm := ha.2
    cases s <;> simp [signedMag] <;> omega

/-- Two values have one key only if they are one value or both zeros. -/
theorem same_key_iff (ha : a.InFormat f) (hb : b.InFormat f) (hna : a ≠ .nan) (hnb : b ≠ .nan) :
    a.key f = b.key f ↔ a = b ∨ ∃ s t, a = .fin s 0 ∧ b = .fin t 0 := by
  have hpos := overflow_pos f
  cases a with
  | nan => exact absurd rfl hna
  | inf s =>
    cases b with
    | nan => exact absurd rfl hnb
    | inf t => simp [key_inf, signedMag_eq_iff, hpos.ne']
    | fin t k => simp [key_inf, key_fin, signedMag_eq_iff, hpos.ne', hb.2.ne']
  | fin s m =>
    cases b with
    | nan => exact absurd rfl hnb
    | inf t => simp [key_inf, key_fin, signedMag_eq_iff, hpos.ne', ha.2.ne]
    | fin t k => simp [key_fin, signedMag_eq_iff]

theorem eq_iff (ha : a.InFormat f) (hb : b.InFormat f) :
    Fp.eq f a b = true ↔
      a ≠ .nan ∧ b ≠ .nan ∧ (a = b ∨ ∃ s t, a = .fin s 0 ∧ b = .fin t 0) := by
  rw [eq_iff_key]
  constructor
  · rintro ⟨x, hax, hbx⟩
    have hna := ne_nan_of_key hax
    have hnb := ne_nan_of_key hbx
    exact ⟨hna, hnb, (same_key_iff ha hb hna hnb).mp (hax.trans hbx.symm)⟩
  · rintro ⟨hna, hnb, h⟩
    obtain ⟨x, hax⟩ := Option.isSome_iff_exists.mp ((key_isSome_iff (f := f)).mpr hna)
    exact ⟨x, hax, ((same_key_iff ha hb hna hnb).mpr h).symm.trans hax⟩

theorem lt_quiet (h : Fp.lt f a b = true) :
    a ≠ .nan ∧ b ≠ .nan ∧ Fp.eq f a b = false ∧ Fp.lt f b a = false := by
  obtain ⟨x, y, hx, hy, hlt⟩ := lt_iff_key.mp h
  refine ⟨ne_nan_of_key hx, ne_nan_of_key hy, ?_, ?_⟩
  · simp [Fp.eq, hx, hy, hlt.ne]
  · simp [Fp.lt, hx, hy, hlt.le]

theorem lt_fin_iff {s t : Bool} {m k : ℕ} :
    Fp.lt f (.fin s m) (.fin t k) = true ↔ signedMag s m < signedMag t k := by
  simp [lt_iff_key, key_fin]

theorem neg_inf_lt (hb : b.InFormat f) (hnan : b ≠ .nan) (hinf : b ≠ .inf true) :
    Fp.lt f (.inf true) b = true := by
  obtain ⟨y, hy⟩ := Option.isSome_iff_exists.mp ((key_isSome_iff (f := f)).mpr hnan)
  exact lt_iff_key.mpr ⟨_, y, rfl, hy, (key_bounds hb hy).1 hinf⟩

theorem lt_pos_inf (ha : a.InFormat f) (hnan : a ≠ .nan) (hinf : a ≠ .inf false) :
    Fp.lt f a (.inf false) = true := by
  obtain ⟨x, hx⟩ := Option.isSome_iff_exists.mp ((key_isSome_iff (f := f)).mpr hnan)
  exact lt_iff_key.mpr ⟨x, _, hx, rfl, (key_bounds ha hx).2 hinf⟩

end

/-- Settles O51: the comparisons compare keys, and in an interchange format the key of a finite value lies
strictly between those of the infinities. -/
theorem comparisonsAreQuiet : Obligations.ComparisonsAreQuiet := by
  intro f a b hf
  have ha := inFormat_valF hf a
  have hb := inFormat_valF hf b
  refine ⟨eq_iff ha hb, lt_quiet, fun s t m k hs ht => ?_, fun hinf hnan hne => ?_,
    fun hinf hnan hne => ?_⟩
  · rw [flt, hs, ht]
    exact lt_fin_iff
  · rw [flt, hinf]
    exact neg_inf_lt hb hnan hne
  · rw [flt, hinf]
    exact lt_pos_inf ha hnan hne

end Sys2Proof.Machine

/-! ### The square root -/

namespace Sys2Proof.Machine

theorem isqrt_spec (k : ℕ) : ∀ n < 4 ^ k,
    isqrt k n * isqrt k n ≤ n ∧ n < (isqrt k n + 1) * (isqrt k n + 1) := by
  induction k with
  | zero =>
    intro n hn
    obtain rfl : n = 0 := by simpa using hn
    simp [isqrt]
  | succ k ih =>
    intro n hn
    obtain ⟨hlow, hhigh⟩ := ih (n / 4) (by rw [pow_succ] at hn; omega)
    have hn4 : 4 * (isqrt k (n / 4) * isqrt k (n / 4)) ≤ n := by omega
    have hn4' : n < 4 * ((isqrt k (n / 4) + 1) * (isqrt k (n / 4) + 1)) := by omega
    simp only [isqrt]
    split
    case isTrue h => exact ⟨h, by linarith⟩
    case isFalse h => exact ⟨by linarith, not_le.mp h⟩

/-! The parts of `Fp.sqrt`, for the number `x` whose root it computes. -/

/-- How many bits of the root are left out. -/
def sqrtExp (f : Fmt) (x : ℕ) : ℕ := Nat.log2 x / 2 - (f.mb + 3)

/-- The leading bits of the root. -/
def sqrtLead (f : Fmt) (x : ℕ) : ℕ := isqrt (f.mb + 5) (x / 4 ^ sqrtExp f x)

/-- What is rounded in place of twice the root of `x`: the leading bits, or a half more. -/
def sqrtStandIn (f : Fmt) (x : ℕ) : ℕ :=
  (2 * sqrtLead f x + if sqrtLead f x * sqrtLead f x * 4 ^ sqrtExp f x = x then 0 else 1) *
    2 ^ sqrtExp f x

theorem sqrt_fin_pos (f : Fmt) {m : ℕ} (hm : m ≠ 0) :
    Fp.sqrt f (.fin false m) = Fp.round f false (sqrtStandIn f (4 * m * 2 ^ qexp f)) 4 := by
  rw [Fp.sqrt, if_neg hm, if_neg (by decide)]
  rfl

section
variable (f : Fmt) (x : ℕ)

theorem sqrtLead_spec :
    sqrtLead f x * sqrtLead f x * 4 ^ sqrtExp f x ≤ x ∧
      x < (sqrtLead f x + 1) * (sqrtLead f x + 1) * 4 ^ sqrtExp f x := by
  have hx : x / 4 ^ sqrtExp f x < 4 ^ (f.mb + 5) := by
    rw [Nat.div_lt_iff_lt_mul (by positivity), ← pow_add]
    refine Nat.lt_log2_self.trans_le ?_
    rw [show (4 : ℕ) = 2 ^ 2 from rfl, ← pow_mul]
    refine Nat.pow_le_pow_right (by norm_num) ?_
    simp only [sqrtExp]
    omega
  obtain ⟨hlow, hhigh⟩ := isqrt_spec _ _ hx
  exact ⟨(Nat.le_div_iff_mul_le (by positivity)).mp hlow,
    (Nat.div_lt_iff_lt_mul (by positivity)).mp hhigh⟩

/-- The leading bits are more than the format keeps, unless they are all. -/
theorem two_pow_le_sqrtLead (h : sqrtExp f x ≠ 0) : 2 ^ (f.mb + 3) ≤ sqrtLead f x := by
  have hx : x ≠ 0 := by rintro rfl; simp [sqrtExp] at h
  have hlog : 2 * (f.mb + 3 + sqrtExp f x) ≤ Nat.log2 x := by simp only [sqrtExp] at *; omega
  have hpow : 4 ^ (f.mb + 3 + sqrtExp f x) ≤ x := by
    rw [show (4 : ℕ) = 2 ^ 2 from rfl, ← pow_mul]
    exact (Nat.pow_le_pow_right (by norm_num) hlog).trans (Nat.log2_self_le hx)
  have hlt := hpow.trans_lt (sqrtLead_spec f x).2
  rw [pow_add] at hlt
  have hsq := Nat.lt_of_mul_lt_mul_right hlt
  rw [show (4 : ℕ) = 2 * 2 from rfl, mul_pow] at hsq
  exact Nat.lt_succ_iff.mp (Nat.mul_self_lt_mul_self_iff.mp hsq)

theorem sqrtExp_le_spacingExp : sqrtExp f x ≤ spacingExp f (sqrtStandIn f x / 4) := by
  rcases Nat.eq_zero_or_pos (sqrtExp f x) with h | h
  · simp [h]
  · have hlead := two_pow_le_sqrtLead f x h.ne'
    have hstand : 2 ^ (f.mb + 2 + sqrtExp f x) ≤ sqrtStandIn f x / 4 := by
      rw [Nat.le_div_iff_mul_le (by norm_num)]
      calc 2 ^ (f.mb + 2 + sqrtExp f x) * 4 = 2 * 2 ^ (f.mb + 3) * 2 ^ sqrtExp f x := by ring
        _ ≤ 2 * sqrtLead f x * 2 ^ sqrtExp f x := by gcongr
        _ ≤ sqrtStandIn f x := Nat.mul_le_mul_right _ (Nat.le_add_right _ _)
    have hne : sqrtStandIn f x / 4 ≠ 0 := fun h0 => by simp [h0] at hstand
    have := (Nat.le_log2 hne).mpr hstand
    simp only [spacingExp]
    omega

/-- The stand-in and the root lie on the same side of every multiple of half a unit of the leading
bits. -/
theorem sqrtStandIn_same_side (a : ℤ) :
    ((a : ℝ) * (2 ^ sqrtExp f x / 2) ≤ (sqrtStandIn f x : ℝ) / 4 →
      (a : ℝ) * (2 ^ sqrtExp f x / 2) ≤ Real.sqrt x / 2) ∧
    ((sqrtStandIn f x : ℝ) / 4 ≤ a * (2 ^ sqrtExp f x / 2) →
      Real.sqrt x / 2 ≤ a * (2 ^ sqrtExp f x / 2)) := by
  obtain ⟨hlow, hhigh⟩ := sqrtLead_spec f x
  have hfour : (4 : ℝ) ^ sqrtExp f x = (2 ^ sqrtExp f x) ^ 2 := by
    rw [← pow_mul, mul_comm, pow_mul]
    norm_num
  have hu : (0 : ℝ) < 2 ^ sqrtExp f x := by positivity
  have hstand : (sqrtStandIn f x : ℝ) = (2 * sqrtLead f x +
      if sqrtLead f x * sqrtLead f x * 4 ^ sqrtExp f x = x then 0 else 1) * 2 ^ sqrtExp f x := by
    simp [sqrtStandIn]
  rw [hstand]
  generalize sqrtLead f x = r at *
  have hlow' : (r : ℝ) * 2 ^ sqrtExp f x ≤ Real.sqrt x := by
    refine Real.le_sqrt_of_sq_le ?_
    rw [mul_pow, ← hfour, sq]
    exact_mod_cast hlow
  have hhigh' : Real.sqrt x ≤ ((r : ℝ) + 1) * 2 ^ sqrtExp f x := by
    refine Real.sqrt_le_iff.mpr ⟨by positivity, ?_⟩
    rw [mul_pow, ← hfour, sq]
    exact_mod_cast hhigh.le
  generalize (2 : ℝ) ^ sqrtExp f x = u at *
  split
  case isTrue hexact =>
    have hroot : Real.sqrt x = r * u := by
      rw [Real.sqrt_eq_iff_mul_self_eq (by positivity) (by positivity), ← hexact]
      push_cast
      rw [hfour]
      ring
    constructor <;> intro h <;> linarith
  case isFalse =>
    have cancel : ∀ {b c : ℝ}, b * (u / 2) ≤ c * (u / 2) → b ≤ c := fun h =>
      le_of_mul_le_mul_right h (by positivity)
    constructor
    · intro h
      have ha : (a : ℝ) < r + 1 := by
        linarith [cancel (b := a) (c := (2 * r + 1) / 2) (by linarith)]
      have ha' : (a : ℝ) ≤ r := by exact_mod_cast Int.lt_add_one_iff.mp (by exact_mod_cast ha)
      nlinarith
    · intro h
      have ha : (r : ℝ) < a := by
        linarith [cancel (b := (2 * r + 1) / 2) (c := a) (by linarith)]
      have ha' : (r : ℝ) + 1 ≤ a := by
        exact_mod_cast Int.add_one_le_iff.mpr (by exact_mod_cast ha : (r : ℤ) < a)
      nlinarith

end

/-- The magnitude that the square root of `m` quanta rounds to is nearest to the real root. -/
theorem roundMag_sqrt_nearest (f : Fmt) (m : ℕ) {q : ℕ} (hq : Representable f q) :
    |(roundMag f (sqrtStandIn f (4 * m * 2 ^ qexp f)) 4 : ℝ) - Real.sqrt (m * 2 ^ qexp f)| ≤
      |(q : ℝ) - Real.sqrt (m * 2 ^ qexp f)| := by
  have hroot : Real.sqrt (m * 2 ^ qexp f) = Real.sqrt ((4 * m * 2 ^ qexp f : ℕ) : ℝ) / 2 := by
    have hfour : ((4 * m * 2 ^ qexp f : ℕ) : ℝ) = 2 ^ 2 * (m * 2 ^ qexp f) := by
      push_cast
      ring
    rw [hfour, Real.sqrt_mul (x := 2 ^ 2) (by norm_num), Real.sqrt_sq (by norm_num)]
    ring
  rw [hroot]
  generalize 4 * m * 2 ^ qexp f = x
  have hside := sqrtStandIn_same_side f x
  have hexp := sqrtExp_le_spacingExp f x
  have hdvd := two_pow_dvd_roundMag f (sqrtStandIn f x) 4
  have hdist := abs_roundMag_sub_le f (sqrtStandIn f x) (d := 4) (by norm_num)
  have hlow := two_pow_le_quotient f (sqrtStandIn f x) 4
  generalize spacingExp f (sqrtStandIn f x / 4) = t at *
  generalize roundMag f (sqrtStandIn f x) 4 = r at *
  obtain ⟨c, hc⟩ := Nat.exists_eq_add_of_le hexp
  obtain ⟨j, rfl⟩ := hdvd
  have hspacing : (2 : ℝ) ^ t = 2 ^ c * 2 ^ sqrtExp f x := by rw [hc, pow_add, mul_comm]
  refine (nearest_of_abs_sub_le (Dvd.intro _ rfl) (t := t) ?_ (hlow.imp_right fun h => ?_) hq).1
  · rw [abs_le] at hdist ⊢
    have hup := (hside ((2 * j + 1) * 2 ^ c)).2
    have hdown := (hside ((2 * j - 1) * 2 ^ c)).1
    push_cast [hspacing] at *
    constructor
    · linarith [hup (by linarith)]
    · linarith [hdown (by linarith)]
  · have hup := (hside (2 ^ (f.mb + 1) * 2 ^ c)).1
    rw [pow_add, hspacing] at h ⊢
    push_cast [pow_succ] at *
    linarith [hup (by linarith)]

theorem le_of_nearest {m q : ℕ} {y : ℝ} (hnear : |(m : ℝ) - y| ≤ |(q : ℝ) - y|) (hq : y ≤ q) :
    m ≤ q := by
  rw [abs_of_nonneg (sub_nonneg.mpr hq)] at hnear
  have := (le_abs_self _).trans hnear
  exact_mod_cast (by linarith : (m : ℝ) ≤ q)

/-- The root of a finite value is far below the overflow threshold. -/
theorem roundMag_sqrt_lt_overflow {f : Fmt} (hf : Interchange f) {m : ℕ} (hm : m < overflow f) :
    roundMag f (sqrtStandIn f (4 * m * 2 ^ qexp f)) 4 < overflow f := by
  have heb : 2 ^ f.eb = 2 * 2 ^ (f.eb - 1) := by
    rw [← pow_succ']
    congr 1
    have := eight_le_eb hf
    omega
  have hfour := four_le_two_pow_eb hf
  have hroot : Real.sqrt (m * 2 ^ qexp f) ≤ ((2 ^ (f.mb + 2 ^ f.eb - 3) : ℕ) : ℝ) := by
    refine Real.sqrt_le_iff.mpr ⟨by positivity, ?_⟩
    have : m * 2 ^ qexp f ≤ (2 ^ (f.mb + 2 ^ f.eb - 3)) ^ 2 := by
      calc m * 2 ^ qexp f ≤ overflow f * 2 ^ qexp f := Nat.mul_le_mul_right _ hm.le
        _ = 2 ^ (f.mb + 2 ^ f.eb - 2 + qexp f) := (pow_add ..).symm
        _ ≤ 2 ^ ((f.mb + 2 ^ f.eb - 3) * 2) :=
          Nat.pow_le_pow_right (by norm_num) (by simp only [qexp]; omega)
        _ = (2 ^ (f.mb + 2 ^ f.eb - 3)) ^ 2 := pow_mul ..
    exact_mod_cast this
  refine (le_of_nearest (roundMag_sqrt_nearest f m (representable_two_pow f _)) hroot).trans_lt ?_
  exact Nat.pow_lt_pow_right (by norm_num) (by omega)

theorem sqrt_fin_nearest {f : Fmt} (hf : Interchange f) {m : ℕ} (hpos : 0 < m)
    (hm : m < overflow f) :
    ∃ r : ℕ, Fp.sqrt f (.fin false m) = .fin false r ∧ Representable f r ∧ r < overflow f ∧
      ∀ q, Representable f q →
        |(r : ℝ) - Real.sqrt (m * 2 ^ qexp f)| ≤ |(q : ℝ) - Real.sqrt (m * 2 ^ qexp f)| := by
  have hover := roundMag_sqrt_lt_overflow hf hm
  refine ⟨_, ?_, representable_roundMag f _ _, hover, fun q => roundMag_sqrt_nearest f m⟩
  rw [sqrt_fin_pos f hpos.ne', round_eq, if_pos hover]

/-- Settles O48: the stand-in that is rounded and the real root lie on the same side of every rounding
boundary. -/
theorem squareRootIsCorrectlyRounded : Obligations.SquareRootIsCorrectlyRounded := by
  refine ⟨fun f m hf => sqrt_fin_nearest hf, fun f s m => ⟨rfl, fun hm => ?_, rfl, rfl, rfl⟩⟩
  simp [Fp.sqrt, hm.ne']

end Sys2Proof.Machine

/-! ### The constants -/

namespace Sys2Proof.Machine

/-- A magnitude of the format is rounded to itself. -/
theorem roundMag_exact {f : Fmt} {m d : ℕ} (hm : Representable f m) (hd : 0 < d) :
    roundMag f (m * d) d = m := by
  have hquot : ((m * d : ℕ) : ℝ) / d = m := by
    rw [Nat.cast_mul, mul_div_cancel_right₀]
    exact_mod_cast hd.ne'
  have h := (nearest_of_abs_sub_le (two_pow_dvd_roundMag f (m * d) d)
    (abs_roundMag_sub_le f (m * d) hd) (two_pow_le_quotient f (m * d) d) hm).1
  rw [hquot, sub_self, abs_zero, abs_nonpos_iff, sub_eq_zero] at h
  exact_mod_cast h

theorem round_exact {f : Fmt} {m d : ℕ} (neg : Bool) (hm : Representable f m) (hd : 0 < d)
    (hover : m < overflow f) : Fp.round f neg (m * d) d = .fin neg m := by
  rw [round_eq, roundMag_exact hm hd, if_pos hover]

/-- Rounding is below every representable magnitude that the quotient is below. -/
theorem roundMag_le {f : Fmt} {n d q : ℕ} (hd : 0 < d) (hq : Representable f q) (h : n ≤ q * d) :
    roundMag f n d ≤ q := by
  refine le_of_nearest (nearest_of_abs_sub_le (two_pow_dvd_roundMag f n d)
    (abs_roundMag_sub_le f n hd) (two_pow_le_quotient f n d) hq).1 ?_
  rw [div_le_iff₀ (by exact_mod_cast hd)]
  exact_mod_cast h

section
variable {f : Fmt} (hf : Interchange f)
include hf

/-- Small powers of two times 1 are far below the overflow threshold. -/
theorem two_pow_lt_overflow {k : ℕ} (hk : k ≤ 32) : 2 ^ (qexp f + k) < overflow f := by
  have heb : 2 ^ f.eb = 2 * 2 ^ (f.eb - 1) := by
    rw [← pow_succ']
    congr 1
    have := eight_le_eb hf
    omega
  have hbig : 2 ^ 7 ≤ 2 ^ (f.eb - 1) :=
    Nat.pow_le_pow_right (by norm_num) (by have := eight_le_eb hf; omega)
  refine Nat.pow_lt_pow_right (by norm_num) ?_
  simp only [qexp]
  omega

theorem valF_two : valF f (natToF f 2) = .fin false (2 ^ (qexp f + 1)) := by
  rw [natToF, valF_litF hf, Fp.ofRat, ← pow_succ']
  simpa using round_exact false (representable_two_pow f (qexp f + 1)) one_pos
    (two_pow_lt_overflow hf (by norm_num))

/-- SQRT2_F is the root of 2, correctly rounded. -/
theorem sqrt2F_nearest : ∃ q : ℕ, valF f (sqrt2F f) = .fin false q ∧
    ∀ r, Representable f r →
      |(q : ℝ) - Real.sqrt 2 * 2 ^ qexp f| ≤ |(r : ℝ) - Real.sqrt 2 * 2 ^ qexp f| := by
  obtain ⟨q, hq, -, -, hnear⟩ := sqrt_fin_nearest hf (m := 2 ^ (qexp f + 1)) (by positivity)
    (two_pow_lt_overflow hf (by norm_num))
  have hroot : Real.sqrt ((2 ^ (qexp f + 1) : ℕ) * 2 ^ qexp f) = Real.sqrt 2 * 2 ^ qexp f := by
    rw [show ((2 ^ (qexp f + 1) : ℕ) : ℝ) * 2 ^ qexp f = 2 * (2 ^ qexp f) ^ 2 by push_cast; ring,
      Real.sqrt_mul (by norm_num), Real.sqrt_sq (by positivity)]
  rw [hroot] at hnear
  exact ⟨q, by rw [sqrt2F, valF_fsqrt hf, valF_two hf, hq], hnear⟩

end

/-! PI_F by Machin's formula. -/

theorem arctanSum_bounds (q k : ℕ) : ∀ p j, 0 < j →
    0 ≤ arctanSum q k p j ∧ arctanSum q k p j ≤ (p / j : ℕ) := by
  induction k with
  | zero => exact fun p j _ => ⟨le_rfl, Int.natCast_nonneg _⟩
  | succ k ih =>
    intro p j hj
    obtain ⟨hlow, hhigh⟩ := ih (p / q) (j + 2) (by omega)
    have hterm : p / q / (j + 2) ≤ p / j :=
      (Nat.div_le_div_right (Nat.div_le_self p q)).trans (Nat.div_le_div_left (by omega) hj)
    have hterm' : ((p / q / (j + 2) : ℕ) : ℤ) ≤ (p / j : ℕ) := by exact_mod_cast hterm
    simp only [arctanSum]
    omega

theorem piScaled_le (n : ℕ) : piScaled n ≤ 2 ^ (n + 2) := by
  have h5 := (arctanSum_bounds 25 (n / 4 + 2) (2 ^ n / 5) 1 one_pos).2
  have h239 := (arctanSum_bounds 57121 (n / 4 + 2) (2 ^ n / 239) 1 one_pos).1
  have hpow : 2 ^ (n + 2) = 4 * 2 ^ n := by ring
  simp only [piScaled, Nat.div_one] at *
  omega

section
variable {f : Fmt} (hf : Interchange f)
include hf

theorem piF_finite : ∃ p : ℕ,
    valF f (piF f) = .fin false p ∧ Representable f p ∧ p ≤ 2 ^ (qexp f + 2) := by
  have hle : roundMag f (piScaled (f.mb + 64) * 2 ^ qexp f) (2 ^ (f.mb + 64)) ≤
      2 ^ (qexp f + 2) := by
    refine roundMag_le (by positivity) (representable_two_pow f _) ?_
    calc piScaled (f.mb + 64) * 2 ^ qexp f ≤ 2 ^ (f.mb + 64 + 2) * 2 ^ qexp f :=
          Nat.mul_le_mul_right _ (piScaled_le _)
      _ = 2 ^ (qexp f + 2) * 2 ^ (f.mb + 64) := by ring
  refine ⟨_, ?_, representable_roundMag f _ _, hle⟩
  rw [piF, valF_litF hf, Fp.ofRat, round_eq,
    if_pos (hle.trans_lt (two_pow_lt_overflow hf (by norm_num)))]

/-- Doubling PI_F is exact. -/
theorem tauF_eq_two_mul {p : ℕ} (hp : valF f (piF f) = .fin false p) (hrep : Representable f p)
    (hle : p ≤ 2 ^ (qexp f + 2)) : valF f (tauF f) = .fin false (2 * p) := by
  have hover : p * 2 ^ 1 < overflow f := by
    refine lt_of_le_of_lt ?_ (two_pow_lt_overflow hf (k := 3) (by norm_num))
    rw [show qexp f + 3 = qexp f + 2 + 1 from rfl, pow_succ _ (qexp f + 2)]
    omega
  have hround := round_exact false (representable_mul_two_pow hrep 1)
    (Nat.two_pow_pos (qexp f)) hover
  rw [tauF, valF_fmul hf, valF_two hf, hp, Fp.mul]
  rw [show 2 ^ (qexp f + 1) * p = p * 2 ^ 1 * 2 ^ qexp f by ring, show 2 * p = p * 2 ^ 1 by ring]
  exact hround

end

theorem valF_piF_binary32 :
    valF .binary32 (piF .binary32) = .fin false (13176795 * 2 ^ 127) := by decide +kernel

theorem valF_piF_binary64 :
    valF .binary64 (piF .binary64) = .fin false (7074237752028440 * 2 ^ 1023) := by decide +kernel

/-- A multiple `k` of the unit `2^t` that is π to half a unit, counted in units of `2^-t` quanta, is
nearest to π. -/
theorem pi_nearest {f : Fmt} {k t j : ℕ} (hj : qexp f = t + j) (hmb : f.mb ≤ j + 1)
    (hpi : |(k : ℝ) - Real.pi * 2 ^ j| ≤ 1 / 2) {r : ℕ} (hr : Representable f r) :
    |((k * 2 ^ t : ℕ) : ℝ) - Real.pi * 2 ^ qexp f| ≤ |(r : ℝ) - Real.pi * 2 ^ qexp f| := by
  have hpow : (2 : ℝ) ^ qexp f = 2 ^ t * 2 ^ j := by rw [hj, pow_add]
  refine (nearest_of_abs_sub_le (Dvd.intro_left k rfl) (t := t) ?_ (.inr ?_) hr).1
  · have hscale : ((k * 2 ^ t : ℕ) : ℝ) - Real.pi * 2 ^ qexp f = (k - Real.pi * 2 ^ j) * 2 ^ t := by
      rw [hpow]
      push_cast
      ring
    rw [hscale, abs_mul, abs_of_pos (by positivity : (0 : ℝ) < 2 ^ t)]
    nlinarith [(by positivity : (0 : ℝ) < 2 ^ t)]
  · calc (2 : ℝ) ^ (f.mb + t) ≤ 2 ^ (qexp f + 1) := pow_le_pow_right₀ (by norm_num) (by omega)
      _ = 2 * 2 ^ qexp f := pow_succ' ..
      _ ≤ Real.pi * 2 ^ qexp f := by gcongr; exact Real.two_le_pi

theorem pi_binary32 : |((13176795 : ℕ) : ℝ) - Real.pi * 2 ^ 22| ≤ 1 / 2 := by
  have hlow := Real.pi_gt_d20
  have hhigh := Real.pi_lt_d20
  rw [abs_le]
  constructor <;> linarith

theorem pi_binary64 : |((7074237752028440 : ℕ) : ℝ) - Real.pi * 2 ^ 51| ≤ 1 / 2 := by
  have hlow := Real.pi_gt_d20
  have hhigh := Real.pi_lt_d20
  rw [abs_le]
  constructor <;> linarith

/-- Settles O50: TAU_F doubles a value far below the threshold, SQRT2_F is a correctly rounded root, and
PI_F is computed in the two formats and compared with π to twenty decimals. -/
theorem constantsAreCorrectlyRounded : Obligations.ConstantsAreCorrectlyRounded := by
  refine ⟨fun f hf => ?_, fun f hf => ?_⟩
  · obtain ⟨p, hp, hrep, hle⟩ := piF_finite hf
    obtain ⟨q, hq, hnear⟩ := sqrt2F_nearest hf
    exact ⟨p, 2 * p, q, hp, tauF_eq_two_mul hf hp hrep hle, hq, rfl, hnear⟩
  · simp only [List.mem_cons, List.not_mem_nil, or_false] at hf
    rcases hf with rfl | rfl
    · exact ⟨_, valF_piF_binary32, fun r hr =>
        pi_nearest (by decide) (by decide) pi_binary32 hr⟩
    · exact ⟨_, valF_piF_binary64, fun r hr =>
        pi_nearest (by decide) (by decide) pi_binary64 hr⟩

end Sys2Proof.Machine

/-! ### Words without the identity of a NaN -/

namespace Sys2Proof.Machine

/-! #### One word -/

section
variable {p : Params}

theorem toBits_draw {f : Fmt} {v : Fp} (hv : v ≠ .nan) (d e : Draw) :
    v.toBits f d = v.toBits f e := by
  cases v with
  | nan => exact absurd rfl hv
  | inf neg => rfl
  | fin neg m => rfl

@[simp] theorem valF_forgetF (hF : Interchange p.calcFmt) (w : FWord) :
    valF p.calcFmt (forgetF p w) = valF p.calcFmt w := by
  simp only [forgetF, isNaNF, decide_eq_true_eq]
  split
  case isTrue h => rw [h, valF_wordF hF default (v := .nan) trivial]
  case isFalse => rfl

@[simp] theorem valS_forgetS (hS : Interchange p.sampleFmt) (w : SWord) :
    valS p.sampleFmt (forgetS p w) = valS p.sampleFmt w := by
  simp only [forgetS, isNaNS, decide_eq_true_eq]
  split
  case isTrue h => rw [h, valS, wordS, ofBits_toBits hS default (v := .nan) trivial]
  case isFalse => rfl

@[simp] theorem forgetF_forgetF (hF : Interchange p.calcFmt) (w : FWord) :
    forgetF p (forgetF p w) = forgetF p w := by
  rw [forgetF, isNaNF, valF_forgetF hF]
  split
  case isTrue h => rw [forgetF, isNaNF, if_pos h]
  case isFalse => rfl

@[simp] theorem forgetS_forgetS (hS : Interchange p.sampleFmt) (w : SWord) :
    forgetS p (forgetS p w) = forgetS p w := by
  rw [forgetS, isNaNS, valS_forgetS hS]
  split
  case isTrue h => rw [forgetS, isNaNS, if_pos h]
  case isFalse => rfl

theorem valS_eq_of_forgetS (hS : Interchange p.sampleFmt) {x y : SWord}
    (h : forgetS p x = forgetS p y) :
    valS p.sampleFmt x = valS p.sampleFmt y := by
  rw [← valS_forgetS hS x, h, valS_forgetS hS]

/-- The word written for a value, whatever the draw, up to the identity of a NaN. -/
theorem forgetF_wordF (hF : Interchange p.calcFmt) (d : Draw) {v : Fp} (hv : v.InFormat p.calcFmt) :
    forgetF p (wordF p.calcFmt d v) = wordF p.calcFmt default v := by
  simp only [forgetF, isNaNF, valF_wordF hF d hv, decide_eq_true_eq]
  split
  case isTrue h => rw [h]
  case isFalse h => rw [wordF, toBits_draw h d default, wordF]

theorem forgetS_wordS (hS : Interchange p.sampleFmt) (d : Draw) {v : Fp}
    (hv : v.InFormat p.sampleFmt) :
    forgetS p (wordS p.sampleFmt d v) = wordS p.sampleFmt default v := by
  simp only [forgetS, isNaNS, valS, wordS, ofBits_toBits hS d hv, decide_eq_true_eq]
  split
  case isTrue h => rw [h]
  case isFalse h => rw [toBits_draw h d default]

end

/-! #### The operations: a result, up to the identity of a NaN, is a function of the operands' values -/

section
variable {p : Params} (hF : Interchange p.calcFmt) (d : Draw) (a b : FWord)
include hF

@[simp] theorem forgetF_fadd : forgetF p (fadd p.calcFmt d a b) =
    wordF p.calcFmt default (Fp.add p.calcFmt (valF p.calcFmt a) (valF p.calcFmt b)) :=
  forgetF_wordF hF d (inFormat_add _ _)

@[simp] theorem forgetF_fsub : forgetF p (fsub p.calcFmt d a b) =
    wordF p.calcFmt default (Fp.sub p.calcFmt (valF p.calcFmt a) (valF p.calcFmt b)) :=
  forgetF_wordF hF d (inFormat_add _ _)

@[simp] theorem forgetF_fmul : forgetF p (fmul p.calcFmt d a b) =
    wordF p.calcFmt default (Fp.mul p.calcFmt (valF p.calcFmt a) (valF p.calcFmt b)) :=
  forgetF_wordF hF d (inFormat_mul _ _)

@[simp] theorem forgetF_fdiv : forgetF p (fdiv p.calcFmt d a b) =
    wordF p.calcFmt default (Fp.div p.calcFmt (valF p.calcFmt a) (valF p.calcFmt b)) :=
  forgetF_wordF hF d (inFormat_div _ _)

@[simp] theorem forgetF_fneg : forgetF p (fneg p.calcFmt d a) =
    wordF p.calcFmt default (valF p.calcFmt a).neg :=
  forgetF_wordF hF d (inFormat_neg (inFormat_valF hF a))

/-- The value of a function without a body depends on the value of its operand. -/
@[simp] theorem valF_applyF (g : FWord → FWord) : valF p.calcFmt (applyF p.calcFmt g d a) =
    valF p.calcFmt (g (wordF p.calcFmt default (valF p.calcFmt a))) :=
  valF_wordF hF d (inFormat_valF hF _)

@[simp] theorem forgetF_applyF (g : FWord → FWord) : forgetF p (applyF p.calcFmt g d a) =
    wordF p.calcFmt default (valF p.calcFmt (g (wordF p.calcFmt default (valF p.calcFmt a)))) :=
  forgetF_wordF hF d (inFormat_valF hF _)

@[simp] theorem valF_toF (x : SWord) : valF p.calcFmt (toF p d x) =
    Fp.convert p.sampleFmt p.calcFmt (valS p.sampleFmt x) :=
  valF_wordF hF d (inFormat_convert _ _)

@[simp] theorem forgetF_toF (x : SWord) : forgetF p (toF p d x) =
    wordF p.calcFmt default (Fp.convert p.sampleFmt p.calcFmt (valS p.sampleFmt x)) :=
  forgetF_wordF hF d (inFormat_convert _ _)

/-- Narrowing depends on the operand up to the identity of a NaN. -/
@[simp] theorem forgetS_toS (hS : Interchange p.sampleFmt) :
    forgetS p (toS p d a) = toS p default (forgetF p a) := by
  simp only [toS]
  split
  case isTrue h =>
    by_cases hnan : Fp.ofBits p.calcFmt a.bits = .nan <;>
      simp [forgetS, forgetF, isNaNS, isNaNF, valS, valF, wordS, wordF, ← h, hnan]
  case isFalse => rw [forgetS_wordS hS d (inFormat_convert _ _), valF_forgetF hF]

@[simp] theorem flt_forgetF : flt p.calcFmt (forgetF p a) (forgetF p b) = flt p.calcFmt a b := by
  rw [flt, flt, valF_forgetF hF, valF_forgetF hF]

end

/-! #### Functions of several operations, on operands that are the same up to NaN identity -/

section
variable {p : Params} (hF : Interchange p.calcFmt)
include hF

theorem valF_eq_of_forgetF {a b : FWord} (h : forgetF p a = forgetF p b) :
    valF p.calcFmt a = valF p.calcFmt b := by
  rw [← valF_forgetF hF a, h, valF_forgetF hF]

theorem valF_eq_of_mapCoefs {c c' : Coefs} (h : mapCoefs (forgetF p) c = mapCoefs (forgetF p) c') :
    valF p.calcFmt c.a1 = valF p.calcFmt c'.a1 ∧ valF p.calcFmt c.a2 = valF p.calcFmt c'.a2 ∧
      valF p.calcFmt c.b0 = valF p.calcFmt c'.b0 ∧ valF p.calcFmt c.b1 = valF p.calcFmt c'.b1 ∧
      valF p.calcFmt c.b2 = valF p.calcFmt c'.b2 := by
  obtain ⟨ha1, ha2, hb0, hb1, hb2⟩ := Coefs.mk.inj h
  exact ⟨valF_eq_of_forgetF hF ha1, valF_eq_of_forgetF hF ha2, valF_eq_of_forgetF hF hb0,
    valF_eq_of_forgetF hF hb1, valF_eq_of_forgetF hF hb2⟩

variable (d e : Draws) {sr sr' fc fc' bw bw' : FWord} (hsr : forgetF p sr = forgetF p sr')
  (hfc : forgetF p fc = forgetF p fc') (hbw : forgetF p bw = forgetF p bw')

include hsr in
theorem sampleDuration_forget (d e : Draw) :
    forgetF p (sampleDuration p.calcFmt d sr) = forgetF p (sampleDuration p.calcFmt e sr') := by
  simp (disch := assumption) [sampleDuration, valF_eq_of_forgetF hF hsr]

include hsr hfc

theorem butterCoefs_forget :
    mapCoefs (forgetF p) (butterCoefs p.calcFmt d sr fc) =
      mapCoefs (forgetF p) (butterCoefs p.calcFmt e sr' fc') := by
  simp (disch := assumption) [mapCoefs, butterCoefs, ftan, valF_eq_of_forgetF hF hsr,
    valF_eq_of_forgetF hF hfc]

theorem lowpoleCoeff_forget :
    forgetF p (lowpoleCoeff p.calcFmt d sr fc) = forgetF p (lowpoleCoeff p.calcFmt e sr' fc') := by
  simp (disch := assumption) [lowpoleCoeff, fexp, valF_eq_of_forgetF hF hsr,
    valF_eq_of_forgetF hF hfc]

theorem dcCoeff_forget :
    forgetF p (dcCoeff p.calcFmt d sr fc) = forgetF p (dcCoeff p.calcFmt e sr' fc') := by
  simp (disch := assumption) [dcCoeff, valF_eq_of_forgetF hF hsr, valF_eq_of_forgetF hF hfc]

include hbw in
theorem resonCoefs_forget :
    mapCoefs (forgetF p) (resonCoefs p d sr fc bw) =
      mapCoefs (forgetF p) (resonCoefs p e sr' fc' bw') := by
  cases hform : p.b0Form <;>
    simp (disch := assumption) [mapCoefs, resonCoefs, resonCoefsOf, hform, fexp, fcos,
      valF_eq_of_forgetF hF hsr, valF_eq_of_forgetF hF hfc, valF_eq_of_forgetF hF hbw]

end

section
variable {p : Params} (hF : Interchange p.calcFmt) (d e : Draws) {k k' x0 x0' x1 x1' y1 y1' : FWord}
  (hk : forgetF p k = forgetF p k') (hx0 : forgetF p x0 = forgetF p x0')
  (hx1 : forgetF p x1 = forgetF p x1') (hy1 : forgetF p y1 = forgetF p y1')
include hF

include hk hx0 hx1 hy1 in
theorem dcblockValue_forget :
    forgetF p (dcblockValue p.calcFmt d k x0 x1 y1) =
      forgetF p (dcblockValue p.calcFmt e k' x0' x1' y1') := by
  simp (disch := assumption) [dcblockValue, valF_eq_of_forgetF hF hk, valF_eq_of_forgetF hF hx0,
    valF_eq_of_forgetF hF hx1, valF_eq_of_forgetF hF hy1]

include hk hx0 hy1 in
theorem lowpoleValue_forget :
    forgetF p (lowpoleValue p.calcFmt d k x0 y1) =
      forgetF p (lowpoleValue p.calcFmt e k' x0' y1') := by
  simp (disch := assumption) [lowpoleValue, valF_eq_of_forgetF hF hk, valF_eq_of_forgetF hF hx0,
    valF_eq_of_forgetF hF hy1]

variable {c c' : Coefs} (hc : mapCoefs (forgetF p) c = mapCoefs (forgetF p) c')
include hc

theorem fresp_forget {omega omega' : FWord} (homega : forgetF p omega = forgetF p omega') :
    forgetF p (fresp p.calcFmt d c omega).1 = forgetF p (fresp p.calcFmt e c' omega').1 ∧
      forgetF p (fresp p.calcFmt d c omega).2 = forgetF p (fresp p.calcFmt e c' omega').2 := by
  obtain ⟨ha1, ha2, hb0, hb1, hb2⟩ := valF_eq_of_mapCoefs hF hc
  have hcoefs : canonCoefs p.calcFmt c = canonCoefs p.calcFmt c' := by
    simp only [canonCoefs, canonF, ha1, ha2, hb0, hb1, hb2]
  have hargs : canonF p.calcFmt omega = canonF p.calcFmt omega' := by
    rw [canonF, canonF, valF_eq_of_forgetF hF homega]
  simp only [fresp, hcoefs, hargs, forgetF_wordF hF _ (inFormat_valF hF _), and_self]

/-- The recurrence: the delay registers it leaves and its value. -/
theorem biquadStep_forget (hS : Interchange p.sampleFmt) {z z' : Delays} {x x' : SWord}
    (hz : mapDelays (forgetF p) z = mapDelays (forgetF p) z') (hx : forgetS p x = forgetS p x') :
    mapDelays (forgetF p) (biquadStep p d c z x).1 =
        mapDelays (forgetF p) (biquadStep p e c' z' x').1 ∧
      forgetF p (biquadStep p d c z x).2 = forgetF p (biquadStep p e c' z' x').2 := by
  obtain ⟨ha1, ha2, hb0, hb1, hb2⟩ := valF_eq_of_mapCoefs hF hc
  obtain ⟨hx1, hx2, hy1, hy2⟩ := Delays.mk.inj hz
  simp (disch := assumption) [biquadStep, mapDelays, ha1, ha2, hb0, hb1, hb2, hx1, hy1,
    valS_eq_of_forgetS hS hx, valF_eq_of_forgetF hF hx1, valF_eq_of_forgetF hF hx2,
    valF_eq_of_forgetF hF hy1, valF_eq_of_forgetF hF hy2]

end

end Sys2Proof.Machine

/-! ### Commands without the identity of a NaN -/

namespace Sys2Proof.Machine

/-! #### The registers of each kind, and what a command leaves and returns -/

section
variable (g : FWord → FWord)

@[simp] def BqRegs.mapF (r : BqRegs) : BqRegs :=
  ⟨mapCoefs g r.coefs, mapDelays g r.delays, r.hash⟩

@[simp] def ButterRegs.mapF (r : ButterRegs) : ButterRegs :=
  ⟨g r.sr, g r.cutoff, mapCoefs g r.coefs, mapDelays g r.delays, r.hash⟩

@[simp] def ResonRegs.mapF (r : ResonRegs) : ResonRegs :=
  ⟨g r.sr, g r.center, g r.bandwidth, mapCoefs g r.coefs, mapDelays g r.delays, r.hash⟩

@[simp] def LowpoleRegs.mapF (r : LowpoleRegs) : LowpoleRegs :=
  ⟨g r.sr, g r.cutoff, g r.coeff, g r.value, r.hash⟩

@[simp] def DcblockRegs.mapF (r : DcblockRegs) : DcblockRegs :=
  ⟨g r.sr, g r.cutoff, g r.coeff, g r.x1, g r.y1, r.hash⟩

@[simp] def DeclickRegs.mapF (r : DeclickRegs) : DeclickRegs :=
  ⟨g r.dt, g r.duration, g r.t, r.hash⟩

@[simp] def SineRegs.mapF (r : SineRegs) : SineRegs := ⟨g r.dt, g r.phase, r.hash⟩

@[simp] theorem mapF_bq (r : BqRegs) : (Node.bq r).mapF g = .bq (r.mapF g) := rfl
@[simp] theorem mapF_butter (r : ButterRegs) : (Node.butter r).mapF g = .butter (r.mapF g) := rfl
@[simp] theorem mapF_reson (r : ResonRegs) : (Node.reson r).mapF g = .reson (r.mapF g) := rfl
@[simp] theorem mapF_lowpole (r : LowpoleRegs) : (Node.lowpole r).mapF g = .lowpole (r.mapF g) := rfl
@[simp] theorem mapF_dcblock (r : DcblockRegs) : (Node.dcblock r).mapF g = .dcblock (r.mapF g) := rfl
@[simp] theorem mapF_declick (r : DeclickRegs) : (Node.declick r).mapF g = .declick (r.mapF g) := rfl
@[simp] theorem mapF_sine (r : SineRegs) : (Node.sine r).mapF g = .sine (r.mapF g) := rfl

variable (node : Node)

theorem bqOf_mapF : bqOf (node.mapF g) = (bqOf node).map (BqRegs.mapF g) := by cases node <;> rfl

theorem butterOf_mapF : butterOf (node.mapF g) = (butterOf node).map (ButterRegs.mapF g) := by
  cases node <;> rfl

theorem resonOf_mapF : resonOf (node.mapF g) = (resonOf node).map (ResonRegs.mapF g) := by
  cases node <;> rfl

theorem lowpoleOf_mapF : lowpoleOf (node.mapF g) = (lowpoleOf node).map (LowpoleRegs.mapF g) := by
  cases node <;> rfl

theorem dcblockOf_mapF : dcblockOf (node.mapF g) = (dcblockOf node).map (DcblockRegs.mapF g) := by
  cases node <;> rfl

theorem declickOf_mapF : declickOf (node.mapF g) = (declickOf node).map (DeclickRegs.mapF g) := by
  cases node <;> rfl

theorem mlsOf_mapF : mlsOf (node.mapF g) = (mlsOf node).map id := by cases node <;> rfl

theorem mlsnoiseOf_mapF : mlsnoiseOf (node.mapF g) = (mlsnoiseOf node).map id := by cases node <;> rfl

theorem noiseOf_mapF : noiseOf (node.mapF g) = (noiseOf node).map id := by cases node <;> rfl

theorem sineOf_mapF : sineOf (node.mapF g) = (sineOf node).map (SineRegs.mapF g) := by
  cases node <;> rfl

end

/-- The registers a command leaves and the words it returns, without the identity of a NaN. -/
@[simp] def forgetReply (p : Params) (x : Node × List XferWord) : Node × List XferWord :=
  (x.1.mapF (forgetF p), x.2.map (XferWord.forget p))

/-- What a command answers, without the identity of a NaN. -/
def forgetOutcome : Host.Outcome State Fault Refusal → Host.Outcome State Fault Refusal
  | .next s => .next s.forget
  | .fault r => .fault r
  | .refused r => .refused r

@[simp] theorem forget_f (p : Params) (w : FWord) : XferWord.forget p (.f w) = .f (forgetF p w) := rfl
@[simp] theorem forget_s (p : Params) (w : SWord) : XferWord.forget p (.s w) = .s (forgetS p w) := rfl
@[simp] theorem forget_u32 (p : Params) (w : U32) : XferWord.forget p (.u32 w) = .u32 w := rfl
@[simp] theorem forget_done (p : Params) (rs : List XferWord) :
    CmdOutcome.forget p (.done rs) = .done (rs.map (XferWord.forget p)) := rfl
@[simp] theorem forget_faulted (p : Params) (c : FaultCause) (w : BitVec 32) :
    CmdOutcome.forget p (.faulted c w) = .faulted c w := rfl
@[simp] theorem forget_params (s : State) : s.forget.params = s.params := rfl

theorem target_forget (s : State) : s.forget.target? = s.target?.map (Inst.forget s.params) := by
  simp [State.target?, State.forget]

section
variable {p : Params} (hF : Interchange p.calcFmt)
include hF

@[simp] theorem mapCoefs_forget_idem (c : Coefs) :
    mapCoefs (forgetF p) (mapCoefs (forgetF p) c) = mapCoefs (forgetF p) c := by
  simp (disch := assumption) [mapCoefs]

@[simp] theorem mapDelays_forget_idem (z : Delays) :
    mapDelays (forgetF p) (mapDelays (forgetF p) z) = mapDelays (forgetF p) z := by
  simp (disch := assumption) [mapDelays]

theorem mapF_forget_idem (node : Node) :
    (node.mapF (forgetF p)).mapF (forgetF p) = node.mapF (forgetF p) := by
  cases node <;> simp (disch := assumption) [Node.mapF]

variable (hS : Interchange p.sampleFmt)
include hS

theorem forget_idem_xferWord (w : XferWord) :
    XferWord.forget p (XferWord.forget p w) = XferWord.forget p w := by
  cases w <;> simp (disch := assumption)

theorem forget_idem_outcome (o : CmdOutcome) :
    CmdOutcome.forget p (CmdOutcome.forget p o) = CmdOutcome.forget p o := by
  cases o with
  | done rs => simp [forget_idem_xferWord hF hS]
  | faulted c w => rfl

theorem forget_idem_inst (n : Inst) : (n.forget p).forget p = n.forget p := by
  simp [Inst.forget, mapF_forget_idem hF, forget_idem_outcome hF hS]

end

/-! #### The shared operations -/

section
variable {s : State} (hF : Interchange s.params.calcFmt) (hS : Interchange s.params.sampleFmt)
include hF hS

/-- Replacing what the command addresses, up to the identity of NaNs. -/
theorem setTarget_forget {n n' : Inst} (h : n.forget s.params = n'.forget s.params) :
    (s.setTarget n).forget = (s.forget.setTarget n').forget := by
  simp [State.forget, State.setTarget, List.map_set, h, Function.comp_def, forget_idem_inst hF hS]

/-- An operation on what the command addresses that cannot tell which NaN a word is. -/
theorem onTarget_forget {f f' : Inst → Inst}
    (h : ∀ n, (f n).forget s.params = (f' (n.forget s.params)).forget s.params) :
    forgetOutcome (s.onTarget f) = forgetOutcome (s.forget.onTarget f') := by
  have ht := target_forget s
  cases hs : s.target? with
  | none =>
    rw [hs] at ht
    rw [onTarget_missing hs, onTarget_missing ht]
  | some n =>
    rw [hs] at ht
    by_cases hf : n.faultCause = .none
    · rw [onTarget_live hs hf, onTarget_live ht hf]
      exact congrArg Host.Outcome.next (setTarget_forget hF hS (h n))
    · rw [onTarget_faulted hs hf, onTarget_faulted ht hf]

theorem raise_forget (c : FaultCause) (w : BitVec 32) (n : Inst) :
    (n.raise c w).forget s.params = ((n.forget s.params).raise c w).forget s.params := by
  simp [Inst.forget, Inst.raise, mapF_forget_idem hF, forget_idem_outcome hF hS]

theorem complete_forget {x y : Node × List XferWord}
    (h : forgetReply s.params x = forgetReply s.params y) (n : Inst) :
    (n.complete x.1 x.2).forget s.params =
      ((n.forget s.params).complete y.1 y.2).forget s.params := by
  obtain ⟨hnode, hres⟩ := Prod.mk.inj h
  simp [Inst.forget, Inst.complete, hnode, hres, forget_idem_outcome hF hS]

theorem construct_forget {node node' : Draws → Node}
    (h : ∀ d e, (node d).mapF (forgetF s.params) = (node' e).mapF (forgetF s.params)) :
    forgetOutcome (construct s node) = forgetOutcome (construct s.forget node') :=
  onTarget_forget hF hS fun n =>
    complete_forget hF hS (x := (_, [])) (y := (_, [])) (Prod.ext (h _ _) rfl) n

theorem onUnit_forget {R : Type} {regs : Node → Option R} {mapR : R → R}
    {f f' : Draws → R → Node × List XferWord}
    (hregs : ∀ node, regs (node.mapF (forgetF s.params)) = (regs node).map mapR)
    (h : ∀ d e r, forgetReply s.params (f d r) = forgetReply s.params (f' e (mapR r))) :
    forgetOutcome (onUnit regs s f) = forgetOutcome (onUnit regs s.forget f') := by
  refine onTarget_forget hF hS fun n => ?_
  have hn : regs (n.forget s.params).node = (regs n.node).map mapR := hregs n.node
  cases hr : regs n.node with
  | none =>
    simp only [hn, hr, Option.map_none]
    exact raise_forget hF hS _ _ n
  | some r =>
    simp only [hn, hr, Option.map_some]
    exact complete_forget hF hS (h _ _ r) n

end

/-! #### The parts of the replies -/

section
variable {p : Params} (hF : Interchange p.calcFmt)
include hF

theorem feq_eq_of_forgetF {a a' b b' : FWord} (ha : forgetF p a = forgetF p a')
    (hb : forgetF p b = forgetF p b') : feq p.calcFmt a b = feq p.calcFmt a' b' := by
  rw [feq, feq, valF_eq_of_forgetF hF ha, valF_eq_of_forgetF hF hb]

/-- The lazy recomputation of a TICK, from a control that is the same up to the identity of a NaN. -/
theorem butterRecompute_forget (d e : Draws) {c c' : FWord} (hc : forgetF p c = forgetF p c')
    (r : ButterRegs) :
    (butterRecompute p.calcFmt d c r).mapF (forgetF p) =
      (butterRecompute p.calcFmt e c' (r.mapF (forgetF p))).mapF (forgetF p) := by
  have hsr := (forgetF_forgetF hF r.sr).symm
  have hfeq : feq p.calcFmt c r.cutoff = feq p.calcFmt c' (r.mapF (forgetF p)).cutoff :=
    feq_eq_of_forgetF hF hc (forgetF_forgetF hF r.cutoff).symm
  rw [butterRecompute, butterRecompute, hfeq]
  split
  case isTrue => simp (disch := assumption)
  case isFalse => simp (disch := assumption) [hc, butterCoefs_forget hF d e hsr hc]

theorem resonRecompute_forget (d e : Draws) {c c' b b' : FWord} (hc : forgetF p c = forgetF p c')
    (hb : forgetF p b = forgetF p b') (r : ResonRegs) :
    (resonRecompute p d c b r).mapF (forgetF p) =
      (resonRecompute p e c' b' (r.mapF (forgetF p))).mapF (forgetF p) := by
  have hsr := (forgetF_forgetF hF r.sr).symm
  have hcenter : feq p.calcFmt c r.center = feq p.calcFmt c' (r.mapF (forgetF p)).center :=
    feq_eq_of_forgetF hF hc (forgetF_forgetF hF r.center).symm
  have hbandwidth : feq p.calcFmt b r.bandwidth = feq p.calcFmt b' (r.mapF (forgetF p)).bandwidth :=
    feq_eq_of_forgetF hF hb (forgetF_forgetF hF r.bandwidth).symm
  rw [resonRecompute, resonRecompute, hcenter, hbandwidth]
  split
  case isTrue => simp (disch := assumption)
  case isFalse =>
    simp (disch := assumption) [hc, hb, resonCoefs_forget hF d e hsr hc hb]

theorem lowpoleRecompute_forget (d e : Draws) {c c' : FWord} (hc : forgetF p c = forgetF p c')
    (r : LowpoleRegs) :
    (lowpoleRecompute p.calcFmt d c r).mapF (forgetF p) =
      (lowpoleRecompute p.calcFmt e c' (r.mapF (forgetF p))).mapF (forgetF p) := by
  have hsr := (forgetF_forgetF hF r.sr).symm
  have hfeq : feq p.calcFmt c r.cutoff = feq p.calcFmt c' (r.mapF (forgetF p)).cutoff :=
    feq_eq_of_forgetF hF hc (forgetF_forgetF hF r.cutoff).symm
  rw [lowpoleRecompute, lowpoleRecompute, hfeq]
  split
  case isTrue => simp (disch := assumption)
  case isFalse => simp (disch := assumption) [hc, lowpoleCoeff_forget hF d e hsr hc]

theorem toF_forget (hS : Interchange p.sampleFmt) (d e : Draw) (x : SWord) :
    forgetF p (toF p d x) = forgetF p (toF p e (forgetS p x)) := by
  simp (disch := assumption)

theorem responseResult_forget (d e : Draws) (c : Coefs) (omega : FWord) :
    (responseResult p.calcFmt d c omega).map (XferWord.forget p) =
      (responseResult p.calcFmt e (mapCoefs (forgetF p) c) (forgetF p omega)).map
        (XferWord.forget p) := by
  obtain ⟨hre, him⟩ := fresp_forget hF d e (mapCoefs_forget_idem hF c).symm
    (forgetF_forgetF hF omega).symm
  simp [responseResult, hre, him]

theorem sampleResult_forget (hS : Interchange p.sampleFmt) (d e : Draw) {y y' : FWord}
    (h : forgetF p y = forgetF p y') :
    (sampleResult p d y).map (XferWord.forget p) = (sampleResult p e y').map (XferWord.forget p) := by
  simp (disch := assumption) [sampleResult, h]

theorem lcgSample_forget (hS : Interchange p.sampleFmt) (d e : Draws) (x : U64) :
    forgetS p (lcgSample p d x) = forgetS p (lcgSample p e x) := by
  simp only [lcgSample, forgetS_toS hF _ _ hS, forgetF_fsub hF, valF_fmul hF]

end

/-! #### The commands -/

/-- A command with its operand words without the identity of a NaN. -/
def forgetInstr (p : Params) : Instr → Instr
  | .bqReset sr => .bqReset (sr.map (forgetF p))
  | .bqTick x => .bqTick (forgetS p x)
  | .bqSetCoefs a1 a2 b0 b1 b2 =>
    .bqSetCoefs (forgetF p a1) (forgetF p a2) (forgetF p b0) (forgetF p b1) (forgetF p b2)
  | .bqResponse omega => .bqResponse (forgetF p omega)
  | .butterNew sr fc => .butterNew (forgetF p sr) (forgetF p fc)
  | .butterReset sr => .butterReset (sr.map (forgetF p))
  | .butterTick x cutoff => .butterTick (forgetS p x) (forgetS p cutoff)
  | .butterResponse omega => .butterResponse (forgetF p omega)
  | .resonNew sr fc bw => .resonNew (forgetF p sr) (forgetF p fc) (forgetF p bw)
  | .resonReset sr => .resonReset (sr.map (forgetF p))
  | .resonTick x center bandwidth =>
    .resonTick (forgetS p x) (forgetS p center) (forgetS p bandwidth)
  | .resonResponse omega => .resonResponse (forgetF p omega)
  | .lowpoleNew sr fc => .lowpoleNew (forgetF p sr) (forgetF p fc)
  | .lowpoleReset sr => .lowpoleReset (sr.map (forgetF p))
  | .lowpoleTick x cutoff => .lowpoleTick (forgetS p x) (forgetS p cutoff)
  | .dcblockNew sr fc => .dcblockNew (forgetF p sr) (forgetF p fc)
  | .dcblockReset sr => .dcblockReset (sr.map (forgetF p))
  | .dcblockTick x => .dcblockTick (forgetS p x)
  | .declickNew sr dur => .declickNew (forgetF p sr) (forgetF p dur)
  | .declickReset sr => .declickReset (sr.map (forgetF p))
  | .declickTick x => .declickTick (forgetS p x)
  | .mlsnoiseReset sr => .mlsnoiseReset (sr.map (forgetF p))
  | .noiseReset sr => .noiseReset (sr.map (forgetF p))
  | .sineNew sr => .sineNew (forgetF p sr)
  | .sineReset sr => .sineReset (sr.map (forgetF p))
  | .sineTick freq => .sineTick (forgetS p freq)
  | i => i

/-- The command is built from its fields and its operand words without the identity of a NaN. -/
theorem build_forget (p : Params) (i : Instr) :
    build i.fields (i.operands.map (XferWord.forget p)) = some (forgetInstr p i) := by
  cases i
  case bqReset sr | butterReset sr | resonReset sr | lowpoleReset sr | dcblockReset sr |
      declickReset sr | mlsnoiseReset sr | noiseReset sr | sineReset sr =>
    cases sr <;> rfl
  all_goals rfl

section
variable {s : State} (hF : Interchange s.params.calcFmt) (hS : Interchange s.params.sampleFmt)
include hF hS

theorem execBqTick_forget (x : SWord) :
    forgetOutcome (execBqTick x s) = forgetOutcome (execBqTick (forgetS s.params x) s.forget) := by
  refine onUnit_forget hF hS (bqOf_mapF _) fun d e r => ?_
  obtain ⟨hz, hy⟩ := biquadStep_forget hF d e (mapCoefs_forget_idem hF r.coefs).symm hS
    (mapDelays_forget_idem hF r.delays).symm (forgetS_forgetS hS x).symm
  refine Prod.ext ?_ (sampleResult_forget hF hS _ _ hy)
  simpa (disch := assumption) using hz

theorem execButterTick_forget (x cutoff : SWord) :
    forgetOutcome (execButterTick x cutoff s) =
      forgetOutcome (execButterTick (forgetS s.params x) (forgetS s.params cutoff) s.forget) := by
  refine onUnit_forget hF hS (butterOf_mapF _) fun d e r => ?_
  have hr := butterRecompute_forget hF (drawsFrom d 20) (drawsFrom e 20)
    (toF_forget hF hS (d 11) (e 11) cutoff) r
  obtain ⟨hsr, hcutoff, hc, hz, hhash⟩ := ButterRegs.mk.inj hr
  obtain ⟨hz, hy⟩ := biquadStep_forget hF d e hc hS hz (forgetS_forgetS hS x).symm
  refine Prod.ext ?_ (sampleResult_forget hF hS _ _ hy)
  exact congrArg Node.butter (by simp only [hsr, hcutoff, hc, hhash, hz, forget_params])

theorem execResonTick_forget (x center bandwidth : SWord) :
    forgetOutcome (execResonTick x center bandwidth s) =
      forgetOutcome (execResonTick (forgetS s.params x) (forgetS s.params center)
        (forgetS s.params bandwidth) s.forget) := by
  refine onUnit_forget hF hS (resonOf_mapF _) fun d e r => ?_
  have hr := resonRecompute_forget hF (drawsFrom d 20) (drawsFrom e 20)
    (toF_forget hF hS (d 11) (e 11) center) (toF_forget hF hS (d 12) (e 12) bandwidth) r
  obtain ⟨hsr, hcenter, hbandwidth, hc, hz, hhash⟩ := ResonRegs.mk.inj hr
  obtain ⟨hz, hy⟩ := biquadStep_forget hF d e hc hS hz (forgetS_forgetS hS x).symm
  refine Prod.ext ?_ (sampleResult_forget hF hS _ _ hy)
  exact congrArg Node.reson (by simp only [hsr, hcenter, hbandwidth, hc, hhash, hz, forget_params])

theorem execLowpoleTick_forget (x cutoff : SWord) :
    forgetOutcome (execLowpoleTick x cutoff s) =
      forgetOutcome (execLowpoleTick (forgetS s.params x) (forgetS s.params cutoff) s.forget) := by
  refine onUnit_forget hF hS (lowpoleOf_mapF _) fun d e r => ?_
  have hr := lowpoleRecompute_forget hF (drawsFrom d 20) (drawsFrom e 20)
    (toF_forget hF hS (d 11) (e 11) cutoff) r
  obtain ⟨hsr, hcutoff, hcoeff, hvalue, hhash⟩ := LowpoleRegs.mk.inj hr
  have hy := lowpoleValue_forget hF d e hcoeff (toF_forget hF hS (d 12) (e 12) x) hvalue
  refine Prod.ext ?_ (sampleResult_forget hF hS _ _ hy)
  exact congrArg Node.lowpole (by simp only [hsr, hcutoff, hcoeff, hhash, hy, forget_params])

theorem execDcblockTick_forget (x : SWord) :
    forgetOutcome (execDcblockTick x s) =
      forgetOutcome (execDcblockTick (forgetS s.params x) s.forget) := by
  refine onUnit_forget hF hS (dcblockOf_mapF _) fun d e r => ?_
  have hx := toF_forget hF hS (d 12) (e 12) x
  have hy := dcblockValue_forget hF d e (forgetF_forgetF hF r.coeff).symm hx
    (forgetF_forgetF hF r.x1).symm (forgetF_forgetF hF r.y1).symm
  refine Prod.ext ?_ (sampleResult_forget hF hS _ _ hy)
  exact congrArg Node.dcblock
    (by simp only [DcblockRegs.mapF, forgetF_forgetF hF, hx, hy, forget_params])

theorem execDeclickTick_forget (x : SWord) :
    forgetOutcome (execDeclickTick x s) =
      forgetOutcome (execDeclickTick (forgetS s.params x) s.forget) := by
  refine onUnit_forget hF hS (declickOf_mapF _) fun d e r => ?_
  have hflt := flt_forgetF hF r.t r.duration
  simp only [DeclickRegs.mapF, forget_params, hflt]
  split
  case isTrue =>
    refine Prod.ext ?_ (sampleResult_forget hF hS _ _ ?_)
    · simp (disch := assumption)
    · simp (disch := assumption) [smooth9]
  case isFalse => simp (disch := assumption)

theorem execNoiseTick_forget :
    forgetOutcome (execNoiseTick s) = forgetOutcome (execNoiseTick s.forget) := by
  refine onUnit_forget hF hS (noiseOf_mapF _) fun d e r => Prod.ext rfl ?_
  exact congrArg (fun w => [XferWord.s w]) (lcgSample_forget hF hS d e (lcgNext r.x))

theorem execSineTick_forget (freq : SWord) :
    forgetOutcome (execSineTick freq s) =
      forgetOutcome (execSineTick (forgetS s.params freq) s.forget) := by
  refine onUnit_forget hF hS (sineOf_mapF _) fun d e r => ?_
  refine Prod.ext ?_ (sampleResult_forget hF hS _ _ ?_)
  · simp (disch := assumption)
  · simp (disch := assumption) [fsin]

/-- No command can tell which NaN a word is. -/
theorem exec_forget (i : Instr) :
    forgetOutcome (exec i s) = forgetOutcome (exec (forgetInstr s.params i) s.forget) := by
  have same w := (forgetF_forgetF hF w).symm
  cases i <;> simp only [exec, forgetInstr]
  case bqNew | noiseNew => exact construct_forget hF hS fun _ _ => rfl
  case bqReset | bqSetHash | bqSetCoefs =>
    refine onUnit_forget hF hS (bqOf_mapF _) fun d e r => ?_
    simp (disch := assumption) [mapCoefs]
  case bqTick x => exact execBqTick_forget hF hS x
  case bqResponse omega =>
    refine onUnit_forget hF hS (bqOf_mapF _) fun d e r => ?_
    simp (disch := assumption) [responseResult_forget hF d e]
  case butterNew sr fc =>
    refine construct_forget hF hS fun d e => ?_
    simp (disch := assumption) [butterCoefs_forget hF d e (same sr) (same fc)]
  case butterReset sr =>
    refine onUnit_forget hF hS (butterOf_mapF _) fun d e r => ?_
    cases sr with
    | none => simp (disch := assumption) [rebindRate, rebindCoef]
    | some q =>
      simp (disch := assumption) [rebindRate, rebindCoef,
        butterCoefs_forget hF d e (same q) (same r.cutoff)]
  case butterSetHash =>
    refine onUnit_forget hF hS (butterOf_mapF _) fun d e r => ?_
    simp (disch := assumption)
  case butterTick x cutoff => exact execButterTick_forget hF hS x cutoff
  case butterResponse omega =>
    refine onUnit_forget hF hS (butterOf_mapF _) fun d e r => ?_
    simp (disch := assumption) [responseResult_forget hF d e]
  case resonNew sr fc bw =>
    refine construct_forget hF hS fun d e => ?_
    simp (disch := assumption) [resonCoefs_forget hF d e (same sr) (same fc) (same bw)]
  case resonReset sr =>
    refine onUnit_forget hF hS (resonOf_mapF _) fun d e r => ?_
    cases sr with
    | none => simp (disch := assumption) [rebindRate, rebindCoef]
    | some q =>
      simp (disch := assumption) [rebindRate, rebindCoef,
        resonCoefs_forget hF d e (same q) (same r.center) (same r.bandwidth)]
  case resonSetHash =>
    refine onUnit_forget hF hS (resonOf_mapF _) fun d e r => ?_
    simp (disch := assumption)
  case resonTick x center bandwidth => exact execResonTick_forget hF hS x center bandwidth
  case resonResponse omega =>
    refine onUnit_forget hF hS (resonOf_mapF _) fun d e r => ?_
    simp (disch := assumption) [responseResult_forget hF d e]
  case lowpoleNew sr fc =>
    refine construct_forget hF hS fun d e => ?_
    simp (disch := assumption) [lowpoleCoeff_forget hF d e (same sr) (same fc)]
  case lowpoleReset sr =>
    refine onUnit_forget hF hS (lowpoleOf_mapF _) fun d e r => ?_
    cases sr with
    | none => simp (disch := assumption) [rebindRate, rebindCoef]
    | some q =>
      simp (disch := assumption) [rebindRate, rebindCoef,
        lowpoleCoeff_forget hF d e (same q) (same r.cutoff)]
  case lowpoleSetHash =>
    refine onUnit_forget hF hS (lowpoleOf_mapF _) fun d e r => ?_
    simp (disch := assumption)
  case lowpoleTick x cutoff => exact execLowpoleTick_forget hF hS x cutoff
  case dcblockNew sr fc =>
    refine construct_forget hF hS fun d e => ?_
    simp (disch := assumption) [dcCoeff_forget hF d e (same sr) (same fc)]
  case dcblockReset sr =>
    refine onUnit_forget hF hS (dcblockOf_mapF _) fun d e r => ?_
    cases sr with
    | none =>
      simp (disch := assumption) [rebindRate, dcCoeff_forget hF d e (same r.sr) (same r.cutoff)]
    | some q =>
      simp (disch := assumption) [rebindRate, dcCoeff_forget hF d e (same q) (same r.cutoff)]
  case dcblockSetHash =>
    refine onUnit_forget hF hS (dcblockOf_mapF _) fun d e r => ?_
    simp (disch := assumption)
  case dcblockTick x => exact execDcblockTick_forget hF hS x
  case declickNew sr dur =>
    refine construct_forget hF hS fun d e => ?_
    simp (disch := assumption) [sampleDuration_forget hF (same sr) (d 0) (e 0)]
  case declickReset sr =>
    refine onUnit_forget hF hS (declickOf_mapF _) fun d e r => ?_
    cases sr with
    | none => simp (disch := assumption) [rebindCoef]
    | some q =>
      simp (disch := assumption) [rebindCoef, sampleDuration_forget hF (same q) (d 0) (e 0)]
  case declickSetHash =>
    refine onUnit_forget hF hS (declickOf_mapF _) fun d e r => ?_
    simp (disch := assumption)
  case declickTick x => exact execDeclickTick_forget hF hS x
  case mlsNew n st =>
    refine onTarget_forget hF hS fun inst => ?_
    simp only [mlsConstruct]
    split
    · exact raise_forget hF hS _ _ inst
    split
    · exact raise_forget hF hS _ _ inst
    · exact complete_forget hF hS (x := (_, [])) (y := (_, [])) rfl inst
  case mlsNext | mlsValue | mlsState => exact onUnit_forget hF hS (mlsOf_mapF _) fun _ _ _ => rfl
  case mlsNewSeed n seed =>
    refine onTarget_forget hF hS fun inst => ?_
    split
    · exact raise_forget hF hS _ _ inst
    · exact complete_forget hF hS (x := (_, [])) (y := (_, [])) rfl inst
  case mlsnoiseNew n =>
    refine onTarget_forget hF hS fun inst => ?_
    split
    · exact raise_forget hF hS _ _ inst
    · exact complete_forget hF hS (x := (_, [])) (y := (_, [])) rfl inst
  case mlsnoiseReset | mlsnoiseSetHash | mlsnoiseTick =>
    exact onUnit_forget hF hS (mlsnoiseOf_mapF _) fun _ _ _ => rfl
  case noiseReset | noiseSetHash => exact onUnit_forget hF hS (noiseOf_mapF _) fun _ _ _ => rfl
  case noiseTick => exact execNoiseTick_forget hF hS
  case sineNew sr =>
    refine construct_forget hF hS fun d e => ?_
    simp (disch := assumption) [sampleDuration_forget hF (same sr) (d 0) (e 0)]
  case sineReset sr =>
    refine onUnit_forget hF hS (sineOf_mapF _) fun d e r => ?_
    cases sr with
    | none => simp (disch := assumption) [rebindCoef]
    | some q =>
      simp (disch := assumption) [rebindCoef, sampleDuration_forget hF (same q) (d 0) (e 0)]
  case sineSetHash =>
    refine onUnit_forget hF hS (sineOf_mapF _) fun d e r => ?_
    simp (disch := assumption)
  case sineTick freq => exact execSineTick_forget hF hS freq

end

end Sys2Proof.Machine

/-! ### The identity of a NaN is never observed -/

namespace Sys2Proof.Machine

theorem next_of_forgetOutcome {t : State} {o : Host.Outcome State Fault Refusal}
    (h : forgetOutcome o = forgetOutcome (.next t)) : ∃ v, o = .next v ∧ v.forget = t.forget := by
  cases o with
  | next v => exact ⟨v, rfl, Host.Outcome.next.inj h⟩
  | fault r => cases h
  | refused r => cases h

/-- Commands with the same fields, whose operands differ in NaN identities alone. -/
theorem forgetInstr_eq {p : Params} {i j : Instr} (hfields : i.fields = j.fields)
    (hops : i.operands.map (XferWord.forget p) = j.operands.map (XferWord.forget p)) :
    forgetInstr p i = forgetInstr p j :=
  Option.some.inj (by rw [← build_forget p i, ← build_forget p j, hfields, hops])

/-- Settles O54: each of the two commands answers as the command and the state without the identity of
any NaN do, and these are the same for both. -/
theorem nanIdentityIsNeverObserved : Obligations.NanIdentityIsNeverObserved := by
  rintro i j s u t ⟨hF, hS, -⟩ hfields hops hsu hst
  have hpar : s.forget.params = u.forget.params := congrArg State.params hsu
  simp only [forget_params] at hpar
  have hs := exec_forget hF hS i
  have hu := exec_forget (hpar ▸ hF) (hpar ▸ hS) j
  rw [← hpar, ← hsu, ← forgetInstr_eq hfields hops, ← hs, hst] at hu
  exact next_of_forgetOutcome hu

/-! ### Repeated commands -/

/-- The registers and the last outcome of `m` and `n` are the same up to the identity of NaNs. -/
def SameReply (p : Params) (m n : Inst) : Prop :=
  n.node.mapF (forgetF p) = m.node.mapF (forgetF p) ∧
    n.outcomes.head?.map (CmdOutcome.forget p) = m.outcomes.head?.map (CmdOutcome.forget p)

section
variable {R : Type} {regs : Node → Option R} {f f' : Draws → R → Node × List XferWord}
  {s t u : State} {l m n : Inst}

theorem target_of_next {o : Host.Outcome State Fault Refusal} {l' : Inst} (hl : s.target? = some l)
    (ho : o = .next (s.setTarget l')) (hst : o = .next t) (hm : t.target? = some m) : m = l' := by
  obtain rfl := Host.Outcome.next.inj (ho.symm.trans hst)
  exact Option.some.inj (hm.symm.trans (target_setTarget hl))

/-- A command that was followed by another one found its unit's registers and completed. -/
theorem onUnit_completed (hst : onUnit regs s f = .next t) (hl : s.target? = some l)
    (hm : t.target? = some m) (hlive : m.faultCause = .none) :
    ∃ r, regs l.node = some r ∧ m = l.complete (f (s.drawsOf l) r).1 (f (s.drawsOf l) r).2 := by
  obtain ⟨l', hl', hf, -⟩ := onTarget_next hst
  obtain rfl := Option.some.inj (hl.symm.trans hl')
  cases hr : regs l.node with
  | none =>
    rw [target_of_next hl (onUnit_mismatch hl hf hr) hst hm] at hlive
    cases hlive
  | some r => exact ⟨r, rfl, target_of_next hl (onUnit_live hl hf hr) hst hm⟩

theorem live_of_onUnit_next (htu : onUnit regs t f' = .next u) (hm : t.target? = some m) :
    m.faultCause = .none := by
  obtain ⟨m', hm', hlive, -⟩ := onTarget_next htu
  obtain rfl := Option.some.inj (hm.symm.trans hm')
  exact hlive

theorem onUnit_repeat {p : Params} (hst : onUnit regs s f = .next t)
    (htu : onUnit regs t f' = .next u) (hl : s.target? = some l) (hm : t.target? = some m)
    (hn : u.target? = some n)
    (h : ∀ d e r, ∃ r', regs (f d r).1 = some r' ∧
      forgetReply p (f' e r') = forgetReply p (f d r)) :
    SameReply p m n := by
  have hlive := live_of_onUnit_next htu hm
  obtain ⟨r, -, hm'⟩ := onUnit_completed hst hl hm hlive
  obtain ⟨r', hr', hreply⟩ := h (s.drawsOf l) (t.drawsOf m) r
  have hmr : regs m.node = some r' := by rw [hm', complete_node, hr']
  have hn' := target_of_next hm (onUnit_live hm hlive hmr) htu hn
  obtain ⟨hnode, hres⟩ := Prod.mk.inj hreply
  constructor
  · rw [hn', complete_node, hnode, hm', complete_node]
  · rw [hn', hm']
    simp only [complete_outcomes, List.head?_cons, Option.map_some, forget_done]
    rw [← hm', hres]

/-- A command that gives back the registers it found. -/
theorem onUnit_query (hst : onUnit regs s f = .next t) (htu : onUnit regs t f' = .next u)
    (hl : s.target? = some l) (hm : t.target? = some m)
    (h : ∀ d node r, regs node = some r → (f d r).1 = node) : m.node = l.node := by
  obtain ⟨r, hr, hm'⟩ := onUnit_completed hst hl hm (live_of_onUnit_next htu hm)
  rw [hm', complete_node, h _ _ r hr]

end

section
variable {s t u : State} {l m n : Inst} {i : Instr}

theorem exec_params (hst : exec i s = .next t) : t.params = s.params := by
  obtain ⟨_, _, -, -, rfl, -⟩ := exec_next hst
  rfl

/-- A query, SETHASH or RESET, performed twice. -/
theorem exec_repeat (hF : Interchange s.params.calcFmt)
    (hop : i.fields.op ∈ [Op.reset, .setHash, .response, .value, .state])
    (hst : exec i s = .next t) (htu : exec i t = .next u)
    (hl : s.target? = some l) (hm : t.target? = some m) (hn : u.target? = some n) :
    SameReply s.params m n := by
  have hpar := exec_params hst
  cases i <;> simp only [exec] at hst htu
  case bqReset | bqSetHash | butterSetHash | resonSetHash | lowpoleSetHash | dcblockSetHash |
      declickSetHash | mlsValue | mlsState | mlsnoiseReset | mlsnoiseSetHash | noiseReset |
      noiseSetHash | sineSetHash =>
    exact onUnit_repeat hst htu hl hm hn fun d e r => ⟨_, rfl, rfl⟩
  case bqResponse omega | butterResponse omega | resonResponse omega =>
    refine onUnit_repeat hst htu hl hm hn fun d e r => ⟨_, rfl, ?_⟩
    have hresp := fresp_forget hF e d (c := r.coefs) rfl (omega := omega) rfl
    simp [responseResult, hpar, hresp]
  case butterReset sr =>
    refine onUnit_repeat hst htu hl hm hn fun d e r => ⟨_, rfl, ?_⟩
    cases sr with
    | none => rfl
    | some q => simp [rebindRate, rebindCoef, hpar, butterCoefs_forget hF e d rfl rfl]
  case resonReset sr =>
    refine onUnit_repeat hst htu hl hm hn fun d e r => ⟨_, rfl, ?_⟩
    cases sr with
    | none => rfl
    | some q => simp [rebindRate, rebindCoef, hpar, resonCoefs_forget hF e d rfl rfl rfl]
  case lowpoleReset sr =>
    refine onUnit_repeat hst htu hl hm hn fun d e r => ⟨_, rfl, ?_⟩
    cases sr with
    | none => rfl
    | some q => simp [rebindRate, rebindCoef, hpar, lowpoleCoeff_forget hF e d rfl rfl]
  case dcblockReset sr =>
    refine onUnit_repeat hst htu hl hm hn fun d e r => ⟨_, rfl, ?_⟩
    cases sr with
    | none => simp [rebindRate, hpar, dcCoeff_forget hF e d rfl rfl]
    | some q => simp [rebindRate, hpar, dcCoeff_forget hF e d rfl rfl]
  case declickReset sr =>
    refine onUnit_repeat hst htu hl hm hn fun d e r => ⟨_, rfl, ?_⟩
    cases sr with
    | none => rfl
    | some q => simp [rebindCoef, hpar, sampleDuration_forget hF rfl (e 0) (d 0)]
  case sineReset sr =>
    refine onUnit_repeat hst htu hl hm hn fun d e r => ⟨_, rfl, ?_⟩
    cases sr with
    | none => simp [rebindCoef, hpar]
    | some q => simp [rebindCoef, hpar, sampleDuration_forget hF rfl (e 0) (d 0)]
  all_goals simp [Instr.fields] at hop

/-- A query leaves every register. -/
theorem exec_query (hop : i.fields.op ∈ [Op.response, .value, .state])
    (hst : exec i s = .next t) (htu : exec i t = .next u)
    (hl : s.target? = some l) (hm : t.target? = some m) : m.node = l.node := by
  cases i <;> simp only [exec] at hst htu
  case bqResponse | butterResponse | resonResponse | mlsValue | mlsState =>
    refine onUnit_query hst htu hl hm fun d node r hr => ?_
    cases node <;> cases hr
    rfl
  all_goals simp [Instr.fields, resetFields] at hop

end

/-- Settles O55: each of these commands, performed on what it left, gives the same reply up to its NaN
draws, and a query replies with the registers it found. -/
theorem repeatedCommandIsOnce : Obligations.RepeatedCommandIsOnce := by
  rintro s t u i l m n ⟨hF, -⟩ hop hst htu hl hm hn
  obtain ⟨hnode, hout⟩ := exec_repeat hF hop hst htu hl hm hn
  exact ⟨hnode, hout, fun hquery => exec_query hquery hst htu hl hm⟩

end Sys2Proof.Machine

end

section
/-! SUPPORT. Proofs of the statements about the state: the Mls range as an invariant of every step, what
a command reads and writes, what is faulted, and the state at power-on. -/

-- Elaborating one declaration at a time keeps this text within the memory the check allows.
set_option Elab.async false

/-! ### Invariants of every step

A property of every `Inst` is kept by an operation that keeps it of the addressed one, and so by a step
when taking a fault and every command keep it. -/

namespace Sys2Proof.Machine

section
variable {s t : State}

theorem onTarget_all {P : Inst → Prop} {f : Inst → Inst} (hs : s.All P)
    (h : s.onTarget f = .next t) (hf : ∀ n, P n → P (f n)) : t.All P := by
  obtain ⟨n, hn, -, rfl⟩ := onTarget_next h
  exact all_setTarget hs (hf n (hs n (target_mem hn)))

theorem construct_all {P : Node → Prop} {node : Draws → Node} (hs : s.All fun n => P n.node)
    (h : construct s node = .next t) (hnode : ∀ d, P (node d)) : t.All fun n => P n.node :=
  onTarget_all hs h fun _ _ => hnode _

theorem onUnit_all {P : Node → Prop} {R : Type} {regs : Node → Option R}
    {f : Draws → R → Node × List XferWord} (hs : s.All fun n => P n.node)
    (h : onUnit regs s f = .next t)
    (hf : ∀ d node r, regs node = some r → P node → P (f d r).1) : t.All fun n => P n.node := by
  refine onTarget_all hs h fun n hn => ?_
  split
  case h_1 => exact hn
  case h_2 r hr => exact hf _ _ r hr hn

/-- Everything a performed command with a next state can be: an illegal word that raises its fault, or
a command whose operand words fit (30_encoding.md R118, 60_exceptions.md R362). -/
theorem perform_cases {c : Command} (h : perform c s = .next t) :
    (decode c.word c.operands = .illegalWord ∧ raiseIllegal s = .next t) ∨
    ∃ i, decode c.word c.operands = .ok i ∧ operandsFit s.params c.operands = true ∧
      exec i s = .next t := by
  have hwrong : wrongOperands s ≠ .next t := by
    simp only [wrongOperands]
    split
    · simp
    · split <;> simp
  simp only [perform] at h
  split at h
  case h_1 hd => exact .inl ⟨hd, h⟩
  case h_2 => exact absurd h hwrong
  case h_3 i hd =>
    split at h
    case isTrue hfit => exact .inr ⟨i, hd, hfit, h⟩
    case isFalse => exact absurd h hwrong

theorem step_params (h : step s = .next t) : t.params = s.params := by
  obtain ⟨-, rfl⟩ | ⟨_, _, _, _, -, -, -, rfl, -⟩ := step_next h <;> rfl

/-- A property of every `Inst` that taking a fault keeps, and that every command keeps in a block with
the same parameters, is kept by every step. -/
theorem step_all {P : Inst → Prop} (hraise : ∀ n c w, P n → P (n.raise c w))
    (hexec : ∀ i u v, u.params = s.params → u.All P → exec i u = .next v → v.All P)
    (hs : s.All P) (h : step s = .next t) : t.All P := by
  obtain ⟨-, rfl⟩ | ⟨c, rest, _, _, -, -, -, -, -, hperform⟩ := step_next h
  · exact hs
  · obtain ⟨-, hraised⟩ | ⟨i, -, -, hdone⟩ := perform_cases hperform
    · exact onTarget_all (s := s.deliver c rest) hs hraised fun n => hraise n _ _
    · exact hexec i (s.deliver c rest) t rfl hs hdone

end

end Sys2Proof.Machine

/-! ### The Mls functions

Their values on the widths from 1 to 31, for which the masks and states fit a word (43_mls.md R263). -/

namespace Sys2Proof.Machine

theorem validWidth_iff {n : ℕ} : validWidth n = true ↔ 1 ≤ n ∧ n ≤ 31 := by simp [validWidth]

section
variable {n : ℕ} (h31 : n ≤ 31)
include h31

theorem toNat_widthMask : (widthMask n).toNat = 2 ^ n - 1 := by
  have hlt : 2 ^ n < 2 ^ 32 := Nat.pow_lt_pow_right (by decide) (by omega)
  have hpos : 0 < 2 ^ n := Nat.two_pow_pos n
  simp only [widthMask, Nat.shiftLeft_eq, one_mul, BitVec.natCast_eq_ofNat, BitVec.ofNat_eq_ofNat,
    BitVec.toNat_sub, BitVec.toNat_ofNat, Nat.mod_eq_of_lt hlt]
  omega

theorem getLsbD_widthMask (i : ℕ) : (widthMask n).getLsbD i = decide (i < n) := by
  rw [BitVec.getLsbD, toNat_widthMask h31, Nat.testBit_two_pow_sub_one]

/-- The seed formula on numbers (43_mls.md R264). -/
theorem toNat_mlsSeed (h1 : 1 ≤ n) (seed : U32) :
    (mlsSeed n seed).toNat = 1 + seed.toNat % (2 ^ n - 1) := by
  have hlt : 2 ^ n < 2 ^ 32 := Nat.pow_lt_pow_right (by decide) (by omega)
  have hone : 2 ^ 1 ≤ 2 ^ n := Nat.pow_le_pow_right (by decide) h1
  have hmod := Nat.mod_lt seed.toNat (show 2 ^ n - 1 > 0 by omega)
  simp only [mlsSeed, BitVec.toNat_add, BitVec.toNat_umod, toNat_widthMask h31,
    BitVec.ofNat_eq_ofNat, BitVec.toNat_ofNat]
  omega

theorem mlsSeed_bounds (h1 : 1 ≤ n) (seed : U32) :
    1 ≤ (mlsSeed n seed).toNat ∧ (mlsSeed n seed).toNat < 2 ^ n := by
  have hone : 2 ^ 1 ≤ 2 ^ n := Nat.pow_le_pow_right (by decide) h1
  have hmod := Nat.mod_lt seed.toNat (show 2 ^ n - 1 > 0 by omega)
  rw [toNat_mlsSeed h31 h1]
  omega

/-- Bit 0 of the next state is the parity of the masked state, and every other bit below n is the bit
below it (43_mls.md R265). -/
theorem getLsbD_mlsNext (poly : ℕ → U32) (s : U32) (i : ℕ) :
    (mlsNext poly n s).getLsbD i = (decide (i < n) &&
      if i = 0 then decide (popcount (poly n &&& s) % 2 = 1) else s.getLsbD (i - 1)) := by
  simp only [mlsNext, BitVec.getLsbD_and, BitVec.getLsbD_or, BitVec.getLsbD_shiftLeft,
    BitVec.getLsbD_ofNat, getLsbD_widthMask h31]
  rcases Nat.lt_or_ge i n with hi | hi
  · cases i with
    | zero => simp [hi]
    | succ j =>
      have hhigh : (popcount (poly n &&& s) % 2).testBit (j + 1) = false :=
        Nat.testBit_eq_false_of_lt
          ((Nat.mod_lt _ (by decide)).trans_le (Nat.le_self_pow (by omega) 2))
      simp [hi, hhigh, show j + 1 < 32 by omega]
  · simp [Nat.not_lt.mpr hi]

theorem toNat_mlsNext_lt (poly : ℕ → U32) (s : U32) : (mlsNext poly n s).toNat < 2 ^ n := by
  rw [mlsNext, BitVec.toNat_and, toNat_widthMask h31, Nat.and_two_pow_sub_one_eq_mod]
  exact Nat.mod_lt _ (Nat.two_pow_pos n)

end

theorem popcount_eq_one {v : U32} {k : ℕ} (hk : k < 32)
    (h : ∀ i, v.getLsbD i = decide (i = k)) : popcount v = 1 := by
  have hcount := List.count_eq_one_of_mem List.nodup_range (List.mem_range.mpr hk)
  rw [popcount, ← hcount, List.count]
  exact List.countP_congr fun i _ => by simp [h]

/-- A nonzero state of n bits in which no bit but n - 1 is set has that bit alone. -/
theorem getLsbD_top_of_ne_zero {n : ℕ} {s : U32} (hs : s ≠ 0)
    (hlow : ∀ j, j ≠ n - 1 → s.getLsbD j = false) : s.getLsbD (n - 1) = true := by
  by_contra htop
  refine hs (BitVec.eq_of_getLsbD_eq fun j _ => ?_)
  rw [BitVec.ofNat_eq_ofNat, BitVec.getLsbD_zero]
  rcases eq_or_ne j (n - 1) with rfl | hj
  · exact Bool.eq_false_iff.mpr htop
  · exact hlow j hj

/-- If the next state were 0, every bit below n - 1 would be 0; then the state is bit n - 1 alone, which
the mask has, and the parity that comes in is 1. -/
theorem mlsNext_ne_zero {poly : ℕ → U32} {n : ℕ} {s : U32} (h1 : 1 ≤ n) (h31 : n ≤ 31)
    (hpoly : (poly n).getLsbD (n - 1) = true) (hs : s ≠ 0) (hlt : s.toNat < 2 ^ n) :
    mlsNext poly n s ≠ 0 := by
  intro hzero
  have hbit i : (mlsNext poly n s).getLsbD i = false := by
    rw [hzero, BitVec.ofNat_eq_ofNat, BitVec.getLsbD_zero]
  have hlow j (hj : j ≠ n - 1) : s.getLsbD j = false := by
    rcases Nat.lt_or_ge j n with hjn | hjn
    · have hnext := hbit (j + 1)
      rw [getLsbD_mlsNext h31] at hnext
      simpa [show j + 1 < n by omega] using hnext
    · exact Nat.testBit_eq_false_of_lt (hlt.trans_le (Nat.pow_le_pow_right (by decide) hjn))
  have hparity : popcount (poly n &&& s) = 1 := by
    refine popcount_eq_one (k := n - 1) (by omega) fun i => ?_
    rcases eq_or_ne i (n - 1) with rfl | hi
    · simp [hpoly, getLsbD_top_of_ne_zero hs hlow]
    · simp [hlow i hi, hi]
  have hfeedback := hbit 0
  rw [getLsbD_mlsNext h31] at hfeedback
  simp [hparity, show 0 < n by omega] at hfeedback

theorem one_le_toNat_iff {v : U32} : 1 ≤ v.toNat ↔ v ≠ 0 := by
  rw [Nat.one_le_iff_ne_zero, ne_eq, ne_eq, BitVec.toNat_eq]
  rfl

end Sys2Proof.Machine

/-! ### The range of the Mls state -/

namespace Sys2Proof.Machine

theorem mlsInRange_mlsNext {p : Params} (hp : TapsOk p) {n s : U32} (h : MlsInRange n s) :
    MlsInRange n (mlsNext p.mlsPoly n.toNat s) := by
  obtain ⟨h1, h31, hpos, hlt⟩ := h
  obtain ⟨-, hmasks⟩ := hp
  obtain ⟨-, htop⟩ := hmasks ⟨n.toNat - 1, by omega⟩
  rw [Nat.sub_add_cancel h1] at htop
  have hne := mlsNext_ne_zero h1 h31 htop (one_le_toNat_iff.mp hpos) hlt
  exact ⟨h1, h31, one_le_toNat_iff.mpr hne, toNat_mlsNext_lt h31 _ s⟩

/-- The range of the state that a construction of a valid width leaves. -/
theorem mlsInRange_ofNat {n : ℕ} {st : U32} (hn : validWidth n = true)
    (hst : 1 ≤ st.toNat ∧ st.toNat < 2 ^ n) : MlsInRange (BitVec.ofNat 32 n) st := by
  obtain ⟨h1, h31⟩ := validWidth_iff.mp hn
  have hwidth : (BitVec.ofNat 32 n).toNat = n := Nat.mod_eq_of_lt (by omega)
  simp only [MlsInRange, hwidth]
  exact ⟨h1, h31, hst⟩

theorem mlsInRange_ofNat_mlsSeed {n : ℕ} (hn : validWidth n = true) (seed : U32) :
    MlsInRange (BitVec.ofNat 32 n) (mlsSeed n seed) := by
  obtain ⟨h1, h31⟩ := validWidth_iff.mp hn
  exact mlsInRange_ofNat hn (mlsSeed_bounds h31 h1 seed)

theorem mlsOf_eq_some {node : Node} {r : MlsRegs} (h : mlsOf node = some r) : node = .mls r := by
  cases node <;> cases h
  rfl

theorem mlsnoiseOf_eq_some {node : Node} {r : MlsnoiseRegs} (h : mlsnoiseOf node = some r) :
    node = .mlsnoise r := by
  cases node <;> cases h
  rfl

/-- A construction that checks its width first. -/
theorem ite_validWidth_mlsOk {n : ℕ} {w : BitVec 32} {inst inst' : Inst} (h : inst.node.MlsOk)
    (h' : validWidth n = true → inst'.node.MlsOk) :
    (if !validWidth n then inst.raise .widthAbort w else inst').node.MlsOk := by
  split
  case isTrue => exact h
  case isFalse hn => exact h' (by simpa using hn)

theorem mlsConstruct_mlsOk (n : ℕ) (st : U32) (w : BitVec 32) {inst : Inst}
    (h : inst.node.MlsOk) : (mlsConstruct n st w inst).node.MlsOk := by
  refine ite_validWidth_mlsOk h fun hn => ?_
  split
  case isTrue => exact h
  case isFalse hst =>
    obtain ⟨hne, hlt⟩ := not_or.mp hst
    exact mlsInRange_ofNat hn ⟨one_le_toNat_iff.mpr hne, Nat.not_le.mp hlt⟩

/-- No command takes an Mls state out of its range: the constructions check or compute it, RESET seeds
it, NEXT and TICK advance it, and no other command writes it. -/
theorem exec_mlsOk {i : Instr} {s t : State} (hp : TapsOk s.params)
    (hs : s.All fun n => n.node.MlsOk) (h : exec i s = .next t) :
    t.All fun n => n.node.MlsOk := by
  cases i <;> simp only [exec] at h
  case mlsNew n st => exact onTarget_all hs h fun _ => mlsConstruct_mlsOk n st _
  case mlsNewSeed n seed =>
    exact onTarget_all hs h fun _ hinst =>
      ite_validWidth_mlsOk hinst fun hn => mlsInRange_ofNat_mlsSeed hn seed
  case mlsnoiseNew n =>
    exact onTarget_all hs h fun _ hinst =>
      ite_validWidth_mlsOk hinst fun hn => mlsInRange_ofNat_mlsSeed hn _
  case mlsNext =>
    refine onUnit_all hs h fun _ node r hr hnode => ?_
    obtain rfl := mlsOf_eq_some hr
    exact mlsInRange_mlsNext hp hnode
  case mlsValue | mlsState =>
    refine onUnit_all hs h fun _ node r hr hnode => ?_
    obtain rfl := mlsOf_eq_some hr
    exact hnode
  case mlsnoiseReset =>
    refine onUnit_all hs h fun _ node r hr hnode => ?_
    obtain rfl := mlsnoiseOf_eq_some hr
    obtain ⟨h1, h31, -, -⟩ := hnode
    exact ⟨h1, h31, mlsSeed_bounds h31 h1 _⟩
  case mlsnoiseSetHash =>
    refine onUnit_all hs h fun _ node r hr hnode => ?_
    obtain rfl := mlsnoiseOf_eq_some hr
    exact hnode
  case mlsnoiseTick =>
    refine onUnit_all hs h fun _ node r hr hnode => ?_
    obtain rfl := mlsnoiseOf_eq_some hr
    exact mlsInRange_mlsNext hp hnode
  case bqNew | butterNew | resonNew | lowpoleNew | dcblockNew | declickNew | noiseNew | sineNew =>
    exact construct_all hs h fun _ => trivial
  case declickTick =>
    refine onUnit_all hs h fun _ _ _ _ _ => ?_
    dsimp only
    split <;> trivial
  all_goals exact onUnit_all hs h fun _ _ _ _ _ => trivial

/-- Settles O56: a fault keeps every register, and no command leaves an Mls state out of its range. -/
theorem mlsStateStaysInRange : Obligations.MlsStateStaysInRange := by
  intro s t hp hs h
  refine ⟨step_params h ▸ hp, step_all (fun _ _ _ hn => hn) (fun i u v hu hall hv => ?_) hs h⟩
  exact exec_mlsOk (hu ▸ hp) hall hv

end Sys2Proof.Machine

/-! ### What a command reads and writes -/

namespace Sys2Proof.Machine

/-- `u` agrees with `s` on all that a command reads: the parameters, the command in progress and the
`Inst` it addresses (10_state.md R41). -/
structure SameView (s u : State) : Prop where
  params : u.params = s.params
  cur : u.cur = s.cur
  target : u.target? = s.target?

/-- The operation writes the addressed `Inst` alone, and what it leaves there is the same in any state
that agrees on what a command reads. -/
def IsLocal (op : State → Host.Outcome State Fault Refusal) : Prop :=
  ∀ s t, op s = .next t →
    ∃ n, t = s.setTarget n ∧ ∀ u, SameView s u → op u = .next (u.setTarget n)

theorem isLocal_onTarget {F : State → Inst → Inst}
    (hF : ∀ s u : State, u.params = s.params → u.cur = s.cur → F u = F s) :
    IsLocal fun s => s.onTarget (F s) := by
  intro s t h
  obtain ⟨n, hn, hlive, rfl⟩ := onTarget_next h
  refine ⟨F s n, rfl, fun u ⟨hparams, hcur, htarget⟩ => ?_⟩
  rw [← hF s u hparams hcur]
  exact onTarget_live (htarget.trans hn) hlive

theorem isLocal_raiseIllegal : IsLocal raiseIllegal :=
  isLocal_onTarget fun _ _ _ hcur => by rw [hcur]

/-- Every command is an operation on the addressed `Inst` that mentions no field of the state but the
parameters and the command in progress. -/
theorem isLocal_exec (i : Instr) : IsLocal (exec i) := by
  cases i <;>
    exact isLocal_onTarget fun ⟨_, _, _, _⟩ ⟨_, _, _, _⟩ hparams hcur => by
      cases hparams
      cases hcur
      rfl

theorem isLocal_perform (c : Command) : IsLocal (perform c) := by
  intro s t h
  obtain ⟨hd, hraised⟩ | ⟨i, hd, hfit, hdone⟩ := perform_cases h
  · obtain ⟨n, ht, hu⟩ := isLocal_raiseIllegal s t hraised
    exact ⟨n, ht, fun u hview => by simp only [perform, hd, hu u hview]⟩
  · obtain ⟨n, ht, hu⟩ := isLocal_exec i s t hdone
    exact ⟨n, ht, fun u hview => by
      simp only [perform, hd, hview.params, hfit, if_true, hu u hview]⟩

/-- Settles O11: a command writes what it addresses alone, and reads what `SameView` names. -/
theorem commandLeavesOtherInstances : Obligations.CommandLeavesOtherInstances := by
  intro i s t h
  obtain ⟨n, -, hn, -⟩ := exec_next h
  obtain ⟨n', rfl, hlocal⟩ := isLocal_exec i s t h
  refine ⟨⟨by simp, rfl, rfl, rfl, fun j hj => setTarget_other hj⟩, fun u hparams hcur htarget => ?_⟩
  refine ⟨u.setTarget n', hlocal u ⟨hparams, hcur, htarget⟩, ?_⟩
  rw [target_setTarget hn, target_setTarget (htarget.trans hn)]

/-- Settles O13: the one `Inst` that a step writes was not faulted. -/
theorem faultedInstanceNeverChanges : Obligations.FaultedInstanceNeverChanges := by
  intro s t j n h hn hfault
  obtain ⟨-, rfl⟩ | ⟨c, rest, m, m', -, hm, hlive, rfl, -, -⟩ := step_next h
  · exact hn
  · have hj : j ≠ c.inst := by
      rintro rfl
      obtain rfl := Option.some.inj (hn.symm.trans hm)
      exact hfault hlive
    exact (setTarget_other hj).trans hn

/-- A command reads the same after a command to another `Inst` has written that one. -/
theorem sameView_deliver {s : State} {a b : Command} (h : a.inst ≠ b.inst) (n : Inst) :
    SameView (s.deliver b s.pending) (((s.deliver a s.pending).setTarget n).deliver b s.pending) :=
  ⟨rfl, rfl, List.getElem?_set_ne h⟩

/-- Settles O14: each command leaves, performed second, what it leaves when performed first, and the
two writes are of different places, so that their order is nothing. -/
theorem commandsToDifferentInstancesCommute : Obligations.CommandsToDifferentInstancesCommute := by
  intro s sa sb a b hne ha hb
  obtain ⟨na, rfl, hna⟩ := isLocal_perform a _ _ ha
  obtain ⟨nb, rfl, hnb⟩ := isLocal_perform b _ _ hb
  exact ⟨_, _, hnb _ (sameView_deliver hne na), hna _ (sameView_deliver hne.symm nb),
    List.set_comm _ _ hne, rfl⟩

end Sys2Proof.Machine

/-! ### Which commands a kind accepts -/

namespace Sys2Proof.Machine

/-- No command is of the unit NONE (30_encoding.md R104). -/
theorem fields_unit_ne_none (i : Instr) : i.fields.unit ≠ .none := by
  cases i <;> simp [Instr.fields, resetFields]

/-- A command other than a construction is a command of its unit: it finds registers in a node of
that kind alone. -/
theorem exec_eq_onUnit {i : Instr} (h : Op.constructs i.fields.op = false) (s : State) :
    ∃ (R : Type) (regs : Node → Option R) (f : Draws → R → Node × List XferWord),
      exec i s = onUnit regs s f ∧ ∀ node r, regs node = some r → node.kind = i.fields.unit := by
  cases i
  case bqNew | butterNew | resonNew | lowpoleNew | dcblockNew | declickNew | mlsNew | mlsNewSeed |
      mlsnoiseNew | noiseNew | sineNew => cases h
  all_goals
    simp only [exec]
    refine ⟨_, _, _, rfl, fun node r hr => ?_⟩
    cases node <;> cases hr
    rfl

section
variable {i : Instr} {s : State} {n : Inst}

/-- A command of a unit, where KIND is another (30_encoding.md R118 step 4). -/
theorem faults_of_kind_ne (hlive : Live s n) (hop : Op.constructs i.fields.op = false)
    (hkind : n.node.kind ≠ i.fields.unit) : Faults i s n .illegalCommand := by
  obtain ⟨hn, hnone⟩ := hlive
  obtain ⟨R, regs, f, hexec, hregs⟩ := exec_eq_onUnit hop s
  have hmiss : regs n.node = none :=
    Option.eq_none_iff_forall_ne_some.mpr fun r hr => hkind (hregs _ r hr)
  exact ⟨_, hexec.trans (onUnit_mismatch hn hnone hmiss), rfl, rfl, rfl, rfl⟩

/-- A construction takes no fault but those of its width and its state (30_encoding.md R118 step 3). -/
theorem exec_eq_onTarget_of_constructs (h : Op.constructs i.fields.op = true) (s : State) :
    ∃ f, exec i s = s.onTarget f ∧
      ∀ n, n.faultCause = .none → (f n).faultCause ≠ .illegalCommand := by
  cases i
  case bqNew | butterNew | resonNew | lowpoleNew | dcblockNew | declickNew | noiseNew | sineNew =>
    exact ⟨_, rfl, fun n hn => by simp [hn]⟩
  case mlsNew =>
    refine ⟨_, rfl, fun n hn => ?_⟩
    simp only [mlsConstruct]
    split
    · simp
    · split <;> simp [hn]
  case mlsNewSeed | mlsnoiseNew =>
    refine ⟨_, rfl, fun n hn => ?_⟩
    split <;> simp [hn]
  all_goals cases h

theorem not_faults_illegalCommand_of_constructs (hlive : Live s n)
    (hop : Op.constructs i.fields.op = true) : ¬ Faults i s n .illegalCommand := by
  rintro ⟨n', hexec, -, -, hcause, -⟩
  obtain ⟨hn, hnone⟩ := hlive
  obtain ⟨f, hf, hcauses⟩ := exec_eq_onTarget_of_constructs hop s
  rw [target_of_next hn (hf.trans (onTarget_live hn hnone)) hexec (target_setTarget hn)] at hcause
  exact hcauses n hnone hcause

end

end Sys2Proof.Machine

/-! ### Power-on -/

namespace Sys2Proof.Machine

theorem all_powerOn {P : Inst → Prop} (h : P Inst.powerOn) (p : Params) (count : ℕ) :
    (State.powerOn p count).All P := by
  intro n hn
  rwa [List.eq_of_mem_replicate hn]

/-- Settles O15: every `Inst` is `Inst.powerOn`, whose kind is no command's unit. -/
theorem powerOnState : Obligations.PowerOnState := by
  refine ⟨⟨rfl, rfl, rfl, rfl⟩, ⟨Config.numInstances, rfl, by decide⟩, fun p count =>
    ⟨List.length_replicate, all_powerOn ⟨rfl, rfl, rfl, rfl, fun i s hs => ?_⟩ p count⟩⟩
  have hlive : Live s Inst.powerOn := ⟨hs, rfl⟩
  split
  case isTrue hop => exact not_faults_illegalCommand_of_constructs hlive hop
  case isFalse hop =>
    exact faults_of_kind_ne hlive (Bool.eq_false_iff.mpr hop) (fields_unit_ne_none i).symm

/-- Settles O60: `Inst.powerOn` has no register and has reported nothing. -/
theorem powerOnMeetsInvariants : Obligations.PowerOnMeetsInvariants := by
  refine ⟨fun p count => ⟨?mlsOk, ?coefsCurrent, ?fits, ?faultOk⟩, by decide, by decide⟩
  case mlsOk | coefsCurrent => exact all_powerOn trivial p count
  case fits => exact all_powerOn ⟨rfl, fun _ h => absurd h List.not_mem_nil⟩ p count
  case faultOk => exact all_powerOn (.inl ⟨rfl, rfl, fun _ _ => List.not_mem_nil⟩) p count

end Sys2Proof.Machine

end

section
/-! SUPPORT. Proofs of the statements about the words that move between host and block: the width of
every word as an invariant of every step, reading and writing a word and converting it between the
formats, and the command a step performs. -/

-- Elaborating one declaration at a time keeps this text within the memory the check allows.
set_option Elab.async false

/-! ### The widths of words -/

namespace Sys2Proof.Machine

section
variable {f : Fmt}

theorem two_pow_width (f : Fmt) : 2 ^ f.width = 2 ^ (f.eb + f.mb) + 2 ^ f.eb * 2 ^ f.mb := by
  rw [Fmt.width, ← pow_add, add_assoc, pow_add 2 1, pow_one, two_mul]

/-- A sign and bits below the sign bit make a word of the width of the format. -/
theorem signBits_add_lt {neg : Bool} {e frac : ℕ} (he : e < 2 ^ f.eb) (hfrac : frac < 2 ^ f.mb) :
    signBits f neg + (e * 2 ^ f.mb + frac) < 2 ^ f.width := by
  have hsign : signBits f neg ≤ 2 ^ (f.eb + f.mb) := by cases neg <;> simp [signBits]
  have hlow : e * 2 ^ f.mb + frac < 2 ^ f.eb * 2 ^ f.mb :=
    calc e * 2 ^ f.mb + frac < (e + 1) * 2 ^ f.mb := by rw [add_one_mul]; omega
      _ ≤ 2 ^ f.eb * 2 ^ f.mb := Nat.mul_le_mul_right _ he
  rw [two_pow_width]
  omega

/-- The exponent and trailing significand of a finite value of the format. -/
theorem magBits_fields {m : ℕ} (hf : Interchange f) (hrep : Representable f m)
    (hover : m < overflow f) :
    ∃ e frac, e < 2 ^ f.eb ∧ frac < 2 ^ f.mb ∧ magBits f m = e * 2 ^ f.mb + frac := by
  rcases lt_or_ge m (2 ^ f.mb) with hsub | hnormal
  · exact ⟨0, m, by positivity, hsub, by simp [magBits, hsub]⟩
  · obtain ⟨frac, hfrac, hbits, -⟩ := magBits_normal hnormal hrep
    refine ⟨_, frac, ?_, hfrac, hbits⟩
    have heb := four_le_two_pow_eb hf
    rcases two_pow_le_of_spacingExp f m with h | h
    · omega
    · have := (Nat.pow_lt_pow_iff_right (a := 2) (by norm_num)).mp (h.trans_lt hover)
      omega

/-- The word written for a value of the format has the width of the format. -/
theorem toBits_lt (hf : Interchange f) (d : Draw) {v : Fp} (hv : v.InFormat f) :
    v.toBits f d < 2 ^ f.width := by
  have hpos : 0 < 2 ^ f.eb := by positivity
  cases v with
  | nan =>
    have hquiet : 2 ^ f.mb = 2 * 2 ^ (f.mb - 1) := by
      rw [← pow_succ', Nat.sub_add_cancel (by have := twentythree_le_mb hf; omega)]
    have hpay := Nat.mod_lt d.payload (Nat.two_pow_pos (f.mb - 1))
    rw [Fp.toBits, add_assoc, add_assoc]
    exact signBits_add_lt (by omega) (by omega)
  | inf neg => exact signBits_add_lt (frac := 0) (by omega) (by positivity)
  | fin neg m =>
    obtain ⟨hrep, hover⟩ := hv
    obtain ⟨e, frac, he, hfrac, hbits⟩ := magBits_fields hf hrep hover
    rw [Fp.toBits, hbits]
    exact signBits_add_lt he hfrac

/-- Rounding toward zero below the overflow threshold gives a value of the format. -/
theorem inFormat_truncate (neg : Bool) {n d : ℕ} (h : n / d < overflow f) :
    (Fp.truncate f neg n d).InFormat f := by
  simp only [Fp.truncate, ← Nat.div_div_eq_div_mul]
  refine ⟨?_, (Nat.div_mul_le_self _ _).trans_lt h⟩
  rw [spacing_eq_two_pow]
  refine representable_of_le (Nat.le_of_lt ?_) _
  rw [Nat.div_lt_iff_lt_mul (by positivity), ← pow_add]
  exact lt_two_pow_spacingExp f _

end

end Sys2Proof.Machine

/-! ### Words that fit -/

namespace Sys2Proof.Machine

/-- The bits of a word below the width of F. -/
def lowF (p : Params) (w : FWord) : FWord := ⟨w.bits % 2 ^ p.calcFmt.width⟩

section
variable {p : Params}

theorem node_fits_iff {node : Node} : node.Fits p ↔ node.mapF (lowF p) = node := Iff.rfl

theorem lowF_eq_self_iff {w : FWord} : lowF p w = w ↔ w.bits < 2 ^ p.calcFmt.width := by
  rw [← Nat.mod_eq_iff_lt (by positivity)]
  exact ⟨congrArg FWord.bits, congrArg FWord.mk⟩

@[simp] theorem lowF_zeroF : lowF p zeroF = zeroF := lowF_eq_self_iff.mpr (Nat.two_pow_pos _)

@[simp] theorem mapCoefs_lowF_zero : mapCoefs (lowF p) Coefs.zero = Coefs.zero := by
  simp [mapCoefs, Coefs.zero]

@[simp] theorem mapDelays_lowF_zero : mapDelays (lowF p) Delays.zero = Delays.zero := by
  simp [mapDelays, Delays.zero]

@[simp] theorem operandsFit_nil : operandsFit p [] = true := rfl

@[simp] theorem operandsFit_cons {w : XferWord} {ws : List XferWord} :
    operandsFit p (w :: ws) = true ↔ w.fits p = true ∧ operandsFit p ws = true := by
  simp [operandsFit]

@[simp] theorem fits_f {w : FWord} : XferWord.fits p (.f w) = true ↔ lowF p w = w := by
  simp [XferWord.fits, lowF_eq_self_iff]

@[simp] theorem fits_s {w : SWord} :
    XferWord.fits p (.s w) = true ↔ w.bits < 2 ^ p.sampleFmt.width := decide_eq_true_iff

@[simp] theorem fits_u32 {w : U32} : XferWord.fits p (.u32 w) = true := rfl

end

/-! #### The result of every operation fits -/

section
variable {p : Params} (hF : Interchange p.calcFmt) (d : Draw) (a b : FWord)
include hF

theorem lowF_wordF {v : Fp} (hv : v.InFormat p.calcFmt) :
    lowF p (wordF p.calcFmt d v) = wordF p.calcFmt d v :=
  lowF_eq_self_iff.mpr (toBits_lt hF d hv)

@[simp] theorem lowF_fadd : lowF p (fadd p.calcFmt d a b) = fadd p.calcFmt d a b :=
  lowF_wordF hF d (inFormat_add _ _)

@[simp] theorem lowF_fsub : lowF p (fsub p.calcFmt d a b) = fsub p.calcFmt d a b :=
  lowF_wordF hF d (inFormat_add _ _)

@[simp] theorem lowF_fmul : lowF p (fmul p.calcFmt d a b) = fmul p.calcFmt d a b :=
  lowF_wordF hF d (inFormat_mul _ _)

@[simp] theorem lowF_fdiv : lowF p (fdiv p.calcFmt d a b) = fdiv p.calcFmt d a b :=
  lowF_wordF hF d (inFormat_div _ _)

@[simp] theorem lowF_fneg : lowF p (fneg p.calcFmt d a) = fneg p.calcFmt d a :=
  lowF_wordF hF d (inFormat_neg (inFormat_valF hF a))

@[simp] theorem lowF_applyF (g : FWord → FWord) :
    lowF p (applyF p.calcFmt g d a) = applyF p.calcFmt g d a :=
  lowF_wordF hF d (inFormat_valF hF _)

@[simp] theorem lowF_toF (x : SWord) : lowF p (toF p d x) = toF p d x :=
  lowF_wordF hF d (inFormat_convert _ _)

@[simp] theorem lowF_phaseOfHash (h : U32) : lowF p (phaseOfHash p h) = phaseOfHash p h := by
  have hscaled : (scaledPhase p.calcFmt h).InFormat p.calcFmt := by
    refine inFormat_truncate false ?_
    refine lt_trans ?_ (two_pow_lt_overflow hF (k := 0) (by decide))
    rw [Nat.div_lt_iff_lt_mul (by positivity), mul_comm]
    exact Nat.mul_lt_mul_of_pos_left h.isLt (by positivity)
  refine lowF_wordF hF _ ?_
  split
  · exact hscaled
  · dsimp only
    split
    · exact inFormat_valF hF _
    · exact hscaled

end

/-! #### The result words -/

section
variable {p : Params}

theorem fits_wordS (hS : Interchange p.sampleFmt) (d : Draw) {v : Fp}
    (hv : v.InFormat p.sampleFmt) : XferWord.fits p (.s (wordS p.sampleFmt d v)) = true :=
  fits_s.mpr (toBits_lt hS d hv)

/-- Narrowing gives a word of the width of S, also where the formats are the same. -/
theorem fits_toS (hS : Interchange p.sampleFmt) (d : Draw) {w : FWord} (hw : lowF p w = w) :
    XferWord.fits p (.s (toS p d w)) = true := by
  rw [toS]
  split
  case isTrue h => exact fits_s.mpr (h ▸ lowF_eq_self_iff.mp hw)
  case isFalse => exact fits_wordS hS d (inFormat_convert _ _)

theorem fits_litS (hS : Interchange p.sampleFmt) (neg : Bool) (n k : ℕ) :
    XferWord.fits p (.s (litS p.sampleFmt neg n k)) = true :=
  fits_wordS hS _ (inFormat_round _ _ _)

theorem operandsFit_sampleResult (hS : Interchange p.sampleFmt) (d : Draw) {y : FWord}
    (hy : lowF p y = y) : operandsFit p (sampleResult p d y) = true := by
  simp [sampleResult, fits_toS hS d hy]

theorem fits_mlsSample (hS : Interchange p.sampleFmt) (b : U32) :
    XferWord.fits p (.s (mlsSample p.sampleFmt b)) = true := by
  rw [mlsSample]
  split <;> exact fits_litS hS _ _ _

theorem fits_lcgSample (hF : Interchange p.calcFmt) (hS : Interchange p.sampleFmt) (d : Draws)
    (x : U64) : XferWord.fits p (.s (lcgSample p d x)) = true :=
  fits_toS hS _ (lowF_fsub hF _ _ _)

theorem operandsFit_responseResult (hF : Interchange p.calcFmt) (d : Draws) (c : Coefs)
    (omega : FWord) : operandsFit p (responseResult p.calcFmt d c omega) = true := by
  simp [responseResult, fresp, lowF_wordF hF _ (inFormat_valF hF _)]

end

/-! #### What the rules of the commands compute fits -/

section
variable {p : Params} (hF : Interchange p.calcFmt) (d : Draws)
include hF

@[simp] theorem lowF_sampleDuration (d : Draw) (sr : FWord) :
    lowF p (sampleDuration p.calcFmt d sr) = sampleDuration p.calcFmt d sr := lowF_fdiv hF _ _ _

@[simp] theorem mapCoefs_lowF_butterCoefs (sr fc : FWord) :
    mapCoefs (lowF p) (butterCoefs p.calcFmt d sr fc) = butterCoefs p.calcFmt d sr fc := by
  simp (disch := assumption) [mapCoefs, butterCoefs]

@[simp] theorem mapCoefs_lowF_resonCoefs (sr fc bw : FWord) :
    mapCoefs (lowF p) (resonCoefs p d sr fc bw) = resonCoefs p d sr fc bw := by
  cases hform : p.b0Form <;>
    simp (disch := assumption) [mapCoefs, resonCoefs, resonCoefsOf, hform, fexp, fcos]

@[simp] theorem lowF_lowpoleCoeff (sr fc : FWord) :
    lowF p (lowpoleCoeff p.calcFmt d sr fc) = lowpoleCoeff p.calcFmt d sr fc :=
  lowF_applyF hF _ _ _

@[simp] theorem lowF_dcCoeff (sr fc : FWord) :
    lowF p (dcCoeff p.calcFmt d sr fc) = dcCoeff p.calcFmt d sr fc := lowF_fsub hF _ _ _

@[simp] theorem lowF_dcblockValue (k x0 x1 y1 : FWord) :
    lowF p (dcblockValue p.calcFmt d k x0 x1 y1) = dcblockValue p.calcFmt d k x0 x1 y1 :=
  lowF_fadd hF _ _ _

@[simp] theorem lowF_lowpoleValue (k x0 v : FWord) :
    lowF p (lowpoleValue p.calcFmt d k x0 v) = lowpoleValue p.calcFmt d k x0 v := lowF_fadd hF _ _ _

/-- The recurrence keeps the width of the delay registers, two of which it shifts. -/
theorem biquadStep_fits (c : Coefs) {z : Delays} (hz : mapDelays (lowF p) z = z) (x : SWord) :
    mapDelays (lowF p) (biquadStep p d c z x).1 = (biquadStep p d c z x).1 ∧
      lowF p (biquadStep p d c z x).2 = (biquadStep p d c z x).2 := by
  obtain ⟨hx1, -, hy1, -⟩ := Delays.mk.inj hz
  simp (disch := assumption) [biquadStep, mapDelays, hx1, hy1]

end

end Sys2Proof.Machine

/-! ### The operand words of a decoded command -/

namespace Sys2Proof.Machine

theorem rateWords_of_rateOperand {srf : Bool} {ops : List XferWord} {sr : Option FWord}
    (h : rateOperand srf ops = some sr) : rateWords sr = ops := by
  simp only [rateOperand] at h
  split at h <;> cases h <;> rfl

/-- The operand words of a RESET. -/
theorem operands_of_rateOperand {srf : Bool} {ops : List XferWord} {i : Instr}
    {mk : Option FWord → Instr} (h : (rateOperand srf ops).map mk = some i)
    (hmk : ∀ sr, (mk sr).operands = rateWords sr) : i.operands = ops := by
  obtain ⟨sr, hsr, rfl⟩ := Option.map_eq_some_iff.mp h
  rw [hmk, rateWords_of_rateOperand hsr]

/-- A command is built of exactly the operand words that came with its word (30_encoding.md R112): the
cases are the rows of the command table. -/
theorem operands_of_build {f : Fields} {ops : List XferWord} {i : Instr}
    (h : build f ops = some i) : i.operands = ops := by
  obtain ⟨unit, op, srf, n⟩ := f
  cases op
  case new =>
    cases unit
    case none => cases h
    case bq | mlsnoise | noise => match ops, h with | [], rfl => rfl
    case butter | lowpole | dcblock | declick => match ops, h with | [.f _, .f _], rfl => rfl
    case reson => match ops, h with | [.f _, .f _, .f _], rfl => rfl
    case mls => match ops, h with | [.u32 _], rfl => rfl
    case sine => match ops, h with | [.f _], rfl => rfl
  case reset =>
    cases unit
    case none | mls => cases h
    all_goals exact operands_of_rateOperand h fun _ => rfl
  case setHash =>
    cases unit
    case none | mls => cases h
    all_goals match ops, h with | [.u32 _], rfl => rfl
  case tick =>
    cases unit
    case none | mls => cases h
    case bq | dcblock | declick | sine => match ops, h with | [.s _], rfl => rfl
    case butter | lowpole => match ops, h with | [.s _, .s _], rfl => rfl
    case reson => match ops, h with | [.s _, .s _, .s _], rfl => rfl
    case mlsnoise | noise => match ops, h with | [], rfl => rfl
  case setCoefs =>
    cases unit
    case bq => match ops, h with | [.f _, .f _, .f _, .f _, .f _], rfl => rfl
    all_goals cases h
  case response =>
    cases unit
    case bq | butter | reson => match ops, h with | [.f _], rfl => rfl
    all_goals cases h
  case next | value | state =>
    cases unit
    case mls => match ops, h with | [], rfl => rfl
    all_goals cases h
  case newSeed =>
    cases unit
    case mls => match ops, h with | [.u32 _], rfl => rfl
    all_goals cases h

theorem operands_of_decode {w : BitVec 32} {ops : List XferWord} {i : Instr}
    (h : decode w ops = .ok i) : i.operands = ops := by
  simp only [decode] at h
  split at h
  case h_1 => cases h
  case h_2 f _ =>
    split at h
    case h_1 => cases h
    case h_2 i' hbuild =>
      obtain rfl := Decoded.ok.inj h
      exact operands_of_build hbuild

end Sys2Proof.Machine

/-! ### Every step keeps the widths -/

namespace Sys2Proof.Machine

section
variable {p : Params} {n : Inst}

theorem raise_fits (h : n.Fits p) (c : FaultCause) (w : BitVec 32) : (n.raise c w).Fits p := by
  obtain ⟨hnode, hrs⟩ := h
  exact ⟨hnode, fun rs hmem => hrs rs (by simpa using hmem)⟩

/-- The registers a command leaves and the words it returns fit. -/
def ReplyFits (p : Params) (x : Node × List XferWord) : Prop :=
  x.1.mapF (lowF p) = x.1 ∧ operandsFit p x.2 = true

theorem complete_fits (h : n.Fits p) {x : Node × List XferWord} (hx : ReplyFits p x) :
    (n.complete x.1 x.2).Fits p := by
  obtain ⟨-, hrs⟩ := h
  obtain ⟨hnode, hnew⟩ := hx
  refine ⟨hnode, fun rs hmem => ?_⟩
  rcases List.mem_cons.mp hmem with hhead | htail
  · exact CmdOutcome.done.inj hhead ▸ hnew
  · exact hrs rs htail

end

section
variable {p : Params} {s t : State} (hs : s.All (Inst.Fits p))
include hs

theorem construct_fits {node : Draws → Node} (h : construct s node = .next t)
    (hnode : ∀ d, (node d).mapF (lowF p) = node d) : t.All (Inst.Fits p) :=
  onTarget_all hs h fun _ hn => complete_fits hn (x := (_, [])) ⟨hnode _, rfl⟩

/-- A command of one unit, whose registers `mapR` maps as `Node.mapF` maps the node. -/
theorem onUnit_fits {R : Type} {regs : Node → Option R} {mapR : R → R}
    {f : Draws → R → Node × List XferWord} (h : onUnit regs s f = .next t)
    (hregs : ∀ node, regs (node.mapF (lowF p)) = (regs node).map mapR)
    (hf : ∀ d r, mapR r = r → ReplyFits p (f d r)) : t.All (Inst.Fits p) := by
  refine onTarget_all hs h fun n hn => ?_
  have hnode := hregs n.node
  have hlow : n.node.mapF (lowF p) = n.node := node_fits_iff.mp hn.1
  rw [hlow] at hnode
  split
  case h_1 => exact raise_fits hn _ _
  case h_2 r hr =>
    refine complete_fits hn (hf _ r ?_)
    rw [hr, Option.map_some] at hnode
    exact (Option.some.inj hnode).symm

end

theorem ite_fits {p : Params} {c : Prop} [Decidable c] {m n : Inst} (hm : m.Fits p)
    (hn : n.Fits p) : (if c then m else n).Fits p := by
  split <;> assumption

theorem rebindRate_fits {p : Params} {sr : Option FWord} {kept : FWord}
    (hsr : operandsFit p (rateWords sr) = true) (hkept : lowF p kept = kept) :
    lowF p (rebindRate kept sr) = rebindRate kept sr := by
  cases sr with
  | none => exact hkept
  | some q => exact fits_f.mp (operandsFit_cons.mp hsr).1

theorem rebindCoef_eq {α : Type} {g : α → α} {kept : α} {recomputed : FWord → α}
    (hkept : g kept = kept) (hrec : ∀ q, g (recomputed q) = recomputed q) (sr : Option FWord) :
    g (rebindCoef kept recomputed sr) = rebindCoef kept recomputed sr := by
  cases sr with
  | none => exact hkept
  | some q => exact hrec q

section
variable {p : Params} (hF : Interchange p.calcFmt) (d : Draws) {c b : FWord} (hc : lowF p c = c)
include hF hc

theorem butterRecompute_fits {r : ButterRegs} (hr : r.mapF (lowF p) = r) :
    (butterRecompute p.calcFmt d c r).mapF (lowF p) = butterRecompute p.calcFmt d c r := by
  rw [butterRecompute]
  split
  · exact hr
  · obtain ⟨hsr, -, -, hz, -⟩ := ButterRegs.mk.inj hr
    simp (disch := assumption) [hsr, hz, hc]

theorem lowpoleRecompute_fits {r : LowpoleRegs} (hr : r.mapF (lowF p) = r) :
    (lowpoleRecompute p.calcFmt d c r).mapF (lowF p) = lowpoleRecompute p.calcFmt d c r := by
  rw [lowpoleRecompute]
  split
  · exact hr
  · obtain ⟨hsr, -, -, hv, -⟩ := LowpoleRegs.mk.inj hr
    simp (disch := assumption) [hsr, hv, hc]

theorem resonRecompute_fits (hb : lowF p b = b) {r : ResonRegs} (hr : r.mapF (lowF p) = r) :
    (resonRecompute p d c b r).mapF (lowF p) = resonRecompute p d c b r := by
  rw [resonRecompute]
  split
  · exact hr
  · obtain ⟨hsr, -, -, -, hz, -⟩ := ResonRegs.mk.inj hr
    simp (disch := assumption) [hsr, hz, hc, hb]

end

section
variable {s t : State} (hF : Interchange s.params.calcFmt) (hS : Interchange s.params.sampleFmt)
  (hs : s.All (Inst.Fits s.params))
include hF hS hs

theorem execBqTick_fits {x : SWord} (h : execBqTick x s = .next t) :
    t.All (Inst.Fits s.params) := by
  refine onUnit_fits hs h (bqOf_mapF _) fun d r hr => ?_
  obtain ⟨hc, hz, -⟩ := BqRegs.mk.inj hr
  obtain ⟨hz', hy⟩ := biquadStep_fits hF d r.coefs hz x
  exact ⟨by simp [hc, hz'], operandsFit_sampleResult hS _ hy⟩

theorem execButterTick_fits {x cutoff : SWord} (h : execButterTick x cutoff s = .next t) :
    t.All (Inst.Fits s.params) := by
  refine onUnit_fits hs h (butterOf_mapF _) fun d r hr => ?_
  have hr' := butterRecompute_fits hF (drawsFrom d 20) (lowF_toF hF (d 11) cutoff) hr
  dsimp only
  generalize butterRecompute _ _ _ _ = r' at hr' ⊢
  obtain ⟨hsr, hcut, hc, hz, -⟩ := ButterRegs.mk.inj hr'
  obtain ⟨hz', hy⟩ := biquadStep_fits hF d _ hz x
  exact ⟨by simp [hsr, hcut, hc, hz'], operandsFit_sampleResult hS _ hy⟩

theorem execResonTick_fits {x center bandwidth : SWord}
    (h : execResonTick x center bandwidth s = .next t) : t.All (Inst.Fits s.params) := by
  refine onUnit_fits hs h (resonOf_mapF _) fun d r hr => ?_
  have hr' := resonRecompute_fits hF (drawsFrom d 20) (lowF_toF hF (d 11) center)
    (lowF_toF hF (d 12) bandwidth) hr
  dsimp only
  generalize resonRecompute _ _ _ _ _ = r' at hr' ⊢
  obtain ⟨hsr, hcen, hbw, hc, hz, -⟩ := ResonRegs.mk.inj hr'
  obtain ⟨hz', hy⟩ := biquadStep_fits hF d _ hz x
  exact ⟨by simp [hsr, hcen, hbw, hc, hz'], operandsFit_sampleResult hS _ hy⟩

theorem execLowpoleTick_fits {x cutoff : SWord} (h : execLowpoleTick x cutoff s = .next t) :
    t.All (Inst.Fits s.params) := by
  refine onUnit_fits hs h (lowpoleOf_mapF _) fun d r hr => ?_
  have hr' := lowpoleRecompute_fits hF (drawsFrom d 20) (lowF_toF hF (d 11) cutoff) hr
  dsimp only
  generalize lowpoleRecompute _ _ _ _ = r' at hr' ⊢
  obtain ⟨hsr, hcut, hk, -⟩ := LowpoleRegs.mk.inj hr'
  exact ⟨by simp [hsr, hcut, hk, lowF_lowpoleValue hF],
    operandsFit_sampleResult hS _ (lowF_lowpoleValue hF _ _ _ _)⟩

theorem execDcblockTick_fits {x : SWord} (h : execDcblockTick x s = .next t) :
    t.All (Inst.Fits s.params) := by
  refine onUnit_fits hs h (dcblockOf_mapF _) fun d r hr => ?_
  obtain ⟨hsr, hcut, hk, -⟩ := DcblockRegs.mk.inj hr
  exact ⟨by simp [hsr, hcut, hk, lowF_toF hF, lowF_dcblockValue hF],
    operandsFit_sampleResult hS _ (lowF_dcblockValue hF _ _ _ _ _)⟩

/-- Past the window the input word itself is the result. -/
theorem execDeclickTick_fits {x : SWord} (hx : XferWord.fits s.params (.s x) = true)
    (h : execDeclickTick x s = .next t) : t.All (Inst.Fits s.params) := by
  refine onUnit_fits hs h (declickOf_mapF _) fun d r hr => ?_
  obtain ⟨hdt, hdur, -⟩ := DeclickRegs.mk.inj hr
  dsimp only
  split
  · exact ⟨by simp [hdt, hdur, lowF_fadd hF], operandsFit_sampleResult hS _ (lowF_fmul hF _ _ _)⟩
  · exact ⟨congrArg Node.declick hr, operandsFit_cons.mpr ⟨hx, rfl⟩⟩

theorem execSineTick_fits {freq : SWord} (h : execSineTick freq s = .next t) :
    t.All (Inst.Fits s.params) := by
  refine onUnit_fits hs h (sineOf_mapF _) fun d r hr => ?_
  obtain ⟨hdt, -⟩ := SineRegs.mk.inj hr
  exact ⟨by simp [hdt, lowF_fadd hF], operandsFit_sampleResult hS _ (lowF_applyF hF _ _ _)⟩

end

/-- Every command keeps the widths: it keeps registers, stores operand words that fit, or writes words
of the results of operations, which fit. -/
theorem exec_fits {i : Instr} {s t : State} (hF : Interchange s.params.calcFmt)
    (hS : Interchange s.params.sampleFmt) (hops : operandsFit s.params i.operands = true)
    (hs : s.All (Inst.Fits s.params)) (h : exec i s = .next t) : t.All (Inst.Fits s.params) := by
  cases i <;> simp only [exec] at h <;>
    simp only [Instr.operands, operandsFit_cons, fits_f, fits_u32, operandsFit_nil,
      and_true] at hops
  case bqNew | noiseNew =>
    exact construct_fits hs h fun _ => by simp [Node.mapF]
  case butterNew sr fc =>
    obtain ⟨hsr, hfc⟩ := hops
    exact construct_fits hs h fun _ => by simp [hsr, hfc, mapCoefs_lowF_butterCoefs hF]
  case resonNew sr fc bw =>
    obtain ⟨hsr, hfc, hbw⟩ := hops
    exact construct_fits hs h fun _ => by simp [hsr, hfc, hbw, mapCoefs_lowF_resonCoefs hF]
  case lowpoleNew sr fc =>
    obtain ⟨hsr, hfc⟩ := hops
    exact construct_fits hs h fun _ => by simp [hsr, hfc, lowF_lowpoleCoeff hF]
  case dcblockNew sr fc =>
    obtain ⟨hsr, hfc⟩ := hops
    exact construct_fits hs h fun _ => by simp [hsr, hfc, lowF_dcCoeff hF]
  case declickNew sr dur =>
    obtain ⟨-, hdur⟩ := hops
    exact construct_fits hs h fun _ => by simp [hdur, lowF_sampleDuration hF]
  case sineNew sr =>
    exact construct_fits hs h fun _ => by simp [lowF_sampleDuration hF, lowF_phaseOfHash hF]
  case mlsNew n st =>
    exact onTarget_all hs h fun _ hn => ite_fits (raise_fits hn _ _)
      (ite_fits (raise_fits hn _ _) (complete_fits hn (x := (_, [])) ⟨rfl, rfl⟩))
  case mlsNewSeed | mlsnoiseNew =>
    exact onTarget_all hs h fun _ hn => ite_fits (raise_fits hn _ _)
      (complete_fits hn (x := (_, [])) ⟨rfl, rfl⟩)
  case bqReset =>
    refine onUnit_fits hs h (bqOf_mapF _) fun d r hr => ⟨?_, rfl⟩
    obtain ⟨hc, -⟩ := BqRegs.mk.inj hr
    simp [hc]
  case bqSetHash hash =>
    exact onUnit_fits hs h (bqOf_mapF _) fun d r hr =>
      ⟨congrArg (fun q : BqRegs => Node.bq { q with hash := hash }) hr, rfl⟩
  case bqSetCoefs =>
    refine onUnit_fits hs h (bqOf_mapF _) fun d r hr => ⟨?_, rfl⟩
    obtain ⟨-, hz, -⟩ := BqRegs.mk.inj hr
    simp [hz, mapCoefs, hops]
  case bqTick => exact execBqTick_fits hF hS hs h
  case bqResponse =>
    exact onUnit_fits hs h (bqOf_mapF _) fun d r hr =>
      ⟨congrArg Node.bq hr, operandsFit_responseResult hF _ _ _⟩
  case butterReset =>
    refine onUnit_fits hs h (butterOf_mapF _) fun d r hr => ⟨?_, rfl⟩
    obtain ⟨hsr, hcut, hc, -⟩ := ButterRegs.mk.inj hr
    simp [hcut, rebindRate_fits hops hsr,
      rebindCoef_eq hc fun q => mapCoefs_lowF_butterCoefs hF d q _]
  case butterSetHash hash =>
    exact onUnit_fits hs h (butterOf_mapF _) fun d r hr =>
      ⟨congrArg (fun q : ButterRegs => Node.butter { q with hash := hash }) hr, rfl⟩
  case butterTick => exact execButterTick_fits hF hS hs h
  case butterResponse =>
    exact onUnit_fits hs h (butterOf_mapF _) fun d r hr =>
      ⟨congrArg Node.butter hr, operandsFit_responseResult hF _ _ _⟩
  case resonReset =>
    refine onUnit_fits hs h (resonOf_mapF _) fun d r hr => ⟨?_, rfl⟩
    obtain ⟨hsr, hcen, hbw, hc, -⟩ := ResonRegs.mk.inj hr
    simp [hcen, hbw, rebindRate_fits hops hsr,
      rebindCoef_eq hc fun q => mapCoefs_lowF_resonCoefs hF d q _ _]
  case resonSetHash hash =>
    exact onUnit_fits hs h (resonOf_mapF _) fun d r hr =>
      ⟨congrArg (fun q : ResonRegs => Node.reson { q with hash := hash }) hr, rfl⟩
  case resonTick => exact execResonTick_fits hF hS hs h
  case resonResponse =>
    exact onUnit_fits hs h (resonOf_mapF _) fun d r hr =>
      ⟨congrArg Node.reson hr, operandsFit_responseResult hF _ _ _⟩
  case lowpoleReset =>
    refine onUnit_fits hs h (lowpoleOf_mapF _) fun d r hr => ⟨?_, rfl⟩
    obtain ⟨hsr, hcut, hk, -⟩ := LowpoleRegs.mk.inj hr
    simp [hcut, rebindRate_fits hops hsr, rebindCoef_eq hk fun q => lowF_lowpoleCoeff hF d q _]
  case lowpoleSetHash hash =>
    exact onUnit_fits hs h (lowpoleOf_mapF _) fun d r hr =>
      ⟨congrArg (fun q : LowpoleRegs => Node.lowpole { q with hash := hash }) hr, rfl⟩
  case lowpoleTick => exact execLowpoleTick_fits hF hS hs h
  case dcblockReset =>
    refine onUnit_fits hs h (dcblockOf_mapF _) fun d r hr => ⟨?_, rfl⟩
    obtain ⟨hsr, hcut, -⟩ := DcblockRegs.mk.inj hr
    simp [hcut, rebindRate_fits hops hsr, lowF_dcCoeff hF]
  case dcblockSetHash hash =>
    exact onUnit_fits hs h (dcblockOf_mapF _) fun d r hr =>
      ⟨congrArg (fun q : DcblockRegs => Node.dcblock { q with hash := hash }) hr, rfl⟩
  case dcblockTick => exact execDcblockTick_fits hF hS hs h
  case declickReset =>
    refine onUnit_fits hs h (declickOf_mapF _) fun d r hr => ⟨?_, rfl⟩
    obtain ⟨hdt, hdur, -⟩ := DeclickRegs.mk.inj hr
    simp [hdur, rebindCoef_eq hdt (lowF_sampleDuration hF _)]
  case declickSetHash hash =>
    exact onUnit_fits hs h (declickOf_mapF _) fun d r hr =>
      ⟨congrArg (fun q : DeclickRegs => Node.declick { q with hash := hash }) hr, rfl⟩
  case declickTick => exact execDeclickTick_fits hF hS hs hops h
  case mlsNext | mlsValue | mlsState =>
    exact onUnit_fits hs h (mlsOf_mapF _) fun _ _ _ => ⟨rfl, rfl⟩
  case mlsnoiseReset | mlsnoiseSetHash =>
    exact onUnit_fits hs h (mlsnoiseOf_mapF _) fun _ _ _ => ⟨rfl, rfl⟩
  case mlsnoiseTick =>
    exact onUnit_fits hs h (mlsnoiseOf_mapF _) fun _ _ _ =>
      ⟨rfl, operandsFit_cons.mpr ⟨fits_mlsSample hS _, rfl⟩⟩
  case noiseReset | noiseSetHash =>
    exact onUnit_fits hs h (noiseOf_mapF _) fun _ _ _ => ⟨rfl, rfl⟩
  case noiseTick =>
    exact onUnit_fits hs h (noiseOf_mapF _) fun _ _ _ =>
      ⟨rfl, operandsFit_cons.mpr ⟨fits_lcgSample hF hS _ _, rfl⟩⟩
  case sineReset =>
    refine onUnit_fits hs h (sineOf_mapF _) fun d r hr => ⟨?_, rfl⟩
    obtain ⟨hdt, -⟩ := SineRegs.mk.inj hr
    simp [lowF_phaseOfHash hF, rebindCoef_eq hdt (lowF_sampleDuration hF _)]
  case sineSetHash hash =>
    exact onUnit_fits hs h (sineOf_mapF _) fun d r hr =>
      ⟨congrArg (fun q : SineRegs => Node.sine { q with hash := hash }) hr, rfl⟩
  case sineTick => exact execSineTick_fits hF hS hs h

/-- `step_all`, where the operand words of a command that is performed fit. -/
theorem step_all_of_operandsFit {P : Inst → Prop} {s t : State}
    (hraise : ∀ n c w, P n → P (n.raise c w))
    (hexec : ∀ i u v, u.params = s.params → operandsFit u.params i.operands = true → u.All P →
      exec i u = .next v → v.All P)
    (hs : s.All P) (h : step s = .next t) : t.All P := by
  obtain ⟨-, rfl⟩ | ⟨c, rest, _, _, -, -, -, -, -, hperform⟩ := step_next h
  · exact hs
  · obtain ⟨-, hraised⟩ | ⟨i, hdecode, hfit, hdone⟩ := perform_cases hperform
    · exact onTarget_all (s := s.deliver c rest) hs hraised fun n => hraise n _ _
    · exact hexec i (s.deliver c rest) t rfl (operands_of_decode hdecode ▸ hfit) hs hdone

/-- Settles O58: the operand check of a step lets no word in that does not fit, and every operation
writes a value of its format. -/
theorem wordsFitTheirFormats : Obligations.WordsFitTheirFormats := by
  intro s t hp hs h
  rw [step_params h]
  refine ⟨hp, step_all_of_operandsFit (fun n c w hn => raise_fits hn c w)
    (fun i u v hu hops hall hv => ?_) hs h⟩
  obtain ⟨hF, hS, -⟩ := hp
  rw [← hu] at hF hS hall ⊢
  exact exec_fits hF hS hops hall hv

end Sys2Proof.Machine

/-! ### Reading a word and writing its value -/

namespace Sys2Proof.Machine

section
variable {f : Fmt}

/-- A word of the width of the format is its sign, exponent and trailing significand. -/
theorem exists_fields {w : ℕ} (hw : w < 2 ^ f.width) :
    ∃ neg e frac, e < 2 ^ f.eb ∧ frac < 2 ^ f.mb ∧ w = signBits f neg + e * 2 ^ f.mb + frac := by
  have hlow : ∀ v < 2 ^ (f.eb + f.mb), ∃ e frac, e < 2 ^ f.eb ∧ frac < 2 ^ f.mb ∧
      v = e * 2 ^ f.mb + frac := fun v hv => by
    refine ⟨v / 2 ^ f.mb, v % 2 ^ f.mb, ?_, Nat.mod_lt _ (by positivity),
      (Nat.div_add_mod' v _).symm⟩
    rwa [Nat.div_lt_iff_lt_mul (by positivity), ← pow_add]
  rw [two_pow_width, ← pow_add] at hw
  rcases lt_or_ge w (2 ^ (f.eb + f.mb)) with hpos | hneg
  · obtain ⟨e, frac, he, hfrac, rfl⟩ := hlow w hpos
    exact ⟨false, e, frac, he, hfrac, by simp [signBits]⟩
  · obtain ⟨e, frac, he, hfrac, h⟩ := hlow (w - 2 ^ (f.eb + f.mb)) (by omega)
    exact ⟨true, e, frac, he, hfrac, by simp only [signBits, if_true]; omega⟩

/-- The exponent and trailing significand of a normal magnitude, given by them. -/
theorem magBits_shiftLeft {e frac : ℕ} (he : e ≠ 0) (hfrac : frac < 2 ^ f.mb) :
    magBits f ((2 ^ f.mb + frac) <<< (e - 1)) = e * 2 ^ f.mb + frac := by
  have hlog : Nat.log2 ((2 ^ f.mb + frac) <<< (e - 1)) = f.mb + (e - 1) := by
    have hne : (2 ^ f.mb + frac) <<< (e - 1) ≠ 0 := by simp [Nat.shiftLeft_eq]
    rw [Nat.log2_eq_iff hne, Nat.shiftLeft_eq, pow_add, add_right_comm, pow_add _ (f.mb + 1),
      pow_succ]
    exact ⟨Nat.mul_le_mul_right _ (Nat.le_add_right _ _),
      Nat.mul_lt_mul_of_pos_right (by omega) (by positivity)⟩
  have hge : ¬ (2 ^ f.mb + frac) <<< (e - 1) < 2 ^ f.mb := by
    rw [not_lt, Nat.shiftLeft_eq]
    exact (Nat.le_add_right _ _).trans (Nat.le_mul_of_pos_right _ (by positivity))
  rw [magBits, if_neg hge, hlog, Nat.add_sub_cancel_left, Nat.shiftLeft_shiftRight]
  obtain ⟨k, rfl⟩ := Nat.exists_eq_succ_of_ne_zero he
  rw [Nat.succ_sub_one, Nat.succ_mul, add_assoc]

/-- Writing the value of a word that is not a NaN gives the word. -/
theorem toBits_ofBits (d : Draw) {w : ℕ} (hw : w < 2 ^ f.width)
    (hnan : Fp.ofBits f w ≠ .nan) : (Fp.ofBits f w).toBits f d = w := by
  obtain ⟨neg, e, frac, he, hfrac, rfl⟩ := exists_fields hw
  rw [ofBits_fields f neg he hfrac] at hnan ⊢
  split at hnan
  case isTrue htop =>
    have hzero : frac = 0 := by
      by_contra h
      exact hnan (if_neg h)
    simp [htop, hzero, Fp.toBits]
  case isFalse htop =>
    rw [if_neg htop]
    split
    case isTrue hsub => simp [hsub, Fp.toBits, magBits, hfrac]
    case isFalse hnormal => rw [Fp.toBits, magBits_shiftLeft hnormal hfrac, add_assoc]

/-- A word that is not a NaN is the one word of its width that holds its value. -/
theorem eq_of_ofBits_eq {v w : ℕ} (hv : v < 2 ^ f.width) (hw : w < 2 ^ f.width)
    (h : Fp.ofBits f v = Fp.ofBits f w) (hnan : Fp.ofBits f w ≠ .nan) : v = w :=
  calc v = (Fp.ofBits f v).toBits f default := (toBits_ofBits default hv (h ▸ hnan)).symm
    _ = (Fp.ofBits f w).toBits f default := by rw [h]
    _ = w := toBits_ofBits default hw hnan

end

/-! ### Conversion between the formats -/

section
variable {f g : Fmt}

theorem two_pow_eb_eq (hf : Interchange f) : 2 ^ f.eb = 2 * 2 ^ (f.eb - 1) := by
  rw [← pow_succ', Nat.sub_add_cancel (by have := eight_le_eb hf; omega)]

/-- Converting a value to its own format. -/
theorem convert_self {v : Fp} (hv : v.InFormat f) : Fp.convert f f v = v := by
  cases v with
  | nan => rfl
  | inf s => rfl
  | fin s m => exact round_exact s hv.1 (by positivity) hv.2

variable (hf : Interchange f) (hg : Interchange g) (heb : f.eb ≤ g.eb) (hmb : f.mb ≤ g.mb)
include hf hg heb hmb

/-- The quantum of the wider format is no larger, and a value of the narrower one is a value of the
wider one. -/
theorem inFormat_widen {s : Bool} {m : ℕ} (hm : (Fp.fin s m).InFormat f) :
    qexp f ≤ qexp g ∧ (Fp.fin s (m * 2 ^ (qexp g - qexp f))).InFormat g := by
  have hpow : 2 ^ (f.eb - 1) ≤ 2 ^ (g.eb - 1) := Nat.pow_le_pow_right (by decide) (by omega)
  have hfour := four_le_two_pow_eb hf
  have hfeb := two_pow_eb_eq hf
  have hgeb := two_pow_eb_eq hg
  obtain ⟨⟨k, e, hk, rfl⟩, hover⟩ := hm
  refine ⟨by simp only [qexp]; omega, representable_mul_two_pow ⟨k, e, ?_, rfl⟩ _, ?_⟩
  · exact hk.trans_le (Nat.pow_le_pow_right (by decide) (by omega))
  · calc k * 2 ^ e * 2 ^ (qexp g - qexp f) < overflow f * 2 ^ (qexp g - qexp f) :=
          Nat.mul_lt_mul_of_pos_right hover (by positivity)
      _ = 2 ^ (f.mb + 2 ^ f.eb - 2 + (qexp g - qexp f)) := (pow_add ..).symm
      _ ≤ overflow g := Nat.pow_le_pow_right (by decide) (by simp only [qexp]; omega)

theorem convert_widen {s : Bool} {m : ℕ} (hm : (Fp.fin s m).InFormat f) :
    Fp.convert f g (.fin s m) = .fin s (m * 2 ^ (qexp g - qexp f)) := by
  obtain ⟨hq, hrep, hover⟩ := inFormat_widen hf hg heb hmb hm
  rw [Fp.convert, ← Nat.sub_add_cancel hq, pow_add, ← mul_assoc, Nat.add_sub_cancel]
  exact round_exact s hrep (by positivity) hover

/-- Narrowing a widened value. -/
theorem convert_convert {v : Fp} (hv : v.InFormat f) :
    Fp.convert g f (Fp.convert f g v) = v := by
  cases v with
  | nan => rfl
  | inf s => rfl
  | fin s m =>
    obtain ⟨hq, -⟩ := inFormat_widen hf hg heb hmb hv
    rw [convert_widen hf hg heb hmb hv, Fp.convert, mul_assoc, ← pow_add, Nat.sub_add_cancel hq]
    exact round_exact s hv.1 (by positivity) hv.2

end

section
variable {p : Params} (hF : Interchange p.calcFmt) (hS : Interchange p.sampleFmt)
include hF hS

/-- The value of a narrowed word, also where the formats are the same. -/
theorem valS_toS (d : Draw) (w : FWord) : valS p.sampleFmt (toS p d w) =
    Fp.convert p.calcFmt p.sampleFmt (valF p.calcFmt w) := by
  rw [toS]
  split
  case isTrue h =>
    rw [← h, convert_self (inFormat_valF hF w)]
    rfl
  case isFalse => exact ofBits_toBits hS d (inFormat_convert _ _)

end

/-- Settles O49: widening is exact because every value of S is a value of F, so that narrowing rounds it
to itself; and a word that is not a NaN is the one word of its value. -/
theorem conversionsAreExactWhereTheyCanBe : Obligations.ConversionsAreExactWhereTheyCanBe := by
  intro p ⟨hF, hS, heb, hmb⟩
  refine ⟨fun d w hw hnan => ?_, fun d v neg m hv => ?_, fun d v neg hv => ?_, fun d v hv => ?_,
    fun d w neg m hw => ?_, fun d w neg hw => ?_, fun d w hw => ?_, fun d e v hv hnan => ?_,
    fun h d w => ?_⟩
  · exact congrArg FWord.mk (toBits_ofBits d hw hnan)
  · rw [valF_toF hF, hv]
    exact convert_widen hS hF heb hmb (hv ▸ inFormat_ofBits hS v.bits)
  · rw [valF_toF hF, hv, Fp.convert]
  · rw [valF_toF hF, hv, Fp.convert]
  · rw [valS_toS hF hS, hw, Fp.convert]
    have h := roundingIsNearestTiesToEven p.sampleFmt neg (m * 2 ^ qexp p.sampleFmt)
      (2 ^ qexp p.calcFmt) (by positivity)
    simpa only [Nat.cast_mul, Nat.cast_pow, Nat.cast_ofNat] using h
  · rw [valS_toS hF hS, hw, Fp.convert]
  · rw [valS_toS hF hS, hw, Fp.convert]
  · have hval : valS p.sampleFmt (toS p e (toF p d v)) = valS p.sampleFmt v := by
      rw [valS_toS hF hS, valF_toF hF]
      exact convert_convert hS hF heb hmb (inFormat_ofBits hS v.bits)
    have hfits := fits_s.mp (fits_toS hS e (lowF_toF hF d v))
    exact congrArg SWord.mk (eq_of_ofBits_eq hfits hv hval hnan)
  · rw [toS, if_pos h]

end Sys2Proof.Machine

/-! ### The command a step performs -/

namespace Sys2Proof.Machine

/-- Settles O1: a command that decodes, with operand words that fit, is performed by `exec`. -/
theorem stepPerformsDeliveredCommand : Obligations.StepPerformsDeliveredCommand := by
  refine ⟨fun s c rest i hnext hdecode hfit => ?_, fun _ _ _ => nextCommand_head,
    fun insts c cs n hn hfault => ?_, fun s hs => ?_⟩
  · simp [step, hnext, perform, hdecode, hfit]
  · simp [nextCommand, hn, faulted_iff.mpr hfault]
  · simp [step, hs, nextCommand, noDelivery]

end Sys2Proof.Machine

end

section
/-! SUPPORT. Proofs of the statements about the command words: the fields of a word and the word of its
fields, the rows of the command table and the commands built from them, the two round trips, and the
words that a step performs or refuses. -/

-- Elaborating one declaration at a time keeps this text within the memory the check allows.
set_option Elab.async false

/-! ### The layout of a command word (30_encoding.md R101) -/

namespace Sys2Proof.Machine

section
variable (f : Fields)

@[simp] theorem rsv1_word : f.word.extractLsb' 24 8 = 0 := by
  simp (disch := omega) only [Fields.word, BitVec.extractLsb'_append_eq_of_le, Nat.reduceSub,
    BitVec.extractLsb'_eq_self]

@[simp] theorem n_word : f.word.extractLsb' 16 8 = BitVec.ofNat 8 f.n := by
  simp (disch := omega) only [Fields.word, BitVec.extractLsb'_append_eq_of_le, Nat.reduceSub,
    BitVec.extractLsb'_append_eq_right]

@[simp] theorem rsv0_word : f.word.extractLsb' 9 7 = 0 := by
  simp (disch := omega) only [Fields.word, BitVec.extractLsb'_append_eq_of_le, Nat.reduceSub,
    BitVec.extractLsb'_append_eq_right]

@[simp] theorem srf_word : f.word[8] = f.srf := by
  rw [← BitVec.getLsbD_eq_getElem]
  simp only [Fields.word, BitVec.getLsbD_append]
  simp

@[simp] theorem unit_word : f.word.extractLsb' 4 4 = f.unit.code := by
  simp (disch := omega) only [Fields.word, BitVec.extractLsb'_append_eq_of_le, Nat.reduceSub,
    BitVec.extractLsb'_append_eq_right]

@[simp] theorem op_word : f.word.extractLsb' 0 4 = f.op.code := BitVec.extractLsb'_append_eq_right

end

/-- A word is its six fields, one after the other. -/
theorem append_fields_eq (w : BitVec 32) :
    w.extractLsb' 24 8 ++ w.extractLsb' 16 8 ++ w.extractLsb' 9 7 ++ BitVec.ofBool (w.getLsbD 8) ++
      w.extractLsb' 4 4 ++ w.extractLsb' 0 4 = w := by
  have hsrf : BitVec.ofBool (w.getLsbD 8) = w.extractLsb' 8 1 := by
    ext i hi
    simp [show i = 0 by omega]
  rw [hsrf]
  iterate 5 rw [BitVec.extractLsb'_append_extractLsb'_eq_extractLsb' (by rfl)]
  exact BitVec.extractLsb'_eq_self

@[simp] theorem kindOfCode_code (k : Kind) : kindOfCode k.code = k := by cases k <;> rfl

@[simp] theorem opOfCode_code (op : Op) : opOfCode op.code = some op := by cases op <;> rfl

theorem code_kindOfCode {v : BitVec 4} (h : kindOfCode v ≠ .none) : (kindOfCode v).code = v := by
  decide +revert

theorem code_of_opOfCode {v : BitVec 4} {op : Op} (h : opOfCode v = some op) : op.code = v := by
  decide +revert

end Sys2Proof.Machine

/-! ### The fields of a legal word -/

namespace Sys2Proof.Machine

/-- The fields that a row of the command table allows (30_encoding.md R101, R102, R105, R110, R111). -/
structure FieldsLegal (f : Fields) : Prop where
  row : operandTypes f.unit f.op ≠ none
  srf : f.srf = true → f.op = .reset
  width : f.n ≠ 0 → takesWidth f.unit f.op = true
  fits : f.n < 256

theorem unit_ne_none {f : Fields} (h : FieldsLegal f) : f.unit ≠ .none := by
  intro hunit
  exact h.row (hunit ▸ rfl)

theorem fieldsOf_word {f : Fields} (h : FieldsLegal f) : fieldsOf f.word = some f := by
  obtain ⟨hrow, hsrf, hwidth, hfits⟩ := h
  have hn : f.n % 256 = f.n := Nat.mod_eq_of_lt hfits
  simpa [fieldsOf, hn, hrow] using ⟨hsrf, hwidth⟩

/-- The tests that `fieldsOf` makes are those of `FieldsLegal` and the reserved fields, and the fields it
reads make up the word. -/
theorem legal_of_fieldsOf {w : BitVec 32} {f : Fields} (h : fieldsOf w = some f) :
    FieldsLegal f ∧ f.word = w := by
  cases hop : opOfCode (w.extractLsb' 0 4) with
  | none => simp [fieldsOf, hop] at h
  | some op =>
    simp only [fieldsOf, hop, Option.ite_none_left_eq_some, Option.some.injEq, not_or, not_and,
      not_not, Option.isNone_iff_eq_none] at h
    obtain ⟨⟨hrsv1, hrsv0⟩, hrow, hsrf, hwidth, rfl⟩ := h
    have hlegal : FieldsLegal ⟨_, op, _, _⟩ := ⟨hrow, hsrf, hwidth, BitVec.isLt _⟩
    refine ⟨hlegal, ?_⟩
    rw [Fields.word, code_of_opOfCode hop, code_kindOfCode (unit_ne_none hlegal),
      BitVec.ofNat_toNat, BitVec.setWidth_eq, ← hrsv1, ← hrsv0, append_fields_eq]

/-- The words that are legal are those of legal fields (30_encoding.md R114). -/
theorem fieldsOf_eq_some_iff {w : BitVec 32} {f : Fields} :
    fieldsOf w = some f ↔ FieldsLegal f ∧ f.word = w :=
  ⟨legal_of_fieldsOf, fun ⟨hlegal, hw⟩ => hw ▸ fieldsOf_word hlegal⟩

end Sys2Proof.Machine

/-! ### The command of a legal word and its operand words -/

namespace Sys2Proof.Machine

@[simp] theorem n_fields (i : Instr) : i.fields.n = i.width := by cases i <;> rfl

theorem row_fields (i : Instr) : operandTypes i.fields.unit i.fields.op ≠ none := by
  cases i <;> simp [Instr.fields, resetFields, operandTypes]

theorem op_fields_of_srf {i : Instr} (h : i.fields.srf = true) : i.fields.op = .reset := by
  cases i
  case bqReset | butterReset | resonReset | lowpoleReset | dcblockReset | declickReset |
      mlsnoiseReset | noiseReset | sineReset => rfl
  all_goals cases h

theorem takesWidth_fields {i : Instr} (h : i.width ≠ 0) :
    takesWidth i.fields.unit i.fields.op = true := by
  cases i
  case mlsNew | mlsNewSeed | mlsnoiseNew => rfl
  all_goals exact absurd rfl h

/-- The fields of a command are those of a row, with a width that fits the N field. -/
theorem legal_fields {i : Instr} (h : i.WellFormed) : FieldsLegal i.fields :=
  ⟨row_fields i, op_fields_of_srf, fun hn => takesWidth_fields (n_fields i ▸ hn), n_fields i ▸ h⟩

theorem build_fields (i : Instr) : build i.fields i.operands = some i := by
  cases i
  case bqReset sr | butterReset sr | resonReset sr | lowpoleReset sr | dcblockReset sr |
      declickReset sr | mlsnoiseReset sr | noiseReset sr | sineReset sr => cases sr <;> rfl
  all_goals rfl

theorem srf_of_rateOperand {srf : Bool} {ops : List XferWord} {sr : Option FWord}
    (h : rateOperand srf ops = some sr) : sr.isSome = srf := by
  simp only [rateOperand] at h
  split at h <;> cases h <;> rfl

/-- The fields of a RESET. -/
theorem fields_of_rateOperand {unit : Kind} {srf : Bool} {ops : List XferWord} {i : Instr}
    {mk : Option FWord → Instr} (h : (rateOperand srf ops).map mk = some i)
    (hmk : ∀ sr, (mk sr).fields = resetFields unit sr) : i.fields = ⟨unit, .reset, srf, 0⟩ := by
  obtain ⟨sr, hsr, rfl⟩ := Option.map_eq_some_iff.mp h
  rw [hmk, resetFields, srf_of_rateOperand hsr]

/-- A command is built with the fields of its word: the cases are the rows of the command table, and
SRF and N are 0 in a row that does not have them (30_encoding.md R102, R105). -/
theorem fields_of_build {f : Fields} {ops : List XferWord} {i : Instr} (hf : FieldsLegal f)
    (h : build f ops = some i) : i.fields = f := by
  obtain ⟨-, hsrf, hwidth, -⟩ := hf
  obtain ⟨unit, op, srf, n⟩ := f
  have hn : takesWidth unit op = false → n = 0 := fun hno => by simpa [hno] using hwidth
  cases op
  case reset =>
    obtain rfl : n = 0 := hn (by cases unit <;> rfl)
    cases unit
    case none | mls => cases h
    all_goals exact fields_of_rateOperand h fun _ => rfl
  all_goals obtain rfl : srf = false := by simpa using hsrf
  case new =>
    cases unit
    case none => cases h
    case mls => match ops, h with | [.u32 _], rfl => rfl
    case mlsnoise => match ops, h with | [], rfl => rfl
    all_goals obtain rfl := hn rfl
    case bq | noise => match ops, h with | [], rfl => rfl
    case butter | lowpole | dcblock | declick => match ops, h with | [.f _, .f _], rfl => rfl
    case reson => match ops, h with | [.f _, .f _, .f _], rfl => rfl
    case sine => match ops, h with | [.f _], rfl => rfl
  case newSeed =>
    cases unit
    case mls => match ops, h with | [.u32 _], rfl => rfl
    all_goals cases h
  all_goals obtain rfl := hn (by cases unit <;> rfl)
  case setHash =>
    cases unit
    case none | mls => cases h
    all_goals match ops, h with | [.u32 _], rfl => rfl
  case tick =>
    cases unit
    case none | mls => cases h
    case bq | dcblock | declick | sine => match ops, h with | [.s _], rfl => rfl
    case butter | lowpole => match ops, h with | [.s _, .s _], rfl => rfl
    case reson => match ops, h with | [.s _, .s _, .s _], rfl => rfl
    case mlsnoise | noise => match ops, h with | [], rfl => rfl
  case setCoefs =>
    cases unit
    case bq => match ops, h with | [.f _, .f _, .f _, .f _, .f _], rfl => rfl
    all_goals cases h
  case response =>
    cases unit
    case bq | butter | reson => match ops, h with | [.f _], rfl => rfl
    all_goals cases h
  case next | value | state =>
    cases unit
    case mls => match ops, h with | [], rfl => rfl
    all_goals cases h

/-- The commands that a legal word and operand words build are those with that word's fields and those
operand words (30_encoding.md R112, R117). -/
theorem build_eq_some_iff {f : Fields} {ops : List XferWord} {i : Instr} (hf : FieldsLegal f) :
    build f ops = some i ↔ i.fields = f ∧ i.operands = ops := by
  refine ⟨fun h => ⟨fields_of_build hf h, operands_of_build h⟩, ?_⟩
  rintro ⟨rfl, rfl⟩
  exact build_fields i

end Sys2Proof.Machine

/-! ### The two round trips -/

namespace Sys2Proof.Machine

section
variable {w : BitVec 32} {ops : List XferWord} {i : Instr}

theorem decode_of_fieldsOf_eq_none (h : fieldsOf w = none) (ops : List XferWord) :
    decode w ops = .illegalWord := by
  simp [decode, h]

theorem decode_eq_ok_iff_build :
    decode w ops = .ok i ↔ ∃ f, fieldsOf w = some f ∧ build f ops = some i := by
  cases hf : fieldsOf w with
  | none => simp [decode, hf]
  | some f => cases hb : build f ops <;> simp [decode, hf, hb]

/-- The words that decode to a command are its encoding and no others. -/
theorem decode_eq_ok_iff : decode w ops = .ok i ↔ encode i = (w, ops) ∧ i.WellFormed := by
  rw [decode_eq_ok_iff_build]
  constructor
  · rintro ⟨f, hf, hbuild⟩
    obtain ⟨hlegal, rfl⟩ := fieldsOf_eq_some_iff.mp hf
    obtain ⟨rfl, rfl⟩ := (build_eq_some_iff hlegal).mp hbuild
    exact ⟨rfl, (n_fields i).symm.trans_lt hlegal.fits⟩
  · rintro ⟨hencode, hwf⟩
    cases hencode
    have hlegal := legal_fields hwf
    exact ⟨i.fields, fieldsOf_eq_some_iff.mpr ⟨hlegal, rfl⟩,
      (build_eq_some_iff hlegal).mpr ⟨rfl, rfl⟩⟩

end

/-- Settles O4: the fields of a well-formed command are legal, so that its word has those fields and no
others, and with its operand words they build it again. -/
theorem decodeEncodeRoundTrip : Obligations.DecodeEncodeRoundTrip :=
  fun _ hwf => decode_eq_ok_iff.mpr ⟨rfl, hwf⟩

/-- Settles O5: a word is the word of its fields, and these and the operand words are those of the
command built from them. -/
theorem encodeDecodeRoundTrip : Obligations.EncodeDecodeRoundTrip :=
  fun _ _ _ h => decode_eq_ok_iff.mp h

/-- Settles O3: each of the nine words is decoded; the illegal ones have no fields. -/
theorem specWordsDecode : Obligations.SpecWordsDecode := by
  refine ⟨by decide, by decide, by decide, by decide, by decide, by decide, by decide, ?_, ?_⟩
  · exact decode_of_fieldsOf_eq_none (by decide)
  · exact decode_of_fieldsOf_eq_none (by decide)

end Sys2Proof.Machine

/-! ### The words that a step performs or refuses -/

namespace Sys2Proof.Machine

/-- Settles O8: a command of a unit finds no registers in a node of another kind. -/
theorem kindMismatchRaisesIllegalCommand : Obligations.KindMismatchRaisesIllegalCommand :=
  fun _ _ _ => faults_of_kind_ne

section
variable {s : State} {n : Inst}

theorem raiseIllegal_live (h : Live s n) :
    raiseIllegal s = .next (s.setTarget (n.raise .illegalCommand s.cur.word)) :=
  onTarget_live h.1 h.2

theorem wrongOperands_live (h : Live s n) : wrongOperands s = .refused .wrongOperands := by
  obtain ⟨hn, hnone⟩ := h
  simp [wrongOperands, hn, not_faulted_iff.mpr hnone]

end

/-- Settles O7: an illegal word decodes to none, whatever comes with it; and both forms of wrong operand
words are refused before KIND is looked at. -/
theorem wordsThatAreNoCommand : Obligations.WordsThatAreNoCommand := by
  refine ⟨fun c s n hc hn hnone => ?_, fun c s n hlive hwrong => ?_⟩
  · have hlive : Live (s.deliver c s.pending) n := ⟨hn, hnone⟩
    refine ⟨n.raise .illegalCommand c.word, ?_, rfl, rfl, rfl, rfl⟩
    simp only [perform, decode_of_fieldsOf_eq_none hc, raiseIllegal_live hlive, deliver_cur]
  · rw [← wrongOperands_live hlive]
    rcases hwrong with ⟨f, hf⟩ | ⟨⟨i, hi⟩, hfit⟩
    · simp only [perform, hf]
    · simp [perform, hi, hfit]

theorem firstLive_not_faulted {insts : List Inst} (h : ∃ n ∈ insts, n.faultCause = .none) :
    ∃ n, insts[firstLive insts]? = some n ∧ n.faultCause = .none := by
  obtain ⟨m, hm, hnone⟩ := h
  cases hk : insts.findIdx? fun n => !n.faulted with
  | none =>
    have hfault := List.findIdx?_eq_none_iff.mp hk m hm
    simp [not_faulted_iff.mpr hnone] at hfault
  | some k =>
    obtain ⟨hlt, hlive, -⟩ := List.findIdx?_eq_some_iff_getElem.mp hk
    exact ⟨insts[k], by simp [firstLive, hk, hlt], not_faulted_iff.mp (by simpa using hlive)⟩

section
variable {p : Params}

/-- The operand words read from the table's bits are cut to their widths (log 20). -/
theorem fits_ofBits (t : WordType) (bits : ℕ) : (XferWord.ofBits p t bits).fits p = true := by
  cases t <;> simp [XferWord.ofBits, XferWord.fits, Nat.mod_lt]

theorem operandsFit_operandsOfBits (ts : List WordType) (bits : ℕ) :
    operandsFit p (operandsOfBits p ts bits) = true := by
  induction ts generalizing bits with
  | nil => rfl
  | cons t ts ih => exact operandsFit_cons.mpr ⟨fits_ofBits t bits, ih _⟩

theorem operandsFit_tableWords (w : ℕ) : operandsFit p (tableWords p w).2 = true := by
  simp only [tableWords]
  split
  · rfl
  · exact operandsFit_operandsOfBits _ _

theorem decode_tableCommand {nbits w : ℕ} {i : Instr} (h : decodeTable p nbits w = some i) (k : ℕ) :
    decode (tableCommand p k nbits w).word (tableCommand p k nbits w).operands = .ok i := by
  simp only [decodeTable] at h
  split at h <;> cases h
  assumption

end

/-- Settles O2: the command of the table's bits comes first, to an `Inst` that is not faulted, and its
operand words were cut to their widths. -/
theorem fetchWordRunsDecodedCommand : Obligations.FetchWordRunsDecodedCommand := by
  refine ⟨fun s nbits w i hlive hdecode => ?_, fun _ _ => rfl⟩
  obtain ⟨n, hn, hnone⟩ := firstLive_not_faulted hlive
  obtain ⟨hstep, -, -, -⟩ := stepPerformsDeliveredCommand
  have hnext : nextCommand s.insts (s.withFetchWord nbits w).pending = some (_, s.pending) :=
    nextCommand_head fun m hm => Option.some.inj (hn.symm.trans hm) ▸ hnone
  exact ⟨⟨n, hn, hnone⟩, hstep (s.withFetchWord nbits w) _ _ i hnext (decode_tableCommand hdecode _)
    (operandsFit_tableWords _)⟩

end Sys2Proof.Machine

end

section
/-! SUPPORT. Proofs of the statements about the coefficients: the response at the points of the unit circle,
and the formulas of the coefficient functions. -/

-- Elaborating one declaration at a time keeps this text within the memory the check allows.
set_option Elab.async false

/-! ### The ideal response on the unit circle (40_coefficients.md R151, R153) -/

namespace Sys2Proof.Machine

theorem unitDelay_add_int (omega : ℝ) (k : ℤ) : unitDelay (omega + k) = unitDelay omega :=
  Complex.exp_eq_exp_iff_exists_int.mpr ⟨-k, by push_cast; ring⟩

theorem unitDelay_neg (omega : ℝ) : unitDelay (-omega) = (starRingEnd ℂ) (unitDelay omega) := by
  simp [unitDelay, ← Complex.exp_conj, Complex.conj_ofNat]

theorem unitDelay_zero : unitDelay 0 = 1 := by simp [unitDelay]

theorem unitDelay_half : unitDelay (1 / 2) = -1 := by
  have h : -(Complex.I * (2 * Real.pi * (1 / 2 : ℝ))) = -(Real.pi * Complex.I) := by push_cast; ring
  rw [unitDelay, h, Complex.exp_neg, Complex.exp_pi_mul_I, inv_neg_one]

section
variable (c : RealCoefs) (omega : ℝ)

theorem numerator_conj (z : ℂ) : numerator c ((starRingEnd ℂ) z) = (starRingEnd ℂ) (numerator c z) := by
  simp [numerator]

theorem denominator_conj (z : ℂ) :
    denominator c ((starRingEnd ℂ) z) = (starRingEnd ℂ) (denominator c z) := by
  simp [denominator]

theorem responseOf_add_int (k : ℤ) : responseOf c (omega + k) = responseOf c omega := by
  simp only [responseOf, unitDelay_add_int]

/-- The coefficients are real, so that the conjugate delay gives the conjugate quotient. -/
theorem responseOf_neg : responseOf c (-omega) = (starRingEnd ℂ) (responseOf c omega) := by
  simp only [responseOf, unitDelay_neg, numerator_conj, denominator_conj, map_div₀]

theorem responseOf_zero :
    responseOf c 0 = ((c.b0 + c.b1 + c.b2) / (1 + c.a1 + c.a2) : ℝ) := by
  simp [responseOf, unitDelay_zero, numerator, denominator]

theorem responseOf_half :
    responseOf c (1 / 2) = ((c.b0 - c.b1 + c.b2) / (1 - c.a1 + c.a2) : ℝ) := by
  simp only [responseOf, unitDelay_half, numerator, denominator]
  push_cast
  ring_nf

end

end Sys2Proof.Machine

/-! ### A response command -/

namespace Sys2Proof.Machine

section
variable {s : State} {n : Inst} {i : Instr} {R : Type} {regs : Node → Option R}
  {f : Draws → R → Node × List XferWord} {r : R} {node : Node} {results : List XferWord}

/-- A command of the unit that KIND names completes with what its rule gives. -/
theorem completes_of_onUnit (hi : exec i s = onUnit regs s f) (h : Live s n)
    (hr : regs n.node = some r) (hf : f (s.drawsOf n) r = (node, results)) :
    Completes i s n node results := by
  obtain ⟨hn, hnone⟩ := h
  obtain ⟨hnode, hresults⟩ := Prod.mk.inj hf
  refine ⟨_, hi.trans (onUnit_live hn hnone hr), hnode, ?_, rfl, rfl⟩
  rw [complete_outcomes, hresults]

end

/-- BQ.RESPONSE returns RESP of the coefficients and keeps every register (41_biquad.md R175). -/
theorem bqResponse_completes {s : State} {n : Inst} {r : BqRegs} (omega : FWord) (h : Live s n)
    (hr : n.node = .bq r) :
    Completes (.bqResponse omega) s n (.bq r)
      (responseResult s.params.calcFmt (s.drawsOf n) r.coefs omega) :=
  completes_of_onUnit (f := fun d r => (.bq r, responseResult s.params.calcFmt d r.coefs omega))
    rfl h (congrArg bqOf hr) rfl

/-- Settles O20: the delay e^(-i 2π omega) has period 1, is 1 at DC and -1 at Nyquist, and is conjugated by
-omega; and a BQ.RESPONSE returns the words that RESP_FAITHFUL bounds. -/
theorem responseOfIsPeriodicAndConjugate : Obligations.ResponseOfIsPeriodicAndConjugate := by
  refine ⟨fun c omega => ⟨responseOf_add_int c omega, responseOf_neg c omega, responseOf_zero c,
    responseOf_half c⟩, ?_⟩
  intro s n r omega ε hlive hr f hfaithful ha1 ha2 hb0 hb1 hb2 homega hden
  exact ⟨_, _, bqResponse_completes omega hlive hr,
    hfaithful (s.drawsOf n) r.coefs omega ha1 ha2 hb0 hb1 hb2 homega hden⟩

end Sys2Proof.Machine

/-! ### The coefficient functions (40_coefficients.md R142, R145, R149, R150) -/

namespace Sys2Proof.Machine

/-- Settles O22: each function is its rule's sequence of operations, of which the two forms of
RESON_COEFS differ in b0 alone. -/
theorem coefficientFunctionsFollowFormulas : Obligations.CoefficientFunctionsFollowFormulas := by
  refine ⟨fun f d sr fc bw => ⟨?butter, fun form => ?reson, ?lowpole, ?dcblock⟩,
    fun _ _ _ _ _ => rfl, rfl⟩
  case butter => exact ⟨d, _, _, _, _, _, rfl, rfl, rfl, rfl, rfl, rfl, rfl, rfl, rfl, rfl⟩
  case reson =>
    refine ⟨d, _, _, _, rfl, rfl, rfl, rfl, rfl, ?sqrt, ?linear, rfl, rfl⟩
    case sqrt =>
      rintro rfl
      rfl
    case linear =>
      rintro rfl
      rfl
  case lowpole => exact ⟨d, rfl⟩
  case dcblock => exact ⟨d, rfl⟩

end Sys2Proof.Machine

end

section
/-! SUPPORT. Proofs of the statements about the biquad: a NaN in a recurrence register stays there, and
what BQ.SETCOEFS, BQ.RESET, the RESPONSE commands and the SETHASH commands leave. -/

-- Elaborating one declaration at a time keeps this text within the memory the check allows.
set_option Elab.async false

/-! ### A NaN operand makes the result of an operation a NaN (00_scope.md R17) -/

namespace Sys2Proof.Machine

theorem isNaNF_iff {f : Fmt} {w : FWord} : isNaNF f w = true ↔ valF f w = .nan := decide_eq_true_iff

theorem isNaNS_iff {f : Fmt} {w : SWord} : isNaNS f w = true ↔ valS f w = .nan := decide_eq_true_iff

section
variable {f : Fmt} {a b : FWord} (hf : Interchange f) (d : Draw)
include hf

theorem isNaNF_fadd_left (ha : isNaNF f a) (b : FWord) : isNaNF f (fadd f d a b) := by
  rw [isNaNF_iff] at ha ⊢
  rw [valF_fadd hf, ha, Fp.add]

theorem isNaNF_fadd_right (a : FWord) (hb : isNaNF f b) : isNaNF f (fadd f d a b) := by
  rw [isNaNF_iff] at hb ⊢
  rw [valF_fadd hf, hb, add_nan_right]

theorem isNaNF_fsub_left (ha : isNaNF f a) (b : FWord) : isNaNF f (fsub f d a b) := by
  rw [isNaNF_iff] at ha ⊢
  rw [valF_fsub hf, ha, Fp.sub, Fp.add]

theorem isNaNF_fsub_right (a : FWord) (hb : isNaNF f b) : isNaNF f (fsub f d a b) := by
  rw [isNaNF_iff] at hb ⊢
  rw [valF_fsub hf, hb, Fp.sub, Fp.neg, add_nan_right]

theorem isNaNF_fmul_right (a : FWord) (hb : isNaNF f b) : isNaNF f (fmul f d a b) := by
  rw [isNaNF_iff] at hb ⊢
  rw [valF_fmul hf, hb, mul_nan_right]

end

/-! ### A NaN in a recurrence register (70_reset_and_hazards.md section 2) -/

section
variable {p : Params} (hF : Interchange p.calcFmt) (d : Draws)
include hF

/-- Y1 and Y2 stand in the last two terms of the sum (41_biquad.md R173). -/
theorem isNaNF_biquadStep (c : Coefs) {z : Delays} (x : SWord)
    (hz : isNaNF p.calcFmt z.y1 ∨ isNaNF p.calcFmt z.y2) :
    isNaNF p.calcFmt (biquadStep p d c z x).2 := by
  rcases hz with hy1 | hy2
  · exact isNaNF_fsub_left hF _ (isNaNF_fsub_right hF _ _ (isNaNF_fmul_right hF _ _ hy1)) _
  · exact isNaNF_fsub_right hF _ _ (isNaNF_fmul_right hF _ _ hy2)

theorem isNaNF_lowpoleValue (coeff x0 : FWord) {value : FWord} (h : isNaNF p.calcFmt value) :
    isNaNF p.calcFmt (lowpoleValue p.calcFmt d coeff x0 value) :=
  isNaNF_fadd_right hF _ _ (isNaNF_fmul_right hF _ _ h)

theorem isNaNF_dcblockValue (coeff x0 x1 : FWord) {y1 : FWord} (h : isNaNF p.calcFmt y1) :
    isNaNF p.calcFmt (dcblockValue p.calcFmt d coeff x0 x1 y1) :=
  isNaNF_fadd_right hF _ _ (isNaNF_fmul_right hF _ _ h)

theorem isNaNS_toS (hS : Interchange p.sampleFmt) (d : Draw) {y : FWord} (h : isNaNF p.calcFmt y) :
    isNaNS p.sampleFmt (toS p d y) := by
  rw [isNaNF_iff] at h
  rw [isNaNS_iff, valS_toS hF hS, h, Fp.convert]

end

/-- Settles O53: the register stands in a term of a sum, a product with it is a NaN, and so is a sum with
that; the new Y1 of a biquad is y0. -/
theorem nanStaysInRecurrenceRegisters : Obligations.NanStaysInRecurrenceRegisters := by
  intro p ⟨hF, hS, _, _⟩
  refine ⟨fun d c z x hz => ?biquad, fun d coeff x0 _ h => isNaNF_lowpoleValue hF d coeff x0 h,
    fun d coeff x0 x1 _ h => isNaNF_dcblockValue hF d coeff x0 x1 h,
    fun d _ inc h => isNaNF_fadd_left hF d h inc, fun d _ h => isNaNS_toS hF hS d h⟩
  case biquad =>
    have hy0 := isNaNF_biquadStep hF d c x hz
    exact ⟨hy0, hy0⟩

end Sys2Proof.Machine

/-! ### Commands that leave every register but the ones they name -/

namespace Sys2Proof.Machine

/-- The word of a command's fields and its operand words decode to it. -/
theorem decode_of_fields (f : Fields) {i : Instr} {w : BitVec 32} {ops : List XferWord}
    (hfields : i.fields = f) (hops : i.operands = ops) (hword : f.word = w ∧ f.n < 256) :
    decode w ops = .ok i := by
  subst hfields hops
  exact decode_eq_ok_iff.mpr ⟨Prod.ext hword.1 rfl, (n_fields i).symm.trans_lt hword.2⟩

section
variable {s : State} {n : Inst} (hlive : Live s n)
include hlive

/-- BQ.SETCOEFS writes the coefficients alone (41_biquad.md R172). -/
theorem bqSetCoefs_completes {r : BqRegs} (a1 a2 b0 b1 b2 : FWord) (hr : n.node = .bq r) :
    Completes (.bqSetCoefs a1 a2 b0 b1 b2) s n (.bq { r with coefs := ⟨a1, a2, b0, b1, b2⟩ }) [] :=
  completes_of_onUnit (f := fun _ r => (.bq { r with coefs := ⟨a1, a2, b0, b1, b2⟩ }, []))
    rfl hlive (congrArg bqOf hr) rfl

/-- BQ.RESET zeroes the delay registers alone and ignores a sample rate (41_biquad.md R176). -/
theorem bqReset_completes {r : BqRegs} (rate : Option FWord) (hr : n.node = .bq r) :
    Completes (.bqReset rate) s n (.bq { r with delays := Delays.zero }) [] :=
  completes_of_onUnit (f := fun _ r => (.bq { r with delays := Delays.zero }, []))
    rfl hlive (congrArg bqOf hr) rfl

/-- BUTTER.RESPONSE recomputes nothing and keeps every register (42_derived_filters.md R215). -/
theorem butterResponse_completes {r : ButterRegs} (omega : FWord) (hr : n.node = .butter r) :
    Completes (.butterResponse omega) s n (.butter r)
      (responseResult s.params.calcFmt (s.drawsOf n) r.coefs omega) :=
  completes_of_onUnit (f := fun d r => (.butter r, responseResult s.params.calcFmt d r.coefs omega))
    rfl hlive (congrArg butterOf hr) rfl

/-- RESON.RESPONSE recomputes nothing and keeps every register (42_derived_filters.md R222). -/
theorem resonResponse_completes {r : ResonRegs} (omega : FWord) (hr : n.node = .reson r) :
    Completes (.resonResponse omega) s n (.reson r)
      (responseResult s.params.calcFmt (s.drawsOf n) r.coefs omega) :=
  completes_of_onUnit (f := fun d r => (.reson r, responseResult s.params.calcFmt d r.coefs omega))
    rfl hlive (congrArg resonOf hr) rfl

/-- What every SETHASH is: the SETHASH word of its unit, with one U32 operand word, and a command that in
this unit replaces the registers and returns nothing. -/
theorem setHash_spec {R : Type} {update : R → R} {i : Instr} {w : BitVec 32} {h : U32}
    (k : Kind) (node : R → Node) (regs : Node → Option R) (hregs : ∀ r, regs (node r) = some r)
    (hexec : exec i s = onUnit regs s fun _ r => (node (update r), []))
    (hfields : i.fields = ⟨k, .setHash, false, 0⟩) (hops : i.operands = [.u32 h])
    (hword : (⟨k, .setHash, false, 0⟩ : Fields).word = w) :
    decode w [.u32 h] = .ok i ∧ ∀ r, n.node = node r → Completes i s n (node (update r)) [] :=
  ⟨decode_of_fields _ hfields hops ⟨hword, by norm_num⟩, fun r hr =>
    completes_of_onUnit hexec hlive ((congrArg regs hr).trans (hregs r)) rfl⟩

end

/-- Settles O17: BQ.SETCOEFS writes the coefficients of the registers that BQ has, and BQ.RESET their
delays, whether or not a sample rate comes with it. -/
theorem bqSetCoefsAndReset : Obligations.BqSetCoefsAndReset := by
  intro s n r a1 a2 b0 b1 b2 sr hlive hr
  exact ⟨decode_of_fields ⟨.bq, .setCoefs, false, 0⟩ rfl rfl (by decide),
    decode_of_fields ⟨.bq, .reset, false, 0⟩ rfl rfl (by decide),
    decode_of_fields ⟨.bq, .reset, true, 0⟩ rfl rfl (by decide),
    bqSetCoefs_completes hlive a1 a2 b0 b1 b2 hr, fun rate => bqReset_completes hlive rate hr⟩

/-- Settles O19: a response is computed from the coefficients of the unit, whose registers the command
leaves as they are. -/
theorem responsesWriteNoRegister : Obligations.ResponsesWriteNoRegister := by
  intro s n omega hlive
  exact ⟨⟨decode_of_fields ⟨.bq, .response, false, 0⟩ rfl rfl (by decide),
      decode_of_fields ⟨.butter, .response, false, 0⟩ rfl rfl (by decide),
      decode_of_fields ⟨.reson, .response, false, 0⟩ rfl rfl (by decide)⟩,
    fun _ hr => ⟨s.drawsOf n, bqResponse_completes omega hlive hr⟩,
    fun _ hr => ⟨s.drawsOf n, butterResponse_completes hlive omega hr⟩,
    fun _ hr => ⟨s.drawsOf n, resonResponse_completes hlive omega hr⟩⟩

/-- Settles O21: each SETHASH replaces the registers of its unit by themselves with another HASH. -/
theorem setHashWritesOnlyHash : Obligations.SetHashWritesOnlyHash := by
  intro s n h hlive
  exact ⟨setHash_spec hlive .bq .bq bqOf (fun _ => rfl) rfl rfl rfl (by decide),
    setHash_spec hlive .butter .butter butterOf (fun _ => rfl) rfl rfl rfl (by decide),
    setHash_spec hlive .reson .reson resonOf (fun _ => rfl) rfl rfl rfl (by decide),
    setHash_spec hlive .lowpole .lowpole lowpoleOf (fun _ => rfl) rfl rfl rfl (by decide),
    setHash_spec hlive .dcblock .dcblock dcblockOf (fun _ => rfl) rfl rfl rfl (by decide),
    setHash_spec hlive .declick .declick declickOf (fun _ => rfl) rfl rfl rfl (by decide),
    setHash_spec hlive .mlsnoise .mlsnoise mlsnoiseOf (fun _ => rfl) rfl rfl rfl (by decide),
    setHash_spec hlive .noise .noise noiseOf (fun _ => rfl) rfl rfl rfl (by decide),
    setHash_spec hlive .sine .sine sineOf (fun _ => rfl) rfl rfl rfl (by decide)⟩

end Sys2Proof.Machine

end

section
/-! SUPPORT. Proofs of the statements about the derived filters (42_derived_filters.md): what the NEW and
RESET commands of BUTTER, RESON, LOWPOLE, DCBLOCK and DECLICK leave, and what a TICK computes, after a lazy
recomputation where the unit has control inputs. -/

-- Elaborating one declaration at a time keeps this text within the memory the check allows.
set_option Elab.async false

/-! ### Constructions -/

namespace Sys2Proof.Machine

/-- A command accepted whatever KIND is completes with the node it constructs and returns nothing. -/
theorem completes_of_construct {i : Instr} {s : State} {n : Inst} {construction : Draws → Node}
    {node : Node} (hi : exec i s = construct s construction) (h : Live s n)
    (hnode : construction (s.drawsOf n) = node) : Completes i s n node [] := by
  obtain ⟨hn, hnone⟩ := h
  exact ⟨_, hi.trans (construct_live hn hnone), hnode, rfl, rfl, rfl⟩

end Sys2Proof.Machine

/-! ### Resets, without and with a sample rate -/

namespace Sys2Proof.Machine

section
variable {s : State} {n : Inst} (hlive : Live s n) (rate : Option FWord)
include hlive

/-- BUTTER.RESET zeroes the delays; a sample rate is stored and the coefficients follow it
(42_derived_filters.md R211). -/
theorem butterReset_completes {r : ButterRegs} (hr : n.node = .butter r) :
    Completes (.butterReset rate) s n
      (.butter { r with
        delays := Delays.zero
        sr := rebindRate r.sr rate
        coefs := rebindCoef r.coefs
          (fun q => butterCoefs s.params.calcFmt (s.drawsOf n) q r.cutoff) rate }) [] :=
  completes_of_onUnit (Eq.refl (execButterReset rate s)) hlive (congrArg butterOf hr) rfl

/-- RESON.RESET zeroes the delays; a sample rate is stored and the coefficients follow it
(42_derived_filters.md R219). -/
theorem resonReset_completes {r : ResonRegs} (hr : n.node = .reson r) :
    Completes (.resonReset rate) s n
      (.reson { r with
        delays := Delays.zero
        sr := rebindRate r.sr rate
        coefs := rebindCoef r.coefs
          (fun q => resonCoefs s.params (s.drawsOf n) q r.center r.bandwidth) rate }) [] :=
  completes_of_onUnit (Eq.refl (execResonReset rate s)) hlive (congrArg resonOf hr) rfl

/-- LOWPOLE.RESET clears VALUE; a sample rate is stored and COEFF follows it (42_derived_filters.md
R227). -/
theorem lowpoleReset_completes {r : LowpoleRegs} (hr : n.node = .lowpole r) :
    Completes (.lowpoleReset rate) s n
      (.lowpole { r with
        value := zeroF
        sr := rebindRate r.sr rate
        coeff := rebindCoef r.coeff
          (fun q => lowpoleCoeff s.params.calcFmt (s.drawsOf n) q r.cutoff) rate }) [] :=
  completes_of_onUnit (Eq.refl (execLowpoleReset rate s)) hlive (congrArg lowpoleOf hr) rfl

/-- DCBLOCK.RESET clears X1 and Y1 and recomputes COEFF even where no sample rate comes with it
(42_derived_filters.md R234). -/
theorem dcblockReset_completes {r : DcblockRegs} (hr : n.node = .dcblock r) :
    Completes (.dcblockReset rate) s n
      (.dcblock { r with
        x1 := zeroF
        y1 := zeroF
        sr := rebindRate r.sr rate
        coeff := dcCoeff s.params.calcFmt (s.drawsOf n) (rebindRate r.sr rate) r.cutoff }) [] :=
  completes_of_onUnit (Eq.refl (execDcblockReset rate s)) hlive (congrArg dcblockOf hr) rfl

/-- DECLICK.RESET restarts the fade; DT follows a sample rate (42_derived_filters.md R242). -/
theorem declickReset_completes {r : DeclickRegs} (hr : n.node = .declick r) :
    Completes (.declickReset rate) s n
      (.declick { r with
        t := zeroF
        dt := rebindCoef r.dt (sampleDuration s.params.calcFmt (s.drawsOf n 0)) rate }) [] :=
  completes_of_onUnit (Eq.refl (execDeclickReset rate s)) hlive (congrArg declickOf hr) rfl

end

/-- Settles O23: NEW constructs the node of its rule, and the two forms of RESET are one rule at no rate
and at a rate. -/
theorem butterNewAndReset : Obligations.ButterNewAndReset := by
  intro s n sr fc hlive
  exact ⟨⟨decode_of_fields ⟨.butter, .new, false, 0⟩ rfl rfl (by decide),
      decode_of_fields ⟨.butter, .reset, false, 0⟩ rfl rfl (by decide),
      decode_of_fields ⟨.butter, .reset, true, 0⟩ rfl rfl (by decide)⟩,
    ⟨s.drawsOf n, completes_of_construct (Eq.refl (execButterNew sr fc s)) hlive rfl⟩,
    fun _ hr => ⟨butterReset_completes hlive none hr,
      s.drawsOf n, butterReset_completes hlive (some sr) hr⟩⟩

/-- Settles O25: NEW constructs the node of its rule, and the two forms of RESET are one rule at no rate
and at a rate. -/
theorem resonNewAndReset : Obligations.ResonNewAndReset := by
  intro s n sr fc bw hlive
  exact ⟨⟨decode_of_fields ⟨.reson, .new, false, 0⟩ rfl rfl (by decide),
      decode_of_fields ⟨.reson, .reset, false, 0⟩ rfl rfl (by decide),
      decode_of_fields ⟨.reson, .reset, true, 0⟩ rfl rfl (by decide)⟩,
    ⟨s.drawsOf n, completes_of_construct (Eq.refl (execResonNew sr fc bw s)) hlive rfl⟩,
    fun _ hr => ⟨resonReset_completes hlive none hr,
      s.drawsOf n, resonReset_completes hlive (some sr) hr⟩⟩

/-- Settles O27: NEW constructs the node of its rule, and the two forms of RESET are one rule at no rate
and at a rate. -/
theorem lowpoleNewAndReset : Obligations.LowpoleNewAndReset := by
  intro s n sr fc hlive
  exact ⟨⟨decode_of_fields ⟨.lowpole, .new, false, 0⟩ rfl rfl (by decide),
      decode_of_fields ⟨.lowpole, .reset, false, 0⟩ rfl rfl (by decide),
      decode_of_fields ⟨.lowpole, .reset, true, 0⟩ rfl rfl (by decide)⟩,
    ⟨s.drawsOf n, completes_of_construct (Eq.refl (execLowpoleNew sr fc s)) hlive rfl⟩,
    fun _ hr => ⟨lowpoleReset_completes hlive none hr,
      s.drawsOf n, lowpoleReset_completes hlive (some sr) hr⟩⟩

/-- Settles O29: RESET recomputes COEFF from the rate it leaves, which is the old one where none is
given. -/
theorem dcblockNewAndReset : Obligations.DcblockNewAndReset := by
  intro s n sr fc hlive
  exact ⟨⟨decode_of_fields ⟨.dcblock, .new, false, 0⟩ rfl rfl (by decide),
      decode_of_fields ⟨.dcblock, .reset, false, 0⟩ rfl rfl (by decide),
      decode_of_fields ⟨.dcblock, .reset, true, 0⟩ rfl rfl (by decide)⟩,
    ⟨s.drawsOf n, completes_of_construct (Eq.refl (execDcblockNew sr fc s)) hlive rfl⟩,
    fun _ hr => ⟨⟨s.drawsOf n, dcblockReset_completes hlive none hr⟩,
      s.drawsOf n, dcblockReset_completes hlive (some sr) hr⟩⟩

/-- Settles O31: NEW and a RESET with a sample rate take the quotient 1 / sr as DT, with the first draw of
the command. -/
theorem declickNewAndReset : Obligations.DeclickNewAndReset := by
  intro s n sr dur hlive
  exact ⟨⟨decode_of_fields ⟨.declick, .new, false, 0⟩ rfl rfl (by decide),
      decode_of_fields ⟨.declick, .reset, false, 0⟩ rfl rfl (by decide),
      decode_of_fields ⟨.declick, .reset, true, 0⟩ rfl rfl (by decide)⟩,
    ⟨s.drawsOf n 0, completes_of_construct (Eq.refl (execDeclickNew sr dur s)) hlive rfl⟩,
    fun _ hr => ⟨declickReset_completes hlive none hr,
      s.drawsOf n 0, declickReset_completes hlive (some sr) hr⟩⟩

end Sys2Proof.Machine

/-! ### The lazy recomputation (42_derived_filters.md R200, R201) -/

namespace Sys2Proof.Machine

section
variable {f : Fmt} (d : Draws) {c : FWord}

theorem butterRecompute_of_feq {r : ButterRegs} (h : feq f c r.cutoff) :
    butterRecompute f d c r = r := if_pos h

theorem butterRecompute_of_not_feq {r : ButterRegs} (h : ¬feq f c r.cutoff) :
    butterRecompute f d c r = { r with cutoff := c, coefs := butterCoefs f d r.sr c } := if_neg h

theorem lowpoleRecompute_of_feq {r : LowpoleRegs} (h : feq f c r.cutoff) :
    lowpoleRecompute f d c r = r := if_pos h

theorem lowpoleRecompute_of_not_feq {r : LowpoleRegs} (h : ¬feq f c r.cutoff) :
    lowpoleRecompute f d c r = { r with cutoff := c, coeff := lowpoleCoeff f d r.sr c } := if_neg h

variable {p : Params} {b : FWord} {r : ResonRegs}

theorem resonRecompute_of_feq (h : feq p.calcFmt c r.center ∧ feq p.calcFmt b r.bandwidth) :
    resonRecompute p d c b r = r := if_pos (Bool.and_eq_true_iff.mpr h)

theorem resonRecompute_of_not_feq (h : ¬(feq p.calcFmt c r.center ∧ feq p.calcFmt b r.bandwidth)) :
    resonRecompute p d c b r =
      { r with center := c, bandwidth := b, coefs := resonCoefs p d r.sr c b } :=
  if_neg (mt Bool.and_eq_true_iff.mp h)

end

end Sys2Proof.Machine

/-! ### Ticks -/

namespace Sys2Proof.Machine

section
variable {s : State} {n : Inst} (hlive : Live s n) (x : SWord)
include hlive

/-- BUTTER.TICK filters with the registers `q` that the recomputation leaves (42_derived_filters.md R202,
R213). -/
theorem butterTick_completes {r q : ButterRegs} {cutoff : SWord} (hr : n.node = .butter r)
    (hq : butterRecompute s.params.calcFmt (drawsFrom (s.drawsOf n) 20)
      (toF s.params (s.drawsOf n 11) cutoff) r = q) :
    Completes (.butterTick x cutoff) s n
      (.butter { q with delays := (biquadStep s.params (s.drawsOf n) q.coefs q.delays x).1 })
      (sampleResult s.params (s.drawsOf n 10)
        (biquadStep s.params (s.drawsOf n) q.coefs q.delays x).2) := by
  subst hq
  exact completes_of_onUnit (Eq.refl (execButterTick x cutoff s)) hlive (congrArg butterOf hr) rfl

/-- RESON.TICK filters with the registers `q` that the recomputation leaves (42_derived_filters.md R202,
R221). -/
theorem resonTick_completes {r q : ResonRegs} {center bandwidth : SWord} (hr : n.node = .reson r)
    (hq : resonRecompute s.params (drawsFrom (s.drawsOf n) 20) (toF s.params (s.drawsOf n 11) center)
      (toF s.params (s.drawsOf n 12) bandwidth) r = q) :
    Completes (.resonTick x center bandwidth) s n
      (.reson { q with delays := (biquadStep s.params (s.drawsOf n) q.coefs q.delays x).1 })
      (sampleResult s.params (s.drawsOf n 10)
        (biquadStep s.params (s.drawsOf n) q.coefs q.delays x).2) := by
  subst hq
  exact completes_of_onUnit (Eq.refl (execResonTick x center bandwidth s)) hlive (congrArg resonOf hr) rfl

/-- LOWPOLE.TICK runs the pole with the registers `q` that the recomputation leaves
(42_derived_filters.md R202, R229). -/
theorem lowpoleTick_completes {r q : LowpoleRegs} {cutoff : SWord} {v : FWord}
    (hr : n.node = .lowpole r)
    (hq : lowpoleRecompute s.params.calcFmt (drawsFrom (s.drawsOf n) 20)
      (toF s.params (s.drawsOf n 11) cutoff) r = q)
    (hv : lowpoleValue s.params.calcFmt (s.drawsOf n) q.coeff (toF s.params (s.drawsOf n 12) x)
      q.value = v) :
    Completes (.lowpoleTick x cutoff) s n (.lowpole { q with value := v })
      (sampleResult s.params (s.drawsOf n 10) v) := by
  subst hq hv
  exact completes_of_onUnit (Eq.refl (execLowpoleTick x cutoff s)) hlive (congrArg lowpoleOf hr) rfl

/-- DCBLOCK.TICK shifts the widened operand and the value into X1 and Y1 (42_derived_filters.md R236). -/
theorem dcblockTick_completes {r : DcblockRegs} {x0 y0 : FWord} (hr : n.node = .dcblock r)
    (hx0 : toF s.params (s.drawsOf n 12) x = x0)
    (hy0 : dcblockValue s.params.calcFmt (s.drawsOf n) r.coeff x0 r.x1 r.y1 = y0) :
    Completes (.dcblockTick x) s n (.dcblock { r with x1 := x0, y1 := y0 })
      (sampleResult s.params (s.drawsOf n 10) y0) := by
  subst hx0 hy0
  exact completes_of_onUnit (Eq.refl (execDcblockTick x s)) hlive (congrArg dcblockOf hr) rfl

end

/-- Settles O24: the cutoff is feq to its key and the registers are kept, or it is not and they are
recomputed; the filter runs on what results. -/
theorem butterTickRecomputesLazily : Obligations.ButterTickRecomputesLazily := by
  intro s n r x cutoff hlive hr
  refine ⟨decode_of_fields ⟨.butter, .tick, false, 0⟩ rfl rfl (by decide),
    s.drawsOf n, drawsFrom (s.drawsOf n) 20, toF s.params (s.drawsOf n 11) cutoff, ?_⟩
  by_cases hkey : feq s.params.calcFmt (toF s.params (s.drawsOf n 11) cutoff) r.cutoff
  · simp only [if_pos hkey, true_and, exists_eq_left]
    exact butterTick_completes hlive x hr (butterRecompute_of_feq _ hkey)
  · simp only [if_neg hkey, true_and, exists_eq_left]
    exact butterTick_completes hlive x hr (butterRecompute_of_not_feq _ hkey)

/-- Settles O26: both control inputs are feq to their keys and the registers are kept, or one is not and
they are recomputed; the filter runs on what results. -/
theorem resonTickRecomputesLazily : Obligations.ResonTickRecomputesLazily := by
  intro s n r x center bandwidth hlive hr
  refine ⟨decode_of_fields ⟨.reson, .tick, false, 0⟩ rfl rfl (by decide),
    s.drawsOf n, drawsFrom (s.drawsOf n) 20, toF s.params (s.drawsOf n 11) center,
    toF s.params (s.drawsOf n 12) bandwidth, ?_⟩
  by_cases hkeys : feq s.params.calcFmt (toF s.params (s.drawsOf n 11) center) r.center ∧
      feq s.params.calcFmt (toF s.params (s.drawsOf n 12) bandwidth) r.bandwidth
  · simp only [if_pos hkeys, true_and, exists_eq_left]
    exact resonTick_completes hlive x hr (resonRecompute_of_feq _ hkeys)
  · simp only [if_neg hkeys, true_and, exists_eq_left]
    exact resonTick_completes hlive x hr (resonRecompute_of_not_feq _ hkeys)

/-- Settles O28: the cutoff is feq to its key and the registers are kept, or it is not and they are
recomputed; the pole runs on what results. -/
theorem lowpoleTickRunsOnePole : Obligations.LowpoleTickRunsOnePole := by
  intro s n r x cutoff hlive hr f
  refine ⟨decode_of_fields ⟨.lowpole, .tick, false, 0⟩ rfl rfl (by decide),
    s.drawsOf n, drawsFrom (s.drawsOf n) 20, toF s.params (s.drawsOf n 11) cutoff, ?_⟩
  by_cases hkey : feq f (toF s.params (s.drawsOf n 11) cutoff) r.cutoff
  · simp only [if_pos hkey, true_and, exists_and_left, exists_eq_left]
    exact lowpoleTick_completes hlive x hr (lowpoleRecompute_of_feq _ hkey) rfl
  · simp only [if_neg hkey, true_and, exists_and_left, exists_eq_left]
    exact lowpoleTick_completes hlive x hr (lowpoleRecompute_of_not_feq _ hkey) rfl

/-- Settles O30: the first-order recurrence and the shift of its registers. -/
theorem dcblockTickRunsFirstOrder : Obligations.DcblockTickRunsFirstOrder := by
  intro s n r x hlive hr f
  exact ⟨decode_of_fields ⟨.dcblock, .tick, false, 0⟩ rfl rfl (by decide),
    s.drawsOf n, _, _, rfl, rfl, dcblockTick_completes hlive x hr rfl rfl⟩

end Sys2Proof.Machine

end

section
/-! SUPPORT. Proofs of the statements about the Mls functions and the MLS commands (43_mls.md): MLS_NEXT
bit by bit, its bijection on the nonzero states, and what MLS.NEXT and the two queries leave and return. -/

-- Elaborating one declaration at a time keeps this text within the memory the check allows.
set_option Elab.async false

/-! ### MLS_NEXT bit by bit (43_mls.md R265) -/

namespace Sys2Proof.Machine

theorem popcount_eq_card (v : U32) :
    popcount v = ((Finset.range 32).filter fun i => v.getLsbD i).card := by
  rw [popcount, List.countP_eq_length_filter, Finset.card, Finset.filter_val, Finset.range_val,
    Multiset.range, Multiset.filter_coe, Multiset.coe_card]
  simp only [Bool.decide_eq_true]

/-- Settles O37: bit 0 is the parity of the number of bits that the mask and the state share, and the mask
of n bits drops what the shift takes to bit n. -/
theorem mlsNextShiftsInParity : Obligations.MlsNextShiftsInParity := by
  intro poly n st _ h31 i _
  rw [getLsbD_mlsNext h31, popcount_eq_card]
  rcases Nat.lt_or_ge i n with hi | hi
  · simp [hi]
  · simp [hi, Nat.not_lt.mpr hi]

end Sys2Proof.Machine

/-! ### MLS_NEXT is a bijection on the nonzero states (43_mls.md R273) -/

namespace Sys2Proof.Machine

/-- The nonzero states of n bits (43_mls.md R273). -/
def mlsStates (n : ℕ) : Set U32 := {st | 1 ≤ st.toNat ∧ st.toNat < 2 ^ n}

theorem finite_mlsStates (n : ℕ) : (mlsStates n).Finite :=
  (Set.finite_Ico 1 (2 ^ n)).preimage BitVec.toNat_injective.injOn

theorem popcount_eq_add_sum_erase (v : U32) {k : ℕ} (hk : k < 32) :
    popcount v =
      (v.getLsbD k).toNat + ∑ i ∈ (Finset.range 32).erase k, (v.getLsbD i).toNat := by
  rw [Finset.add_sum_erase _ (fun i => (v.getLsbD i).toNat) (Finset.mem_range.mpr hk),
    popcount_eq_card, Finset.card_filter]
  exact Finset.sum_congr rfl fun i _ => (Bool.cond_eq_ite _ 1 0).symm

/-- One bit is determined by the others and the parity of the set bits. -/
theorem getLsbD_eq_of_popcount_parity {v w : U32} {k : ℕ} (hk : k < 32)
    (hparity : popcount v % 2 = popcount w % 2)
    (hothers : ∀ i, i ≠ k → v.getLsbD i = w.getLsbD i) : v.getLsbD k = w.getLsbD k := by
  have hsum : ∑ i ∈ (Finset.range 32).erase k, (v.getLsbD i).toNat =
      ∑ i ∈ (Finset.range 32).erase k, (w.getLsbD i).toNat :=
    Finset.sum_congr rfl fun i hi => by rw [hothers i (Finset.ne_of_mem_erase hi)]
  rw [popcount_eq_add_sum_erase v hk, popcount_eq_add_sum_erase w hk, hsum] at hparity
  have hbit : (v.getLsbD k).toNat = (w.getLsbD k).toNat :=
    (Nat.ModEq.add_right_cancel' _ hparity).eq_of_lt_of_lt (Bool.toNat_lt _) (Bool.toNat_lt _)
  rw [Bool.eq_iff_iff, ← Bool.toNat_eq_one, hbit, Bool.toNat_eq_one]

section
variable {poly : ℕ → U32} {n : ℕ} (h31 : n ≤ 31)
include h31

/-- Every bit below the top one is shifted into the next state. -/
theorem getLsbD_eq_of_mlsNext_eq {s t : U32} (h : mlsNext poly n s = mlsNext poly n t) {j : ℕ}
    (hj : j + 1 < n) : s.getLsbD j = t.getLsbD j := by
  have hbit : (mlsNext poly n s).getLsbD (j + 1) = (mlsNext poly n t).getLsbD (j + 1) := by
    rw [h]
  simpa [getLsbD_mlsNext h31, hj] using hbit

theorem popcount_parity_eq_of_mlsNext_eq (h1 : 1 ≤ n) {s t : U32}
    (h : mlsNext poly n s = mlsNext poly n t) :
    popcount (poly n &&& s) % 2 = popcount (poly n &&& t) % 2 := by
  have hbit : (mlsNext poly n s).getLsbD 0 = (mlsNext poly n t).getLsbD 0 := by rw [h]
  simp only [getLsbD_mlsNext h31, if_true, decide_eq_true (show 0 < n from h1), Bool.true_and,
    decide_eq_decide] at hbit
  omega

/-- Equal next states have equal bits below n - 1 from the shift; then, the mask having bit n - 1, the
parity that came in gives that bit too. -/
theorem mlsNext_injOn (h1 : 1 ≤ n) (hpoly : (poly n).getLsbD (n - 1) = true) :
    Set.InjOn (mlsNext poly n) (mlsStates n) := by
  intro s ⟨_, hs⟩ t ⟨_, ht⟩ h
  have hothers i (hi : i ≠ n - 1) : s.getLsbD i = t.getLsbD i := by
    rcases Nat.lt_or_ge i n with hin | hin
    · exact getLsbD_eq_of_mlsNext_eq h31 h (by omega)
    · have hpow : 2 ^ n ≤ 2 ^ i := Nat.pow_le_pow_right (by decide) hin
      exact (Nat.testBit_eq_false_of_lt (hs.trans_le hpow)).trans
        (Nat.testBit_eq_false_of_lt (ht.trans_le hpow)).symm
  have htop : s.getLsbD (n - 1) = t.getLsbD (n - 1) := by
    have hmasked := getLsbD_eq_of_popcount_parity (k := n - 1) (by omega)
      (popcount_parity_eq_of_mlsNext_eq h31 h1 h) fun i hi => by simp [hothers i hi]
    simpa [hpoly] using hmasked
  refine BitVec.eq_of_getLsbD_eq fun i _ => ?_
  rcases eq_or_ne i (n - 1) with rfl | hi
  · exact htop
  · exact hothers i hi

theorem mlsNext_mapsTo (h1 : 1 ≤ n) (hpoly : (poly n).getLsbD (n - 1) = true) :
    Set.MapsTo (mlsNext poly n) (mlsStates n) (mlsStates n) := fun s ⟨hpos, hlt⟩ =>
  ⟨one_le_toNat_iff.mpr (mlsNext_ne_zero h1 h31 hpoly (one_le_toNat_iff.mp hpos) hlt),
    toNat_mlsNext_lt h31 poly s⟩

end

/-- Settles O38: MLS_NEXT maps the finite set of the nonzero states of n bits into itself, injectively. -/
theorem mlsNextIsBijection : Obligations.MlsNextIsBijection := by
  intro poly n h1 h31 hpoly
  exact ((finite_mlsStates n).injOn_iff_bijOn_of_mapsTo (mlsNext_mapsTo h31 h1 hpoly)).mp
    (mlsNext_injOn h31 h1 hpoly)

end Sys2Proof.Machine

/-! ### The MLS commands -/

namespace Sys2Proof.Machine

/-- MLS_OUT is bit n - 1 of the state (43_mls.md R266). -/
theorem toNat_mlsOut (n : ℕ) (s : U32) :
    (mlsOut n s).toNat = if s.getLsbD (n - 1) then 1 else 0 := by
  have hbit : (mlsOut n s).toNat = (s.getLsbD (n - 1)).toNat := by
    rw [mlsOut, BitVec.ofNat_eq_ofNat, BitVec.and_one_eq_setWidth_ofBool_getLsbD,
      BitVec.getLsbD_ushiftRight, add_zero, BitVec.toNat_setWidth, BitVec.toNat_ofBool]
    exact Nat.mod_eq_of_lt ((Bool.toNat_lt _).trans (by decide))
  rw [hbit, Bool.toNat, Bool.cond_eq_ite]

section
variable {s : State} {n : Inst} {r : MlsRegs} (hlive : Live s n) (hr : n.node = .mls r)
include hlive hr

/-- MLS.NEXT writes S alone (43_mls.md R271). -/
theorem mlsNext_completes :
    Completes .mlsNext s n (.mls { r with s := mlsNext s.params.mlsPoly r.n.toNat r.s }) [] :=
  completes_of_onUnit (Eq.refl (execMlsNext s)) hlive (congrArg mlsOf hr) rfl

/-- MLS.VALUE returns MLS_OUT of the registers and keeps them (43_mls.md R269). -/
theorem mlsValue_completes :
    Completes .mlsValue s n (.mls r) [.u32 (mlsOut r.n.toNat r.s)] :=
  completes_of_onUnit (Eq.refl (execMlsValue s)) hlive (congrArg mlsOf hr) rfl

/-- MLS.STATE returns S and keeps the registers (43_mls.md R270). -/
theorem mlsState_completes : Completes .mlsState s n (.mls r) [.u32 r.s] :=
  completes_of_onUnit (Eq.refl (execMlsState s)) hlive (congrArg mlsOf hr) rfl

end

/-- Settles O36: each command applies its function to the registers that MLS has, and MLS_OUT is the bit
that MLS.VALUE returns. -/
theorem mlsNextAndQueries : Obligations.MlsNextAndQueries := by
  intro s n r hlive hr
  exact ⟨⟨decode_of_fields ⟨.mls, .next, false, 0⟩ rfl rfl (by decide),
      decode_of_fields ⟨.mls, .value, false, 0⟩ rfl rfl (by decide),
      decode_of_fields ⟨.mls, .state, false, 0⟩ rfl rfl (by decide)⟩,
    mlsNext_completes hlive hr, mlsState_completes hlive hr,
    fun _ => ⟨mlsOut r.n.toNat r.s, toNat_mlsOut _ _, mlsValue_completes hlive hr⟩⟩

end Sys2Proof.Machine

end

section
/-! SUPPORT. Proofs of the statements about the noise generators (44_noise.md): the seeding of NOISE from
its hash. -/

-- Elaborating one declaration at a time keeps this text within the memory the check allows.
set_option Elab.async false

/-! ### NOISE.NEW and NOISE.RESET -/

namespace Sys2Proof.Machine

/-- Extending a hash with zeros to the width of X keeps its value (44_noise.md R303). -/
theorem toNat_zeroExtend_hash (h : U32) : (h.setWidth 64 : U64).toNat = h.toNat :=
  BitVec.toNat_setWidth_of_le (by decide)

section
variable {s : State} {n : Inst} (hlive : Live s n)
include hlive

/-- NOISE.NEW seeds X with the initial hash (44_noise.md R303). -/
theorem noiseNew_completes :
    Completes .noiseNew s n (.noise ⟨Config.initialHash.setWidth 64, Config.initialHash⟩) [] :=
  completes_of_construct (Eq.refl (execNoiseNew s)) hlive rfl

/-- NOISE.RESET seeds X with HASH, which it keeps, and ignores a sample rate (44_noise.md R304). -/
theorem noiseReset_completes {r : NoiseRegs} (rate : Option FWord) (hr : n.node = .noise r) :
    Completes (.noiseReset rate) s n (.noise { r with x := r.hash.setWidth 64 }) [] :=
  completes_of_onUnit (Eq.refl (execNoiseReset rate s)) hlive (congrArg noiseOf hr) rfl

end

/-- Settles O41: both commands take as X a hash extended with zeros, which has the value of the hash. -/
theorem noiseNewAndReset : Obligations.NoiseNewAndReset := by
  intro s n sr hlive
  exact ⟨⟨decode_of_fields ⟨.noise, .new, false, 0⟩ rfl rfl (by decide),
      decode_of_fields ⟨.noise, .reset, false, 0⟩ rfl rfl (by decide),
      decode_of_fields ⟨.noise, .reset, true, 0⟩ rfl rfl (by decide)⟩,
    ⟨_, toNat_zeroExtend_hash _, noiseNew_completes hlive⟩,
    fun r hr rate => ⟨_, toNat_zeroExtend_hash r.hash, noiseReset_completes hlive rate hr⟩⟩

end Sys2Proof.Machine

end

section
/-! SUPPORT. Proofs of the statements about the sine oscillator (45_oscillator.md): where NEW and RESET
start the phase, and the advance of the phase by a TICK before its sine is taken. -/

-- Elaborating one declaration at a time keeps this text within the memory the check allows.
set_option Elab.async false

namespace Sys2Proof.Machine

section
variable {s : State} {n : Inst} (hlive : Live s n)
include hlive

/-- SINE.NEW binds DT to the sample rate and starts at the phase of the initial hash
(45_oscillator.md R321). -/
theorem sineNew_completes (sr : FWord) :
    Completes (.sineNew sr) s n
      (.sine ⟨sampleDuration s.params.calcFmt (s.drawsOf n 0) sr,
        phaseOfHash s.params Config.initialHash, Config.initialHash⟩) [] :=
  completes_of_construct (Eq.refl (execSineNew sr s)) hlive rfl

/-- SINE.RESET restarts at the phase of HASH; DT follows a sample rate (45_oscillator.md R322). -/
theorem sineReset_completes {r : SineRegs} (rate : Option FWord) (hr : n.node = .sine r) :
    Completes (.sineReset rate) s n
      (.sine { r with
        phase := phaseOfHash s.params r.hash
        dt := rebindCoef r.dt (sampleDuration s.params.calcFmt (s.drawsOf n 0)) rate }) [] :=
  completes_of_onUnit (Eq.refl (execSineReset rate s)) hlive (congrArg sineOf hr) rfl

/-- SINE.TICK stores the advanced phase as it is and returns the sine of that phase
(45_oscillator.md R324, 10_state.md R67). -/
theorem sineTick_completes {r : SineRegs} {freq : SWord} {inc phase : FWord} (hr : n.node = .sine r)
    (hinc : fmul s.params.calcFmt (s.drawsOf n 0) (toF s.params (s.drawsOf n 1) freq) r.dt = inc)
    (hphase : fadd s.params.calcFmt (s.drawsOf n 2) r.phase inc = phase) :
    Completes (.sineTick freq) s n (.sine { r with phase := phase })
      (sampleResult s.params (s.drawsOf n 10)
        (fsin s.params.calcFmt (s.drawsOf n 4)
          (fmul s.params.calcFmt (s.drawsOf n 3) phase (tauF s.params.calcFmt)))) := by
  subst hinc hphase
  exact completes_of_onUnit (Eq.refl (execSineTick freq s)) hlive (congrArg sineOf hr) rfl

end

/-- Settles O43: NEW and a RESET with a sample rate take the quotient 1 / sr as DT, with the first draw of
the command, and each starts at the phase of the hash it leaves. -/
theorem sineNewAndReset : Obligations.SineNewAndReset := by
  intro s n sr hlive
  exact ⟨⟨decode_of_fields ⟨.sine, .new, false, 0⟩ rfl rfl (by decide),
      decode_of_fields ⟨.sine, .reset, false, 0⟩ rfl rfl (by decide),
      decode_of_fields ⟨.sine, .reset, true, 0⟩ rfl rfl (by decide)⟩,
    ⟨s.drawsOf n 0, sineNew_completes hlive sr⟩,
    fun _ hr => ⟨sineReset_completes hlive none hr,
      s.drawsOf n 0, sineReset_completes hlive (some sr) hr⟩⟩

/-- Settles O44: with the draws of the command, the phase is the advanced one and the sine is of it. -/
theorem sineTickAdvancesThenSamples : Obligations.SineTickAdvancesThenSamples := by
  intro s n r freq hlive hr f
  exact ⟨decode_of_fields ⟨.sine, .tick, false, 0⟩ rfl rfl (by decide),
    s.drawsOf n, _, rfl, sineTick_completes hlive hr rfl rfl⟩

end Sys2Proof.Machine

end

section
/-! SUPPORT. Proofs of the statements about the exceptions (60_exceptions.md): the one fault that FAULT_CAUSE
and FAULT_WORD agree with, what a command that takes it leaves, and that no command has a step after it. -/

-- Elaborating one declaration at a time keeps this text within the memory the check allows.
set_option Elab.async false

/-! ### What is left after a command: no report but one, and the registers that hold it -/

namespace Sys2Proof.Machine

section
variable {s t : State} {n n' : Inst} {w : BitVec 32}

theorem faultOk_iff_of_live (hlive : n.faultCause = .none) :
    n.FaultOk ↔ n.faultWord = 0 ∧ ∀ c w, CmdOutcome.faulted c w ∉ n.outcomes := by
  simp [Inst.FaultOk, hlive]

theorem raise_faultOk {c : FaultCause} (hc : c ≠ .none) (w : BitVec 32)
    (hnone : ∀ c w, CmdOutcome.faulted c w ∉ n.outcomes) : (n.raise c w).FaultOk :=
  .inr ⟨hc, n.outcomes, rfl, hnone⟩

/-- A command with a step reports a fault, if it does, after outcomes that report none, and writes both
fault registers; otherwise it adds an outcome Done (60_exceptions.md R344, 10_state.md R42). -/
theorem faultOk_of_after (hlive : n.faultCause = .none) (hn : n.FaultOk) (ha : Inst.After w n n') :
    n'.FaultOk := by
  obtain ⟨hword, hnone⟩ := (faultOk_iff_of_live hlive).mp hn
  obtain ⟨c, hc, rfl⟩ | ⟨node, rs, rfl⟩ := ha
  · exact raise_faultOk hc w hnone
  · exact (faultOk_iff_of_live (n := n.complete node rs) hlive).mpr ⟨hword, by simpa using hnone⟩

/-- A command completes without a fault, so what it leaves faulted took the fault and no more
(60_exceptions.md R344). -/
theorem eq_raise_of_after (hlive : n.faultCause = .none) (ha : Inst.After w n n')
    (hfault : n'.faultCause ≠ .none) : n' = n.raise n'.faultCause w := by
  obtain ⟨c, -, rfl⟩ | ⟨node, rs, rfl⟩ := ha
  · rfl
  · exact absurd hlive hfault

end

/-- Settles O59: the one `Inst` that a step writes was not faulted, and so had reported no fault. -/
theorem faultRegistersMatchReports : Obligations.FaultRegistersMatchReports := by
  intro s t hs h
  obtain ⟨-, rfl⟩ | ⟨c, rest, n, n', -, hn, hlive, rfl, ha, -⟩ := step_next h
  · exact hs
  · have hdelivered : (s.deliver c rest).All Inst.FaultOk := hs
    exact all_setTarget hdelivered (faultOk_of_after hlive (hdelivered n (target_mem hn)) ha)

/-- Settles O12: the `Inst` that the command addresses was not faulted, so the command raised a fault on
it. -/
theorem faultChangesOnlyFaultRegisters : Obligations.FaultChangesOnlyFaultRegisters := by
  intro i s t n n' h hn hn' hfault
  obtain ⟨m, m', hm, hlive, rfl, ha⟩ := exec_next h
  obtain rfl := Option.some.inj (hn.symm.trans hm)
  obtain rfl := Option.some.inj (hn'.symm.trans (target_setTarget hn))
  rw [eq_raise_of_after hlive ha hfault]
  exact ⟨rfl, rfl, rfl⟩

end Sys2Proof.Machine

/-! ### No step for a faulted instance (60_exceptions.md R350) -/

namespace Sys2Proof.Machine

theorem exec_faulted (i : Instr) {s : State} {n : Inst} (hn : s.target? = some n)
    (hfault : n.faultCause ≠ .none) : exec i s = .fault .faultedInstance := by
  obtain ⟨f, he, -⟩ := isStepOf_exec i s
  exact he.trans (onTarget_faulted hn hfault)

/-- Commands that all go to faulted instances are all passed over. -/
theorem nextCommand_eq_none {insts : List Inst} {cs : List Command}
    (h : ∀ c ∈ cs, ∃ n, insts[c.inst]? = some n ∧ n.faultCause ≠ .none) :
    nextCommand insts cs = none := by
  induction cs with
  | nil => rfl
  | cons c cs ih =>
    obtain ⟨⟨n, hn, hfault⟩, hrest⟩ := List.forall_mem_cons.mp h
    simp [nextCommand, hn, faulted_iff.mpr hfault, ih hrest]

/-- Settles O9: a command to a faulted `Inst` is an operation on it, which stops; a step whose every
pending command is passed over delivers none. -/
theorem faultedInstanceHasNoStep : Obligations.FaultedInstanceHasNoStep :=
  ⟨fun i _ _ hn hfault => exec_faulted i hn hfault, fun s hpending hfaulted => by
    simp [step, nextCommand_eq_none hfaulted, noDelivery, hpending]⟩

end Sys2Proof.Machine

end

section
/-! SUPPORT. Proofs of the statements about the reset and the hazards (70_reset_and_hazards.md): the
coefficients stay the coefficient function of the sample rate and the cached keys, and every command to a
live `Inst` completes in one step. -/

-- Elaborating one declaration at a time keeps this text within the memory the check allows.
set_option Elab.async false

/-! ### The coefficients are current (42_derived_filters.md R203) -/

namespace Sys2Proof.Machine

theorem butterOf_eq_some {node : Node} {r : ButterRegs} (h : butterOf node = some r) :
    node = .butter r := by
  cases node <;> cases h
  rfl

theorem resonOf_eq_some {node : Node} {r : ResonRegs} (h : resonOf node = some r) :
    node = .reson r := by
  cases node <;> cases h
  rfl

theorem lowpoleOf_eq_some {node : Node} {r : LowpoleRegs} (h : lowpoleOf node = some r) :
    node = .lowpole r := by
  cases node <;> cases h
  rfl

theorem dcblockOf_eq_some {node : Node} {r : DcblockRegs} (h : dcblockOf node = some r) :
    node = .dcblock r := by
  cases node <;> cases h
  rfl

section
variable {p : Params}

/-! A lazy recomputation keeps registers that are current, or writes the keys with the coefficients of
these keys (42_derived_filters.md R201). -/

theorem butterRecompute_current {r : ButterRegs} (hr : (Node.butter r).CoefsCurrent p) (d : Draws)
    (c : FWord) : (Node.butter (butterRecompute p.calcFmt d c r)).CoefsCurrent p := by
  by_cases hkey : feq p.calcFmt c r.cutoff
  · rwa [butterRecompute_of_feq d hkey]
  · rw [butterRecompute_of_not_feq d hkey]
    exact ⟨d, rfl⟩

theorem resonRecompute_current {r : ResonRegs} (hr : (Node.reson r).CoefsCurrent p) (d : Draws)
    (c b : FWord) : (Node.reson (resonRecompute p d c b r)).CoefsCurrent p := by
  by_cases hkeys : feq p.calcFmt c r.center ∧ feq p.calcFmt b r.bandwidth
  · rwa [resonRecompute_of_feq d hkeys]
  · rw [resonRecompute_of_not_feq d hkeys]
    exact ⟨d, rfl⟩

theorem lowpoleRecompute_current {r : LowpoleRegs} (hr : (Node.lowpole r).CoefsCurrent p) (d : Draws)
    (c : FWord) : (Node.lowpole (lowpoleRecompute p.calcFmt d c r)).CoefsCurrent p := by
  by_cases hkey : feq p.calcFmt c r.cutoff
  · rwa [lowpoleRecompute_of_feq d hkey]
  · rw [lowpoleRecompute_of_not_feq d hkey]
    exact ⟨d, rfl⟩

end

/-- No command leaves coefficients that are not current: NEW and a RESET that stores a sample rate compute
them, a TICK recomputes them with the keys that it writes, and no other command writes them, the sample
rate or a key. -/
theorem exec_coefsCurrent {i : Instr} {s t : State}
    (hs : s.All fun n => n.node.CoefsCurrent s.params) (h : exec i s = .next t) :
    t.All fun n => n.node.CoefsCurrent s.params := by
  cases i <;> simp only [exec] at h
  case butterNew | resonNew | lowpoleNew | dcblockNew =>
    exact construct_all hs h fun d => ⟨d, rfl⟩
  case butterReset rate =>
    refine onUnit_all hs h fun d node r hr hnode => ?_
    obtain rfl := butterOf_eq_some hr
    cases rate with
    | none => exact hnode
    | some _ => exact ⟨d, rfl⟩
  case resonReset rate =>
    refine onUnit_all hs h fun d node r hr hnode => ?_
    obtain rfl := resonOf_eq_some hr
    cases rate with
    | none => exact hnode
    | some _ => exact ⟨d, rfl⟩
  case lowpoleReset rate =>
    refine onUnit_all hs h fun d node r hr hnode => ?_
    obtain rfl := lowpoleOf_eq_some hr
    cases rate with
    | none => exact hnode
    | some _ => exact ⟨d, rfl⟩
  case dcblockReset => exact onUnit_all hs h fun d _ _ _ _ => ⟨d, rfl⟩
  case butterTick =>
    refine onUnit_all hs h fun d node r hr hnode => ?_
    obtain rfl := butterOf_eq_some hr
    exact butterRecompute_current hnode _ _
  case resonTick =>
    refine onUnit_all hs h fun d node r hr hnode => ?_
    obtain rfl := resonOf_eq_some hr
    exact resonRecompute_current hnode _ _ _
  case lowpoleTick =>
    refine onUnit_all hs h fun d node r hr hnode => ?_
    obtain rfl := lowpoleOf_eq_some hr
    exact lowpoleRecompute_current hnode _ _
  case butterSetHash | butterResponse =>
    refine onUnit_all hs h fun d node r hr hnode => ?_
    obtain rfl := butterOf_eq_some hr
    exact hnode
  case resonSetHash | resonResponse =>
    refine onUnit_all hs h fun d node r hr hnode => ?_
    obtain rfl := resonOf_eq_some hr
    exact hnode
  case lowpoleSetHash =>
    refine onUnit_all hs h fun d node r hr hnode => ?_
    obtain rfl := lowpoleOf_eq_some hr
    exact hnode
  case dcblockSetHash | dcblockTick =>
    refine onUnit_all hs h fun d node r hr hnode => ?_
    obtain rfl := dcblockOf_eq_some hr
    exact hnode
  case bqNew | declickNew | noiseNew | sineNew => exact construct_all hs h fun _ => trivial
  case mlsNew =>
    refine onTarget_all hs h fun n hn => ?_
    rw [mlsConstruct]
    split
    · exact hn
    · split
      · exact hn
      · trivial
  case mlsNewSeed | mlsnoiseNew =>
    refine onTarget_all hs h fun n hn => ?_
    split
    · exact hn
    · trivial
  case declickTick =>
    refine onUnit_all hs h fun _ _ _ _ _ => ?_
    dsimp only
    split <;> trivial
  all_goals exact onUnit_all hs h fun _ _ _ _ _ => trivial

/-- Settles O57: a fault keeps every register, and no command leaves coefficients that are not current. -/
theorem coefficientsStayCurrent : Obligations.CoefficientsStayCurrent := by
  intro s t hs h
  rw [step_params h]
  refine step_all (fun _ _ _ hn => hn) (fun i u v hu hall hv => ?_) hs h
  rw [← hu] at hall ⊢
  exact exec_coefsCurrent hall hv

end Sys2Proof.Machine

/-! ### Every command to a live `Inst` completes -/

namespace Sys2Proof.Machine

/-- The outcome that a command adds to those of its `Inst`. -/
theorem outcomes_of_after {w : BitVec 32} {n n' : Inst} (ha : Inst.After w n n') :
    ∃ o, n'.outcomes = o :: n.outcomes := by
  obtain ⟨c, -, rfl⟩ | ⟨node, rs, rfl⟩ := ha
  · exact ⟨.faulted c w, rfl⟩
  · exact ⟨.done rs, rfl⟩

/-- An outcome added to those of the addressed `Inst` ends its sequence in the observation
(70_reset_and_hazards.md R402). -/
theorem observation_setTarget {s : State} {n n' : Inst} {o : CmdOutcome} (hn : s.target? = some n)
    (ho : n'.outcomes = o :: n.outcomes) :
    (s.setTarget n').observation = s.observation.modify s.cur.inst (· ++ o.results) := by
  have hn' : s.insts[s.cur.inst]? = some n := hn
  simp [State.observation, List.map_set, List.modify_eq_set_getElem?, hn', ho]

/-- Settles O10: the command takes a fault or completes, and either adds one outcome. -/
theorem everyCommandToLiveInstanceCompletes : Obligations.EveryCommandToLiveInstanceCompletes := by
  intro i s n ⟨hn, hnone⟩
  obtain ⟨n', hexec, ha⟩ := exec_live (i := i) hn hnone
  obtain ⟨o, ho⟩ := outcomes_of_after ha
  exact ⟨n', o, hexec, ho, observation_setTarget hn ho⟩

end Sys2Proof.Machine

end

section
/-! SUPPORT. Proof of the statement about the command table (30_encoding.md R110): its rows are those of the
(UNIT, OP) pairs that are valid, and a word matches the row of a pair exactly when it is the word of legal
fields with that pair. -/

-- Elaborating one declaration at a time keeps this text within the memory the check allows.
set_option Elab.async false

/-! ### The rows of the command table -/

namespace Sys2Proof.Machine

/-- The units of the command table, in its order (30_encoding.md R104). -/
def tableUnits : List Kind :=
  [.bq, .butter, .reson, .lowpole, .dcblock, .declick, .mls, .mlsnoise, .noise, .sine]

/-- The operations, in the order of their codes (30_encoding.md R103). -/
def tableOps : List Op :=
  [.new, .reset, .setHash, .tick, .setCoefs, .response, .next, .value, .state, .newSeed]

/-- The valid (UNIT, OP) pairs, in the order of the command table (30_encoding.md R110, R111). -/
def commandRows : List (Kind × Op) :=
  tableUnits.flatMap fun unit =>
    (tableOps.filter fun op => (operandTypes unit op).isSome).map fun op => (unit, op)

/-- The match column of the row of a pair: its word with SRF and N at 0. -/
def rowMatch (unit : Kind) (op : Op) : BitVec 32 := (⟨unit, op, false, 0⟩ : Fields).word

/-- A word from the bits of its six fields (30_encoding.md R101). -/
def wordOfBits (rsv1 n : BitVec 8) (rsv0 : BitVec 7) (srf : BitVec 1) (unit op : BitVec 4) : BitVec 32 :=
  rsv1 ++ n ++ rsv0 ++ srf ++ unit ++ op

/-- The bits of N that the mask of a row keeps: none where the row takes a width (30_encoding.md R102). -/
def widthBits (unit : Kind) (op : Op) : BitVec 8 := if takesWidth unit op then 0 else BitVec.allOnes 8

/-- The mask column of the row of a pair: every bit but those of an N that the row takes and of the SRF of
a RESET (30_encoding.md R102, R105). -/
def rowMask (unit : Kind) (op : Op) : BitVec 32 :=
  wordOfBits (BitVec.allOnes 8) (widthBits unit op) (BitVec.allOnes 7) (BitVec.ofBool (op != .reset))
    (BitVec.allOnes 4) (BitVec.allOnes 4)

theorem commandTable_eq_rows : commandTable.map Prod.snd =
    commandRows.map fun row => (rowMatch row.1 row.2, rowMask row.1 row.2) := by decide

theorem nodup_commandRows : commandRows.Nodup := by decide

theorem mem_commandRows {unit : Kind} {op : Op} :
    (unit, op) ∈ commandRows ↔ operandTypes unit op ≠ none := by
  have hop : op ∈ tableOps := by cases op <;> decide
  have hunit : operandTypes unit op ≠ none → unit ∈ tableUnits := by
    cases unit
    case none => exact fun h => absurd rfl h
    all_goals exact fun _ => by decide
  simpa [commandRows, hop, Option.isSome_iff_ne_none] using hunit

/-! ### The words that match a row -/

theorem append_eq_append_iff {v w : ℕ} {x x' : BitVec v} {y y' : BitVec w} :
    x ++ y = x' ++ y' ↔ x = x' ∧ y = y' := by
  refine ⟨fun h => ⟨?_, ?_⟩, fun ⟨hx, hy⟩ => by rw [hx, hy]⟩
  · have hhigh := congrArg (BitVec.extractLsb' w v) h
    rwa [BitVec.extractLsb'_append_eq_left, BitVec.extractLsb'_append_eq_left] at hhigh
  · have hlow := congrArg (BitVec.extractLsb' 0 w) h
    rwa [BitVec.extractLsb'_append_eq_right, BitVec.extractLsb'_append_eq_right] at hlow

/-- Words are masked and compared field by field. -/
theorem wordOfBits_and_eq_iff {rsv1 n rsv1' n' rsv1'' n'' : BitVec 8} {rsv0 rsv0' rsv0'' : BitVec 7}
    {srf srf' srf'' : BitVec 1} {unit op unit' op' unit'' op'' : BitVec 4} :
    wordOfBits rsv1 n rsv0 srf unit op &&& wordOfBits rsv1' n' rsv0' srf' unit' op' =
        wordOfBits rsv1'' n'' rsv0'' srf'' unit'' op'' ↔
      rsv1 &&& rsv1' = rsv1'' ∧ n &&& n' = n'' ∧ rsv0 &&& rsv0' = rsv0'' ∧ srf &&& srf' = srf'' ∧
        unit &&& unit' = unit'' ∧ op &&& op' = op'' := by
  have happend : wordOfBits rsv1 n rsv0 srf unit op &&& wordOfBits rsv1' n' rsv0' srf' unit' op' =
      wordOfBits (rsv1 &&& rsv1') (n &&& n') (rsv0 &&& rsv0') (srf &&& srf') (unit &&& unit')
        (op &&& op') := by
    unfold wordOfBits
    iterate 5 refine BitVec.and_append.trans (congrArg (· ++ _) ?_)
    rfl
  rw [happend]
  change @Eq (BitVec (8 + 8 + 7 + 1 + 4 + 4)) _ _ ↔ _
  simp only [wordOfBits, append_eq_append_iff, and_assoc]

section
variable {unit : Kind} {op : Op}

theorem and_widthBits_eq_zero_iff {n : BitVec 8} :
    n &&& widthBits unit op = 0 ↔ (n.toNat ≠ 0 → takesWidth unit op = true) := by
  rw [widthBits]
  split
  case isTrue h => simp [h]
  case isFalse h =>
    rw [BitVec.and_allOnes, ← BitVec.toNat_inj]
    simp [h]

theorem and_srfBit_eq_zero_iff {srf : Bool} :
    BitVec.ofBool srf &&& BitVec.ofBool (op != .reset) = 0 ↔ (srf = true → op = .reset) := by
  cases srf
  · simp
  · by_cases h : op = .reset <;> simp [h]

/-- A word matches the row of a pair exactly when it is legal and its fields have that pair. -/
theorem and_rowMask_eq_iff (hrow : operandTypes unit op ≠ none) {w : BitVec 32} :
    w &&& rowMask unit op = rowMatch unit op ↔
      ∃ f, fieldsOf w = some f ∧ f.unit = unit ∧ f.op = op := by
  have hw : wordOfBits (w.extractLsb' 24 8) (w.extractLsb' 16 8) (w.extractLsb' 9 7)
      (BitVec.ofBool (w.getLsbD 8)) (w.extractLsb' 4 4) (w.extractLsb' 0 4) = w := append_fields_eq w
  have hmatch : rowMatch unit op = wordOfBits 0 0 0 0 unit.code op.code := rfl
  rw [rowMask, hmatch]
  nth_rw 1 [← hw]
  rw [wordOfBits_and_eq_iff, and_widthBits_eq_zero_iff, and_srfBit_eq_zero_iff]
  simp only [BitVec.and_allOnes]
  constructor
  · rintro ⟨hrsv1, hwidth, hrsv0, hsrf, hunit, hop⟩
    refine ⟨⟨unit, op, w.getLsbD 8, (w.extractLsb' 16 8).toNat⟩,
      fieldsOf_eq_some_iff.mpr ⟨⟨hrow, hsrf, hwidth, BitVec.isLt _⟩, ?_⟩, rfl, rfl⟩
    rw [Fields.word, BitVec.ofNat_toNat, BitVec.setWidth_eq, ← hunit, ← hop, ← hrsv1, ← hrsv0,
      append_fields_eq]
  · rintro ⟨f, hf, rfl, rfl⟩
    obtain ⟨⟨-, hsrf, hwidth, hfits⟩, rfl⟩ := fieldsOf_eq_some_iff.mp hf
    simpa [Nat.mod_eq_of_lt hfits] using ⟨hwidth, hsrf⟩

end

/-- A word matches some row exactly when it is legal: its own pair has one. -/
theorem exists_and_rowMask_eq_iff {w : BitVec 32} :
    (∃ row ∈ commandRows, w &&& rowMask row.1 row.2 = rowMatch row.1 row.2) ↔
      (fieldsOf w).isSome := by
  rw [Option.isSome_iff_exists]
  constructor
  · rintro ⟨⟨unit, op⟩, hmem, hw⟩
    obtain ⟨f, hf, -⟩ := (and_rowMask_eq_iff (mem_commandRows.mp hmem)).mp hw
    exact ⟨f, hf⟩
  · rintro ⟨f, hf⟩
    obtain ⟨⟨hrow, -⟩, -⟩ := fieldsOf_eq_some_iff.mp hf
    exact ⟨(f.unit, f.op), mem_commandRows.mpr hrow,
      (and_rowMask_eq_iff hrow).mpr ⟨f, hf, rfl, rfl⟩⟩

/-- The rows that one word matches have the pair of its fields. -/
theorem row_eq_of_and_rowMask_eq {a b : Kind × Op} (ha : a ∈ commandRows) (hb : b ∈ commandRows)
    {w : BitVec 32} (hwa : w &&& rowMask a.1 a.2 = rowMatch a.1 a.2)
    (hwb : w &&& rowMask b.1 b.2 = rowMatch b.1 b.2) : a = b := by
  obtain ⟨f, hf, haunit, haop⟩ := (and_rowMask_eq_iff (mem_commandRows.mp ha)).mp hwa
  obtain ⟨g, hg, hbunit, hbop⟩ := (and_rowMask_eq_iff (mem_commandRows.mp hb)).mp hwb
  obtain rfl := Option.some.inj (hf.symm.trans hg)
  exact Prod.ext (haunit.symm.trans hbunit) (haop.symm.trans hbop)

/-- Settles O6: the rows of the table are those of the valid pairs, and a word matches the row of its own
pair, if it is legal, and no other. -/
theorem legalWordsAreTableRows : Obligations.LegalWordsAreTableRows := by
  refine ⟨fun w => ?legal, ?disjoint⟩
  case legal =>
    have hcolumns : (∃ row ∈ commandTable, w &&& row.2.2 = row.2.1) ↔
        ∃ columns ∈ commandTable.map Prod.snd, w &&& columns.2 = columns.1 := by
      simp only [List.mem_map, exists_exists_and_eq_and]
    rw [hcolumns, commandTable_eq_rows, ← exists_and_rowMask_eq_iff]
    simp only [List.mem_map, exists_exists_and_eq_and]
  case disjoint =>
    have hrows : (commandTable.map Prod.snd).Pairwise fun a b =>
        ∀ w : BitVec 32, ¬(w &&& a.2 = a.1 ∧ w &&& b.2 = b.1) := by
      rw [commandTable_eq_rows, List.pairwise_map]
      refine nodup_commandRows.imp_of_mem fun {a b} ha hb hne w hw => ?_
      exact hne (row_eq_of_and_rowMask_eq ha hb hw.1 hw.2)
    exact List.pairwise_map.mp hrows

end Sys2Proof.Machine

end

section
/-! SUPPORT. Proof of the statement about the phase of a hash (45_oscillator.md R320): rounding toward zero
gives the greatest value of the format not above the quotient, and a hash of 32 bits over 2^32 is itself a
value where the significand has 32 bits. -/

-- Elaborating one declaration at a time keeps this text within the memory the check allows.
set_option Elab.async false

/-! ### The default phase -/

namespace Sys2Proof.Machine

/-- Rounding toward zero gives the greatest representable magnitude that is at most the quotient. -/
theorem truncate_greatest (f : Fmt) (neg : Bool) (n : ℕ) {d : ℕ} (hd : 0 < d) :
    ∃ m, Fp.truncate f neg n d = .fin neg m ∧ m * d ≤ n ∧
      ∀ q, Representable f q → q * d ≤ n → q ≤ m := by
  refine ⟨_, rfl, ?_, fun q hq hle => ?_⟩
  · rw [← Nat.le_div_iff_mul_le hd, ← Nat.div_div_eq_div_mul]
    exact Nat.div_mul_le_self _ _
  · rw [← Nat.le_div_iff_mul_le hd] at hle
    rw [← Nat.div_div_eq_div_mul, spacing_eq_two_pow]
    have multiple : ∀ {r}, 2 ^ spacingExp f (n / d) ∣ r → r ≤ n / d →
        r ≤ n / d / 2 ^ spacingExp f (n / d) * 2 ^ spacingExp f (n / d) := by
      rintro r ⟨k, rfl⟩ hr
      rw [mul_comm _ k] at hr ⊢
      exact Nat.mul_le_mul_right _ ((Nat.le_div_iff_mul_le (by positivity)).mpr hr)
    rcases representable_dvd_or_lt hq (spacingExp f (n / d)) with hdvd | ⟨ht, hlt⟩
    · exact multiple hdvd hle
    · have hlow := (two_pow_le_of_spacingExp f (n / d)).resolve_left (by omega)
      exact hlt.le.trans (multiple (pow_dvd_pow 2 (by omega)) hlow)

section
variable {f : Fmt} (hf : Interchange f) (h : U32)
include hf

theorem thirtytwo_le_qexp : 32 ≤ qexp f := by
  have heb := eight_le_eb hf
  have hpow : 2 ^ 7 ≤ 2 ^ (f.eb - 1) := Nat.pow_le_pow_right (by decide) (by omega)
  simp only [qexp]
  omega

/-- The quotient h / 2^32 is a whole number of quanta. -/
theorem hash_mul_quanta : h.toNat * 2 ^ qexp f = h.toNat * 2 ^ (qexp f - 32) * 2 ^ 32 := by
  rw [mul_assoc, ← pow_add, Nat.sub_add_cancel (thirtytwo_le_qexp hf)]

theorem hash_quanta_lt : h.toNat * 2 ^ (qexp f - 32) < 2 ^ qexp f := by
  refine Nat.lt_of_mul_lt_mul_right (a := 2 ^ 32) ?_
  rw [← hash_mul_quanta hf, mul_comm]
  exact Nat.mul_lt_mul_of_pos_left h.isLt (by positivity)

theorem inFormat_scaledPhase : (scaledPhase f h).InFormat f := by
  refine inFormat_truncate false ?_
  rw [hash_mul_quanta hf, Nat.mul_div_cancel _ (by positivity)]
  exact (hash_quanta_lt hf h).trans (two_pow_lt_overflow hf (k := 0) (by decide))

/-- The default phase is the greatest value that is at most h / 2^32, which is below 1. -/
theorem scaledPhase_greatest : ∃ m, scaledPhase f h = .fin false m ∧ Representable f m ∧
    m < 2 ^ qexp f ∧ m * 2 ^ 32 ≤ h.toNat * 2 ^ qexp f ∧
    ∀ q, Representable f q → q * 2 ^ 32 ≤ h.toNat * 2 ^ qexp f → q ≤ m := by
  obtain ⟨m, hm, hle, hgreatest⟩ :=
    truncate_greatest f false (h.toNat * 2 ^ qexp f) (d := 2 ^ 32) (by positivity)
  have hformat := inFormat_scaledPhase hf h
  rw [scaledPhase, hm] at hformat
  obtain ⟨hrep, -⟩ := hformat
  have hle' := hle
  rw [hash_mul_quanta hf] at hle'
  have hlt := (Nat.le_of_mul_le_mul_right hle' (by positivity)).trans_lt (hash_quanta_lt hf h)
  exact ⟨m, hm, hrep, hlt, hle, hgreatest⟩

/-- With 32 significand bits the default phase is h / 2^32 itself, a value of the format. -/
theorem scaledPhase_exact (hmb : 31 ≤ f.mb) :
    scaledPhase f h = .fin false (h.toNat * 2 ^ (qexp f - 32)) := by
  obtain ⟨m, hm, -, -, hle, hgreatest⟩ := scaledPhase_greatest hf h
  have hrep : Representable f (h.toNat * 2 ^ (qexp f - 32)) :=
    representable_of_le (h.isLt.le.trans (Nat.pow_le_pow_right (by decide) (by omega))) _
  have hge := hgreatest _ hrep (hash_mul_quanta hf h).ge
  rw [hash_mul_quanta hf] at hle
  rw [hm, (Nat.le_of_mul_le_mul_right hle (by positivity)).antisymm hge]

end

/-! ### The phase of a hash -/

theorem inUnit_iff {f : Fmt} {v : Fp} : v.inUnit f = true ↔
    ∃ s m, v = .fin s m ∧ m < 2 ^ qexp f ∧ (s = true → m = 0) := by
  cases v with
  | nan => simp [Fp.inUnit]
  | inf neg => simp [Fp.inUnit]
  | fin s m => cases s <;> simp [Fp.inUnit]

section
variable {p : Params} (hF : Interchange p.calcFmt) (h : U32)
include hF

theorem valF_phaseOfHash_scaled (hp : p.phaseMap = .scaled) :
    valF p.calcFmt (phaseOfHash p h) = scaledPhase p.calcFmt h := by
  simp only [phaseOfHash, hp]
  exact valF_wordF hF _ (inFormat_scaledPhase hF h)

/-- A map other than the default is checked against [0, 1) at every hash (log 4). -/
theorem valF_phaseOfHash_inUnit : (valF p.calcFmt (phaseOfHash p h)).inUnit p.calcFmt = true := by
  have hscaled : (scaledPhase p.calcFmt h).inUnit p.calcFmt = true := by
    obtain ⟨m, hm, -, hlt, -⟩ := scaledPhase_greatest hF h
    exact inUnit_iff.mpr ⟨false, m, hm, hlt, nofun⟩
  cases hp : p.phaseMap with
  | scaled => rwa [valF_phaseOfHash_scaled hF h hp]
  | other k =>
    simp only [phaseOfHash, hp]
    split
    case isTrue hunit => rwa [valF_wordF hF _ (inFormat_valF hF _)]
    case isFalse => rwa [valF_wordF hF _ (inFormat_scaledPhase hF h)]

end

/-- Settles O45: whatever the map, a phase outside [0, 1) is replaced by the default one, which is the
greatest value that is at most h / 2^32. -/
theorem phaseOfHashIsExact : Obligations.PhaseOfHashIsExact := by
  refine ⟨fun p h ⟨hF, _⟩ => inUnit_iff.mp (valF_phaseOfHash_inUnit hF h),
    fun p h ⟨hF, _⟩ hp => ?_, fun p ⟨hF, _⟩ hp hmb h h' heq => ?_⟩
  · obtain ⟨m, hm, hrep, -, hle, hgreatest⟩ := scaledPhase_greatest hF h
    refine ⟨m, (valF_phaseOfHash_scaled hF h hp).trans hm, hrep, hle, hgreatest, fun hmb => ?_⟩
    rw [scaledPhase_exact hF h hmb] at hm
    exact (Fp.fin.inj hm).2.symm
  · have hval := congrArg (valF p.calcFmt) heq
    rw [valF_phaseOfHash_scaled hF h hp, valF_phaseOfHash_scaled hF h' hp, scaledPhase_exact hF h hmb,
      scaledPhase_exact hF h' hmb] at hval
    obtain ⟨-, hquanta⟩ := Fp.fin.inj hval
    exact BitVec.toNat_injective (Nat.eq_of_mul_eq_mul_right (by positivity) hquanta)

end Sys2Proof.Machine

end

section
/-! SUPPORT. Proof of the statement about the zeros of the resonator (40_coefficients.md R147): sums that are
exact because they are values of the format. -/

-- Elaborating one declaration at a time keeps this text within the memory the check allows.
set_option Elab.async false

/-! ### Sums that are values of the format -/

namespace Sys2Proof.Machine

section
variable {f : Fmt} {s t neg : Bool} {m k n : ℕ}

/-- A sum whose exact value is a value of the format is exact. -/
theorem add_fin_exact (hsum : signedMag s m + signedMag t k = signedMag neg n)
    (hn : (Fp.fin neg n).InFormat f) :
    Fp.add f (.fin s m) (.fin t k) = if n = 0 then .fin (s && t) 0 else .fin neg n := by
  obtain ⟨hrep, hover⟩ := hn
  obtain ⟨neg', n', hsum', hzero, hround⟩ := add_fin_fin f s t m k
  rcases signedMag_eq_iff.mp (hsum.symm.trans hsum') with ⟨rfl, rfl⟩ | ⟨rfl, rfl⟩
  · split
    case isTrue h => exact hzero h
    case isFalse h =>
      rw [hround h]
      simpa only [mul_one] using round_exact neg hrep one_pos hover
  · exact hzero rfl

theorem sub_fin_exact (hdiff : signedMag s m - signedMag t k = signedMag neg n)
    (hn : (Fp.fin neg n).InFormat f) :
    Fp.sub f (.fin s m) (.fin t k) = if n = 0 then .fin (s && !t) 0 else .fin neg n :=
  add_fin_exact (by rw [signedMag_not, ← sub_eq_add_neg, hdiff]) hn

/-! ### The zeros of the resonator -/

/-- A zero added to b0, and then the negation of b0, give a zero: the first sum is b0, up to the sign of a
zero. -/
theorem add_zero_add_neg (t : Bool) (hm : (Fp.fin neg m).InFormat f) :
    ∃ s, Fp.add f (Fp.add f (.fin neg m) (.fin t 0)) (.fin (!neg) m) = .fin s 0 := by
  have hfirst : signedMag neg m + signedMag t 0 = signedMag neg m := by
    rw [signedMag_eq_zero.mpr rfl, add_zero]
  have hsecond : signedMag neg m + signedMag (!neg) m = signedMag false 0 := by
    rw [signedMag_not, add_neg_cancel]
    rfl
  rw [add_fin_exact hfirst hm]
  split
  case isTrue hzero =>
    subst hzero
    exact ⟨_, add_fin_exact (neg := false) (by cases neg <;> cases t <;> rfl) (inFormat_zero _)⟩
  case isFalse => exact ⟨_, add_fin_exact hsecond (inFormat_zero _)⟩

end

theorem valF_zeroF {f : Fmt} (hf : Interchange f) : valF f zeroF = .fin false 0 := by
  have hbits : (Fp.fin false 0).toBits f default = 0 := by simp [Fp.toBits, signBits, magBits]
  have hread := ofBits_toBits hf default (inFormat_zero (f := f) false)
  rwa [hbits] at hread

theorem feq_zeroF {f : Fmt} (hf : Interchange f) {w : FWord} {s : Bool} (hw : valF f w = .fin s 0) :
    feq f w zeroF = true := by
  rw [feq, hw, valF_zeroF hf, eq_iff_key]
  exact ⟨0, key_fin s 0 ▸ congrArg some (signedMag_eq_zero.mpr rfl), rfl⟩

/-- Settles O52: the two coefficients stand in both forms, and the sums are those of b0, a zero and the
negation of b0. -/
theorem resonatorHasZerosAtDcAndNyquist : Obligations.ResonatorHasZerosAtDcAndNyquist := by
  refine fun f hf => ⟨fun form d sr fc bw => ⟨d 12, rfl, rfl⟩, fun d e b0 neg m hb0 => ?_⟩
  have hm : (Fp.fin neg m).InFormat f := hb0 ▸ inFormat_valF hf b0
  obtain ⟨s, hdc⟩ := add_zero_add_neg false hm
  obtain ⟨t, hnyquist⟩ := add_zero_add_neg true hm
  constructor
  · refine feq_zeroF hf (s := s) ?_
    rw [valF_fadd hf, valF_fadd hf, valF_fneg hf, hb0, valF_zeroF hf]
    exact hdc
  · refine feq_zeroF hf (s := t) ?_
    rw [valF_fadd hf, valF_fsub hf, valF_fneg hf, hb0, valF_zeroF hf]
    exact hnyquist

end Sys2Proof.Machine

end

section
/-! SUPPORT. Proofs of the statements about the noise generators (44_noise.md): the exact sample of
NOISE.TICK, and what MLSNOISE.RESET and MLSNOISE.TICK leave and return. -/

-- Elaborating one declaration at a time keeps this text within the memory the check allows.
set_option Elab.async false

/-! ### Operations whose exact results are values of the format -/

namespace Sys2Proof.Machine

section
variable {f : Fmt} (hf : Interchange f) {s t neg : Bool} {m k n d : ℕ}
include hf

/-- Few significand bits and a magnitude near 1 make a value of every interchange format. -/
theorem inFormat_of_le {a e : ℕ} (ha : a ≤ 2 ^ 24) (hle : a * 2 ^ e ≤ 2 ^ (qexp f + 32)) :
    (Fp.fin neg (a * 2 ^ e)).InFormat f := by
  have hmb := twentythree_le_mb hf
  exact ⟨representable_of_le (ha.trans (Nat.pow_le_pow_right (by decide) (by omega))) e,
    hle.trans_lt (two_pow_lt_overflow hf le_rfl)⟩

omit hf in
theorem ofRat_exact (hd : 0 < d) (hn : n * 2 ^ qexp f = m * d) (hm : (Fp.fin neg m).InFormat f) :
    Fp.ofRat f neg n d = .fin neg m := by
  obtain ⟨hrep, hover⟩ := hm
  rw [Fp.ofRat, hn, round_exact neg hrep hd hover]

omit hf in
theorem mul_fin_exact (hprod : m * k = n * 2 ^ qexp f) (hn : (Fp.fin (s != t) n).InFormat f) :
    Fp.mul f (.fin s m) (.fin t k) = .fin (s != t) n := by
  obtain ⟨hrep, hover⟩ := hn
  rw [Fp.mul, hprod, round_exact _ hrep (by positivity) hover]

omit hf in
theorem convert_fin_exact {g : Fmt} (hn : m * 2 ^ qexp f = n * 2 ^ qexp g)
    (hm : (Fp.fin s n).InFormat f) : Fp.convert g f (.fin s m) = .fin s n := by
  obtain ⟨hrep, hover⟩ := hm
  rw [Fp.convert, hn, round_exact s hrep (by positivity) hover]

/-- The value of a small integer. -/
theorem valF_natToF {u : ℕ} (hu : u ≤ 2 ^ 24) :
    valF f (natToF f u) = .fin false (u * 2 ^ qexp f) := by
  rw [natToF, valF_litF hf]
  refine ofRat_exact one_pos (mul_one _).symm (inFormat_of_le hf hu ?_)
  rw [pow_add, mul_comm]
  exact Nat.mul_le_mul_left _ (hu.trans (by decide))

/-- 1 in the quanta of the format. -/
theorem ofRat_one : Fp.ofRat f neg 1 1 = .fin neg (2 ^ qexp f) := by
  refine ofRat_exact one_pos (by omega) ?_
  simpa using inFormat_of_le hf (neg := neg) (a := 1) (e := qexp f) (by decide)
    (by rw [one_mul]; exact Nat.pow_le_pow_right (by decide) (by omega))

end

/-! ### The sample of NOISE -/

/-- X[63:44] (44_noise.md R302). -/
theorem toNat_sampleBits (x : U64) : (x.extractLsb' 44 20).toNat = x.toNat / 2 ^ 44 := by
  have hx := x.isLt
  rw [BitVec.extractLsb'_toNat, Nat.shiftRight_eq_div_pow]
  exact Nat.mod_eq_of_lt (by omega)

theorem signedMag_natAbs (z : ℤ) : signedMag (z < 0) z.natAbs = z := by
  by_cases hz : z < 0
  · simp [signedMag, hz, abs_of_neg]
  · simp [signedMag, hz, abs_of_nonneg (not_lt.mp hz)]

theorem signedMag_mul (s : Bool) (m k : ℕ) : signedMag s (m * k) = signedMag s m * k := by
  cases s <;> simp [signedMag]

/-- The difference of X[63:44] and 2^19 in units of `w` quanta. -/
theorem signedMag_sub_two_pow (u w : ℕ) :
    signedMag false (u * w) - signedMag false (2 ^ 19 * w) =
      signedMag (u < 2 ^ 19) (((u : ℤ) - 2 ^ 19).natAbs * w) := by
  have hsign : decide (u < 2 ^ 19) = decide ((u : ℤ) - 2 ^ 19 < 0) := by
    rw [decide_eq_decide]
    omega
  rw [hsign, signedMag_mul, signedMag_mul, signedMag_mul, signedMag_natAbs, ← sub_mul]
  simp [signedMag]

/-- An integer of at most 20 bits in units of 2^-19 is a value of every interchange format. -/
theorem inFormat_noiseSample {f : Fmt} (hf : Interchange f) (neg : Bool) {m : ℕ} (hm : m ≤ 2 ^ 20) :
    (Fp.fin neg (m * 2 ^ (qexp f - 19))).InFormat f := by
  refine inFormat_of_le hf (hm.trans (by decide)) ?_
  calc m * 2 ^ (qexp f - 19) ≤ 2 ^ 20 * 2 ^ (qexp f - 19) := Nat.mul_le_mul_right _ hm
    _ = 2 ^ (20 + (qexp f - 19)) := (pow_add ..).symm
    _ ≤ 2 ^ (qexp f + 32) := Nat.pow_le_pow_right (by decide) (by omega)

theorem two_pow_qexp {f : Fmt} (hf : Interchange f) : 2 ^ qexp f = 2 ^ 19 * 2 ^ (qexp f - 19) := by
  have hq := thirtytwo_le_qexp hf
  rw [← pow_add]
  congr 1
  omega

/-- The sample in F: each of the operations of R302 is exact. -/
theorem valF_noiseSample {f : Fmt} (hf : Interchange f) (d : Draws) {u : ℕ} (hu : u < 2 ^ 20) :
    valF f (fsub f (d 0) (fmul f (d 1) (natToF f u) (litF f false 1 (2 ^ 19))) (natToF f 1)) =
      .fin (u < 2 ^ 19) (((u : ℤ) - 2 ^ 19).natAbs * 2 ^ (qexp f - 19)) := by
  have hunit : valF f (litF f false 1 (2 ^ 19)) = .fin false (1 * 2 ^ (qexp f - 19)) := by
    rw [valF_litF hf]
    refine ofRat_exact (by decide) ?_ (inFormat_noiseSample hf _ (by decide))
    rw [two_pow_qexp hf]
    ring
  have hprod : Fp.mul f (.fin false (u * 2 ^ qexp f)) (.fin false (1 * 2 ^ (qexp f - 19))) =
      .fin false (u * 2 ^ (qexp f - 19)) :=
    mul_fin_exact (by ring) (inFormat_noiseSample hf _ (by omega))
  rw [valF_fsub hf, valF_fmul hf, valF_natToF hf (by omega), valF_natToF hf (by decide), hunit, hprod,
    one_mul, two_pow_qexp hf,
    sub_fin_exact (signedMag_sub_two_pow u _) (inFormat_noiseSample hf _ (by omega))]
  split
  case isTrue hzero =>
    have hu' : u = 2 ^ 19 := by
      rw [mul_eq_zero, Int.natAbs_eq_zero] at hzero
      have := hzero.resolve_right (by positivity)
      omega
    simp [hu']
  case isFalse => rfl

/-- The sample in S: the value is one of every interchange format. -/
theorem valS_lcgSample {p : Params} (hF : Interchange p.calcFmt) (hS : Interchange p.sampleFmt)
    (d : Draws) (x : U64) : valS p.sampleFmt (lcgSample p d x) =
      .fin (x.toNat / 2 ^ 44 < 2 ^ 19)
        (((x.toNat / 2 ^ 44 : ℕ) - 2 ^ 19 : ℤ).natAbs * 2 ^ (qexp p.sampleFmt - 19)) := by
  have hx := x.isLt
  have hu : x.toNat / 2 ^ 44 < 2 ^ 20 := by omega
  rw [lcgSample, valS_toS hF hS, toNat_sampleBits, valF_noiseSample hF d hu]
  refine convert_fin_exact ?_ (inFormat_noiseSample hS _ (by omega))
  rw [two_pow_qexp hS, two_pow_qexp hF]
  ring

theorem toNat_lcgNext (x : U64) :
    (lcgNext x).toNat = (x.toNat * 6364136223846793005 + 1442695040888963407) % 2 ^ 64 := by
  have hm : lcgM.toNat = 6364136223846793005 := by decide
  have hc : lcgC.toNat = 1442695040888963407 := by decide
  rw [lcgNext, BitVec.toNat_add, BitVec.toNat_mul, hm, hc, Nat.mod_add_mod]

/-- NOISE.TICK advances X and returns the sample of the new X (44_noise.md R306). -/
theorem noiseTick_completes {s : State} {n : Inst} {r : NoiseRegs} (hlive : Live s n)
    (hr : n.node = .noise r) :
    Completes .noiseTick s n (.noise { r with x := lcgNext r.x })
      [.s (lcgSample s.params (s.drawsOf n) (lcgNext r.x))] :=
  completes_of_onUnit (Eq.refl (execNoiseTick s)) hlive (congrArg noiseOf hr) rfl

/-- Settles O42: X[63:44] has 20 bits, so that the product with 2^-19 and the difference are exact, and the
narrowing to S too. -/
theorem noiseTickReturnsExactSample : Obligations.NoiseTickReturnsExactSample := by
  intro s n r ⟨hF, hS, _⟩ hlive hr
  exact ⟨decode_of_fields ⟨.noise, .tick, false, 0⟩ rfl rfl (by decide),
    lcgNext r.x, _, toNat_lcgNext r.x, valS_lcgSample hF hS _ _, noiseTick_completes hlive hr⟩

/-! ### MLSNOISE -/

/-- The sample of a bit is +1 or -1 (44_noise.md R290). -/
theorem valS_mlsSample {f : Fmt} (hf : Interchange f) (n : ℕ) (s : U32) :
    valS f (mlsSample f (mlsOut n s)) = .fin (!s.getLsbD (n - 1)) (2 ^ qexp f) := by
  have hlit neg : valS f (litS f neg 1 1) = .fin neg (2 ^ qexp f) :=
    (ofBits_toBits hf default (inFormat_round _ _ _)).trans (ofRat_one hf)
  have hbit : mlsOut n s = 1 ↔ s.getLsbD (n - 1) = true := by
    rw [← BitVec.toNat_inj, toNat_mlsOut]
    split <;> simp_all
  rw [mlsSample]
  split
  case isTrue h => rw [hlit, hbit.mp h, Bool.not_true]
  case isFalse h => rw [hlit, Bool.eq_false_iff.mpr (mt hbit.mpr h), Bool.not_false]

section
variable {s : State} {n : Inst} {r : MlsnoiseRegs} (hlive : Live s n) (hr : n.node = .mlsnoise r)
include hlive hr

/-- MLSNOISE.RESET seeds S with HASH and ignores a sample rate (44_noise.md R292). -/
theorem mlsnoiseReset_completes (rate : Option FWord) :
    Completes (.mlsnoiseReset rate) s n (.mlsnoise { r with s := mlsSeed r.n.toNat r.hash }) [] :=
  completes_of_onUnit (Eq.refl (execMlsnoiseReset rate s)) hlive (congrArg mlsnoiseOf hr) rfl

/-- MLSNOISE.TICK returns the sample of the old S and advances S (44_noise.md R294). -/
theorem mlsnoiseTick_completes :
    Completes .mlsnoiseTick s n
      (.mlsnoise { r with s := mlsNext s.params.mlsPoly r.n.toNat r.s })
      [.s (mlsSample s.params.sampleFmt (mlsOut r.n.toNat r.s))] :=
  completes_of_onUnit (Eq.refl (execMlsnoiseTick s)) hlive (congrArg mlsnoiseOf hr) rfl

end

/-- Settles O40: RESET applies the seed formula to HASH, and the sample of TICK is that of MLS_OUT, which is
bit N - 1 of the old S. -/
theorem mlsnoiseResetAndTick : Obligations.MlsnoiseResetAndTick := by
  intro s n r sr ⟨_, hS, _⟩ hlive hr h1 h31
  exact ⟨decode_of_fields ⟨.mlsnoise, .reset, false, 0⟩ rfl rfl (by decide),
    decode_of_fields ⟨.mlsnoise, .reset, true, 0⟩ rfl rfl (by decide),
    decode_of_fields ⟨.mlsnoise, .tick, false, 0⟩ rfl rfl (by decide),
    fun rate => ⟨_, toNat_mlsSeed h31 h1 r.hash, mlsnoiseReset_completes hlive hr rate⟩,
    _, valS_mlsSample hS _ _, mlsnoiseTick_completes hlive hr⟩

end Sys2Proof.Machine

end

section
/-! SUPPORT. Proofs of the statements about BQ.NEW and BQ.TICK (41_biquad.md), DECLICK.TICK and SMOOTH9
(42_derived_filters.md), and the constructions of MLS and MLSNOISE (43_mls.md, 44_noise.md). -/

-- Elaborating one declaration at a time keeps this text within the memory the check allows.
set_option Elab.async false

/-! ### BQ -/

namespace Sys2Proof.Machine

section
variable {s : State} {n : Inst} (hlive : Live s n)
include hlive

theorem bqNew_completes :
    Completes .bqNew s n (.bq ⟨Coefs.zero, Delays.zero, Config.initialHash⟩) [] :=
  completes_of_construct (Eq.refl (execBqNew s)) hlive rfl

/-- BQ.TICK writes the delay registers alone and returns the narrowed value of the recurrence
(41_biquad.md R174). -/
theorem bqTick_completes {r : BqRegs} (x : SWord) (hr : n.node = .bq r) :
    Completes (.bqTick x) s n
      (.bq { r with delays := (biquadStep s.params (s.drawsOf n) r.coefs r.delays x).1 })
      (sampleResult s.params (s.drawsOf n 10)
        (biquadStep s.params (s.drawsOf n) r.coefs r.delays x).2) :=
  completes_of_onUnit (Eq.refl (execBqTick x s)) hlive (congrArg bqOf hr) rfl

end

/-- Settles O16: the construction writes out the nine zeros. -/
theorem bqNewZeroesRegisters : Obligations.BqNewZeroesRegisters :=
  ⟨decode_of_fields ⟨.bq, .new, false, 0⟩ rfl rfl (by decide),
    fun _ _ hlive => bqNew_completes hlive⟩

/-- Settles O18: the recurrence, with the draws of the command, leaves the shifted delays. -/
theorem bqTickRunsDirectFormOne : Obligations.BqTickRunsDirectFormOne := by
  intro s n c x1 x2 y1 y2 h x hlive hr f
  exact ⟨decode_of_fields ⟨.bq, .tick, false, 0⟩ rfl rfl (by decide),
    s.drawsOf n, _, _, rfl, rfl, bqTick_completes hlive x hr⟩

end Sys2Proof.Machine

/-! ### DECLICK.TICK -/

namespace Sys2Proof.Machine

section
variable {s : State} {n : Inst} {r : DeclickRegs} (hlive : Live s n) (x : SWord)
  (hr : n.node = .declick r)
include hlive hr

/-- Inside the window T advances and the gain is that of the old T (42_derived_filters.md R244). -/
theorem declickTick_completes_of_flt (hin : flt s.params.calcFmt r.t r.duration) :
    Completes (.declickTick x) s n
      (.declick { r with t := fadd s.params.calcFmt (s.drawsOf n 3) r.t r.dt })
      (sampleResult s.params (s.drawsOf n 10)
        (fmul s.params.calcFmt (s.drawsOf n 1) (toF s.params (s.drawsOf n 2) x)
          (smooth9 s.params.calcFmt (drawsFrom (s.drawsOf n) 20)
            (fdiv s.params.calcFmt (s.drawsOf n 0) r.t r.duration)))) :=
  completes_of_onUnit (Eq.refl (execDeclickTick x s)) hlive (congrArg declickOf hr) (if_pos hin)

/-- Past the window the input word passes and every register is kept (42_derived_filters.md R245). -/
theorem declickTick_completes_of_not_flt (hpast : ¬flt s.params.calcFmt r.t r.duration) :
    Completes (.declickTick x) s n (.declick r) [.s x] :=
  completes_of_onUnit (Eq.refl (execDeclickTick x s)) hlive (congrArg declickOf hr) (if_neg hpast)

end

/-- Settles O32: T is below DURATION and the sample is faded, or it is not and the word passes. -/
theorem declickTickFadesThenPasses : Obligations.DeclickTickFadesThenPasses := by
  intro s n r x hlive hr f
  refine ⟨decode_of_fields ⟨.declick, .tick, false, 0⟩ rfl rfl (by decide), ?_⟩
  split
  case isTrue hin =>
    exact ⟨s.drawsOf n, drawsFrom (s.drawsOf n) 20, _, rfl,
      declickTick_completes_of_flt hlive x hr hin⟩
  case isFalse hpast => exact declickTick_completes_of_not_flt hlive x hr hpast

end Sys2Proof.Machine

/-! ### SMOOTH9 -/

namespace Sys2Proof.Machine

/-- Where SMOOTH9 is not a NaN it is the same whatever the draws, for its value is a function of the value
of the argument (00_scope.md R18). -/
theorem smooth9_draws {f : Fmt} (hf : Interchange f) (d e : Draws) {p : FWord}
    (hnan : valF f (smooth9 f e p) ≠ .nan) : smooth9 f d p = smooth9 f e p := by
  have hval : valF f (smooth9 f d p) = valF f (smooth9 f e p) := by
    simp (disch := assumption) [smooth9]
  have hword d : smooth9 f d p = wordF f (d 11) (valF f (smooth9 f d p)) :=
    (congrArg (wordF f (d 11)) (valF_fmul hf _ _ _)).symm
  rw [hword d, hval, wordF, toBits_draw hnan (d 11) (e 11)]
  exact (hword e).symm

/-- A value that SMOOTH9 has with the default draws, it has with all. -/
theorem smooth9_eq {f : Fmt} (hf : Interchange f) {p y : FWord}
    (hy : smooth9 f (fun _ => default) p = y ∧ valF f y ≠ .nan) (d : Draws) : smooth9 f d p = y := by
  obtain ⟨rfl, hnan⟩ := hy
  exact smooth9_draws hf d _ hnan

/-- Settles O33: Horner's scheme step by step, and the seven values computed with the default draws. -/
theorem smoothStepValues : Obligations.SmoothStepValues := by
  refine ⟨fun f d p => ⟨d, _, _, _, _, _, _, rfl, rfl, rfl, rfl, rfl, rfl, rfl⟩, fun d => ?_⟩
  have hf : Interchange .binary64 := .inr (.inl rfl)
  exact ⟨smooth9_eq hf (by decide +kernel) d, smooth9_eq hf (by decide +kernel) d,
    smooth9_eq hf (by decide +kernel) d, smooth9_eq hf (by decide +kernel) d,
    smooth9_eq hf (by decide +kernel) d, smooth9_eq hf (by decide +kernel) d,
    smooth9_eq hf (by decide +kernel) d⟩

end Sys2Proof.Machine

/-! ### Constructions that check their width first -/

namespace Sys2Proof.Machine

section
variable {s : State} {n : Inst} {i : Instr} {f : Inst → Inst} (hlive : Live s n)
  (hi : exec i s = s.onTarget f)
include hlive hi

/-- An operation that raises a fault on the addressed `Inst`. -/
theorem faults_of_onTarget {c : FaultCause} (hf : f n = n.raise c s.cur.word) : Faults i s n c := by
  obtain ⟨hn, hnone⟩ := hlive
  exact ⟨n.raise c s.cur.word, by rw [hi, onTarget_live hn hnone, hf], rfl, rfl, rfl, rfl⟩

/-- An operation that completes on the addressed `Inst`. -/
theorem completes_of_onTarget {node : Node} {results : List XferWord}
    (hf : f n = n.complete node results) : Completes i s n node results := by
  obtain ⟨hn, hnone⟩ := hlive
  exact ⟨n.complete node results, by rw [hi, onTarget_live hn hnone, hf], rfl, rfl, rfl, rfl⟩

end

theorem validWidth_eq_false_iff {width : ℕ} :
    validWidth width = false ↔ width = 0 ∨ 31 < width := by
  rw [← Bool.not_eq_true, validWidth_iff]
  omega

theorem validWidth_of_not {width : ℕ} (h : ¬(width = 0 ∨ 31 < width)) : validWidth width = true :=
  validWidth_iff.mpr (by omega)

theorem toNat_ofNat_width {width : ℕ} (h : ¬(width = 0 ∨ 31 < width)) :
    (BitVec.ofNat 32 width).toNat = width := Nat.mod_eq_of_lt (by omega)

theorem toNat_append_eq {v w : ℕ} (x : BitVec v) (y : BitVec w) :
    (x ++ y).toNat = x.toNat * 2 ^ w + y.toNat := by
  rw [BitVec.toNat_append, ← Nat.shiftLeft_add_eq_or_of_lt y.isLt, Nat.shiftLeft_eq]

/-- The word of a command with a width (30_encoding.md R101, R106). -/
theorem word_width (unit : Kind) (op : Op) {width : ℕ} (hwidth : width < 256) :
    (⟨unit, op, false, width⟩ : Fields).word =
      BitVec.ofNat 32 (width * 2 ^ 16 + (unit.code ++ op.code).toNat) := by
  have hlow := (unit.code ++ op.code).isLt
  apply BitVec.eq_of_toNat_eq
  simp only [Fields.word, toNat_append_eq] at *
  simp only [BitVec.ofNat_eq_ofNat, BitVec.toNat_ofNat, Nat.reducePow, Nat.zero_mod, zero_mul,
    Nat.mod_eq_of_lt hwidth, zero_add, add_zero, pow_one, BitVec.ofBool_false]
  omega

theorem toNat_eq_zero_iff {v : U32} : v.toNat = 0 ↔ v = 0 := BitVec.toNat_inj (y := 0)

section
variable {s : State} {n : Inst} {i : Instr} {f : Inst → Inst} {width : ℕ} (hlive : Live s n)
  (hi : exec i s =
    s.onTarget fun n => if !validWidth width then n.raise .widthAbort s.cur.word else f n)
include hlive hi

/-- The width is checked first (43_mls.md R263, 60_exceptions.md R345). -/
theorem faults_widthAbort (hwidth : width = 0 ∨ 31 < width) : Faults i s n .widthAbort :=
  faults_of_onTarget hlive hi (by simp [validWidth_eq_false_iff.mpr hwidth])

theorem completes_of_validWidth {node : Node} {results : List XferWord}
    (hwidth : ¬(width = 0 ∨ 31 < width)) (hf : f n = n.complete node results) :
    Completes i s n node results :=
  completes_of_onTarget hlive hi (by simpa [validWidth_of_not hwidth] using hf)

end

section
variable {s : State} {n : Inst} {width : ℕ} (hlive : Live s n)
  (hwidth : ¬(width = 0 ∨ 31 < width)) {st : U32}
include hlive hwidth

/-- Where the width is valid the state is checked next (43_mls.md R267). -/
theorem mlsNew_faults_state (hst : st.toNat = 0 ∨ 2 ^ width ≤ st.toNat) :
    Faults (.mlsNew width st) s n .mlsStateInvalid := by
  rw [toNat_eq_zero_iff] at hst
  refine faults_of_onTarget (f := mlsConstruct width st s.cur.word) hlive rfl ?_
  rw [mlsConstruct, validWidth_of_not hwidth, if_neg (by decide), if_pos hst]

theorem mlsNew_completes (hst : ¬(st.toNat = 0 ∨ 2 ^ width ≤ st.toNat)) :
    Completes (.mlsNew width st) s n (.mls ⟨BitVec.ofNat 32 width, st⟩) [] := by
  rw [toNat_eq_zero_iff] at hst
  exact completes_of_validWidth hlive rfl hwidth (if_neg hst)

/-- MLS.NEWSEED seeds S with its operand (43_mls.md R268). -/
theorem mlsNewSeed_completes (seed : U32) :
    Completes (.mlsNewSeed width seed) s n (.mls ⟨BitVec.ofNat 32 width, mlsSeed width seed⟩) [] :=
  completes_of_validWidth hlive rfl hwidth rfl

/-- MLSNOISE.NEW seeds S with INITIAL_HASH (44_noise.md R291). -/
theorem mlsnoiseNew_completes :
    Completes (.mlsnoiseNew width) s n
      (.mlsnoise ⟨BitVec.ofNat 32 width, mlsSeed width Config.initialHash, Config.initialHash⟩) [] :=
  completes_of_validWidth hlive rfl hwidth rfl

end

/-- Settles O34: the three branches of the construction, of which the first is taken before the state is
looked at. -/
theorem mlsNewChecksThenConstructs : Obligations.MlsNewChecksThenConstructs := by
  intro s n width st hlive
  refine ⟨fun h => decode_of_fields ⟨.mls, .new, false, width⟩ rfl rfl ⟨word_width _ _ h, h⟩, ?_⟩
  split
  case isTrue hwidth => exact faults_widthAbort hlive rfl hwidth
  case isFalse hwidth =>
    split
    case isTrue hst => exact mlsNew_faults_state hlive hwidth hst
    case isFalse hst =>
      exact ⟨_, toNat_ofNat_width hwidth, rfl, mlsNew_completes hlive hwidth hst⟩

/-- Settles O35: both constructions check the width alone, and the seed formula gives S. -/
theorem seededConstructionsDeriveState : Obligations.SeededConstructionsDeriveState := by
  intro s n width seed hlive
  refine ⟨fun h => ⟨decode_of_fields ⟨.mls, .newSeed, false, width⟩ rfl rfl ⟨word_width _ _ h, h⟩,
    decode_of_fields ⟨.mlsnoise, .new, false, width⟩ rfl rfl ⟨word_width _ _ h, h⟩⟩, ?_⟩
  split
  case isTrue hwidth =>
    exact ⟨faults_widthAbort hlive rfl hwidth, faults_widthAbort hlive rfl hwidth⟩
  case isFalse hwidth =>
    have hseed (seed : U32) : (mlsSeed width seed).toNat = 1 + seed.toNat % (2 ^ width - 1) :=
      toNat_mlsSeed (by omega) (by omega) seed
    exact ⟨⟨_, toNat_ofNat_width hwidth, hseed seed, mlsNewSeed_completes hlive hwidth seed⟩,
      _, toNat_ofNat_width hwidth, rfl, hseed _, mlsnoiseNew_completes hlive hwidth⟩

end Sys2Proof.Machine

end

section
/-! SUPPORT. Proof of the statement about the period of the Mls sequences (43_mls.md R272): MLS_NEXT is linear
over GF(2), so that its powers at the state 1 are powers of x modulo the feedback polynomial, which are
computed; the order of x is 2^n - 1 by the prime factors of that number. -/

-- Elaborating one declaration at a time keeps this text within the memory the check allows.
set_option Elab.async false

/-! ### Powers of a linear map as powers of x modulo a polynomial

A state is the number of its bits, and states are added by exclusive or; a polynomial over GF(2) is the
number of its coefficients. -/

namespace Sys2Proof.Machine

/-- `r(F) v`, for the polynomial `r` up to the coefficient of `x^(m-1)`. -/
def evalPoly (F : ℕ → ℕ) : ℕ → ℕ → ℕ → ℕ
  | 0, _, _ => 0
  | m + 1, r, v => r % 2 * v ^^^ evalPoly F m (r / 2) (F v)

/-- `x r` modulo the polynomial `c` of degree `n`. -/
def mulX (c n r : ℕ) : ℕ := 2 * r ^^^ r / 2 ^ (n - 1) % 2 * c

/-- `a b` modulo the polynomial `c` of degree `n`, for the polynomial `b` up to the coefficient of
`x^(m-1)`. -/
def mulPoly (c n : ℕ) : ℕ → ℕ → ℕ → ℕ
  | 0, _, _ => 0
  | m + 1, a, b => b % 2 * a ^^^ mulX c n (mulPoly c n m a (b / 2))

/-- `x^k` modulo the polynomial `c` of degree `n`, for `k < 2^m`, by repeated squaring. -/
def powX (c n : ℕ) : ℕ → ℕ → ℕ
  | 0, _ => 1
  | m + 1, k =>
    if k % 2 = 1 then mulX c n (mulPoly c n n (powX c n m (k / 2)) (powX c n m (k / 2)))
    else mulPoly c n n (powX c n m (k / 2)) (powX c n m (k / 2))

/-- The map is linear over GF(2). -/
def XorLinear (F : ℕ → ℕ) : Prop := ∀ a b, F (a ^^^ b) = F a ^^^ F b

section
variable {F : ℕ → ℕ} (hF : XorLinear F) (m n : ℕ) (r v : ℕ)
include hF

theorem map_zero_of_xorLinear : F 0 = 0 := by
  have h := hF 0 0
  rwa [Nat.xor_self, Nat.xor_self] at h

theorem map_bit_mul (b : ℕ) : F (b % 2 * v) = b % 2 * F v := by
  rcases Nat.mod_two_eq_zero_or_one b with h | h
  · rw [h, zero_mul, zero_mul, map_zero_of_xorLinear hF]
  · rw [h, one_mul, one_mul]

theorem map_evalPoly : F (evalPoly F m r v) = evalPoly F m r (F v) := by
  induction m generalizing r v with
  | zero => exact map_zero_of_xorLinear hF
  | succ m ih => rw [evalPoly, evalPoly, hF, map_bit_mul hF, ih]

theorem iterate_evalPoly (k : ℕ) : F^[k] (evalPoly F m r v) = evalPoly F m r (F^[k] v) := by
  induction k generalizing v with
  | zero => rfl
  | succ k ih => rw [Function.iterate_succ_apply, map_evalPoly hF, ih, Function.iterate_succ_apply]

omit hF

theorem xor_bit_mul (a b : ℕ) : (a ^^^ b) % 2 * v = a % 2 * v ^^^ b % 2 * v := by
  rw [Nat.xor_mod_two_eq, Nat.add_mod]
  rcases Nat.mod_two_eq_zero_or_one a with ha | ha <;>
    rcases Nat.mod_two_eq_zero_or_one b with hb | hb <;> simp [ha, hb]

theorem evalPoly_xor (a b : ℕ) :
    evalPoly F m (a ^^^ b) v = evalPoly F m a v ^^^ evalPoly F m b v := by
  induction m generalizing a b v with
  | zero => exact (Nat.xor_self 0).symm
  | succ m ih =>
    rw [evalPoly, evalPoly, evalPoly, xor_bit_mul, Nat.xor_div_two, ih]
    ac_rfl

theorem evalPoly_bit_mul (b : ℕ) : evalPoly F m (b % 2 * r) v = b % 2 * evalPoly F m r v :=
  map_bit_mul (F := fun r => evalPoly F m r v) (evalPoly_xor m v) r b

theorem evalPoly_zero : evalPoly F m 0 v = 0 :=
  map_zero_of_xorLinear (F := fun r => evalPoly F m r v) (evalPoly_xor m v)

theorem evalPoly_one {n : ℕ} (hn : 0 < n) : evalPoly F n 1 v = v := by
  obtain ⟨j, rfl⟩ := Nat.exists_eq_succ_of_ne_zero hn.ne'
  simp [evalPoly, evalPoly_zero]

theorem evalPoly_succ : evalPoly F (m + 1) r v = evalPoly F m r v ^^^ r / 2 ^ m % 2 * F^[m] v := by
  induction m generalizing r v with
  | zero => simp [evalPoly]
  | succ m ih =>
    rw [evalPoly, ih, evalPoly, Nat.xor_assoc, Nat.div_div_eq_div_mul, ← pow_succ',
      Function.iterate_succ_apply]

theorem evalPoly_two_mul : evalPoly F (m + 1) (2 * r) v = evalPoly F m r (F v) := by
  simp [evalPoly]

end

section
variable {F : ℕ → ℕ} (hF : XorLinear F) {c n e : ℕ} (hn : 0 < n)
  (hc : evalPoly F n c e = F^[n] e)
include hF hn hc

/-- Multiplying by x is applying F: the coefficient of x^n that comes up is replaced by c. -/
theorem evalPoly_mulX (r : ℕ) : evalPoly F n (mulX c n r) e = F (evalPoly F n r e) := by
  have hbit : 2 * r / 2 ^ n = r / 2 ^ (n - 1) := by
    obtain ⟨k, rfl⟩ := Nat.exists_eq_succ_of_ne_zero hn.ne'
    rw [Nat.succ_sub_one, Nat.succ_eq_add_one, pow_succ', Nat.mul_div_mul_left _ _ two_pos]
  calc evalPoly F n (mulX c n r) e
      = evalPoly F n (2 * r) e ^^^ r / 2 ^ (n - 1) % 2 * F^[n] e := by
        rw [mulX, evalPoly_xor, evalPoly_bit_mul, hc]
    _ = evalPoly F (n + 1) (2 * r) e := by rw [evalPoly_succ, hbit]
    _ = F (evalPoly F n r e) := by rw [evalPoly_two_mul, map_evalPoly hF]

theorem evalPoly_mulPoly (m a b : ℕ) :
    evalPoly F n (mulPoly c n m a b) e = evalPoly F m b (evalPoly F n a e) := by
  induction m generalizing b with
  | zero => exact evalPoly_zero n e
  | succ m ih =>
    rw [mulPoly, evalPoly_xor, evalPoly_bit_mul, evalPoly_mulX hF hn hc, ih, map_evalPoly hF, evalPoly]

/-- The square of a power of x. -/
theorem evalPoly_square {a k : ℕ} (ha : evalPoly F n a e = F^[k] e) :
    evalPoly F n (mulPoly c n n a a) e = F^[2 * k] e := by
  rw [evalPoly_mulPoly hF hn hc, ha, ← iterate_evalPoly hF, ha, ← Function.iterate_add_apply, two_mul]

/-- The powers of F at `e` are the powers of x modulo `c`, if F^n is c there. -/
theorem evalPoly_powX {m k : ℕ} (hk : k < 2 ^ m) : evalPoly F n (powX c n m k) e = F^[k] e := by
  induction m generalizing k with
  | zero =>
    obtain rfl : k = 0 := by simpa using hk
    exact evalPoly_one e hn
  | succ m ih =>
    have hsquare := evalPoly_square hF hn hc (ih (k := k / 2) (by omega))
    rw [powX]
    split
    case isTrue hodd =>
      rw [evalPoly_mulX hF hn hc, hsquare, ← Function.iterate_succ_apply' F]
      congr 2
      omega
    case isFalse heven =>
      rw [hsquare]
      congr 2
      omega

end

/-! ### MLS_NEXT as a linear map on numbers -/

theorem countP_bne_mod_two (p q : ℕ → Bool) (l : List ℕ) :
    l.countP (fun i => p i != q i) % 2 = (l.countP p + l.countP q) % 2 := by
  induction l with
  | nil => rfl
  | cons i l ih =>
    simp only [List.countP_cons]
    cases p i <;> cases q i <;> simp <;> omega

/-- The parity of the set bits of a sum is the sum of the parities. -/
theorem popcount_xor_mod_two (v w : U32) :
    popcount (v ^^^ w) % 2 = (popcount v + popcount w) % 2 := by
  have hbits : (v ^^^ w).getLsbD = fun i => v.getLsbD i != w.getLsbD i := by
    funext i
    exact BitVec.getLsbD_xor
  rw [popcount, hbits, countP_bne_mod_two, popcount, popcount]

/-- The shift and the parity of the masked state are linear (43_mls.md R265). -/
theorem mlsNext_xor {n : ℕ} (h31 : n ≤ 31) (poly : ℕ → U32) (s t : U32) :
    mlsNext poly n (s ^^^ t) = mlsNext poly n s ^^^ mlsNext poly n t := by
  have hmasked : poly n &&& (s ^^^ t) = (poly n &&& s) ^^^ (poly n &&& t) := by
    ext i
    simp [Bool.and_xor_distrib_left]
  have hparity : decide (popcount (poly n &&& (s ^^^ t)) % 2 = 1) =
      (decide (popcount (poly n &&& s) % 2 = 1) != decide (popcount (poly n &&& t) % 2 = 1)) := by
    rw [hmasked, popcount_xor_mod_two, Nat.add_mod]
    rcases Nat.mod_two_eq_zero_or_one (popcount (poly n &&& s)) with hs | hs <;>
      rcases Nat.mod_two_eq_zero_or_one (popcount (poly n &&& t)) with ht | ht <;> simp [hs, ht]
  refine BitVec.eq_of_getLsbD_eq fun i _ => ?_
  simp only [BitVec.getLsbD_xor, getLsbD_mlsNext h31, hparity]
  rcases Nat.lt_or_ge i n with hi | hi
  · simp only [hi, decide_true, Bool.true_and]
    split <;> rfl
  · simp [Nat.not_lt.mpr hi]

/-- MLS_NEXT of width n over the default table, on numbers. -/
def mlsStep (n v : ℕ) : ℕ := (mlsNext Params.default.mlsPoly n (BitVec.ofNat 32 v)).toNat

theorem xorLinear_mlsStep {n : ℕ} (h31 : n ≤ 31) : XorLinear (mlsStep n) := fun a b => by
  rw [mlsStep, BitVec.ofNat_xor, mlsNext_xor h31, BitVec.toNat_xor, mlsStep, mlsStep]

theorem toNat_iterate_mlsNext (n k : ℕ) (s : U32) :
    ((mlsNext Params.default.mlsPoly n)^[k] s).toNat = (mlsStep n)^[k] s.toNat := by
  have hsemi : Function.Semiconj BitVec.toNat (mlsNext Params.default.mlsPoly n) (mlsStep n) :=
    fun s => by rw [mlsStep, BitVec.ofNat_toNat, BitVec.setWidth_eq]
  exact hsemi.iterate_right k s

/-! ### The order of x -/

/-- The feedback polynomial of width n over the default table: x^n and an x^(n-1-i) for every bit i of the
mask (43_mls.md R261). -/
def feedbackBits (n : ℕ) : ℕ :=
  (List.range n).foldr
    (fun i c => c + ((Params.default.mlsPoly n).getLsbD i).toNat * 2 ^ (n - 1 - i)) (2 ^ n)

/-- The prime factors of 2^n - 1 for n from 1 to 31, with their multiplicities. -/
def mersenneFactorTable : List (List ℕ) :=
  [[], [3], [7], [3, 5], [31], [3, 3, 7], [127], [3, 5, 17], [7, 73], [3, 11, 31], [23, 89],
   [3, 3, 5, 7, 13], [8191], [3, 43, 127], [7, 31, 151], [3, 5, 17, 257], [131071],
   [3, 3, 3, 7, 19, 73], [524287], [3, 5, 5, 11, 31, 41], [7, 7, 127, 337], [3, 23, 89, 683],
   [47, 178481], [3, 3, 5, 7, 13, 17, 241], [31, 601, 1801], [3, 2731, 8191], [7, 73, 262657],
   [3, 5, 29, 43, 113, 127], [233, 1103, 2089], [3, 3, 7, 11, 31, 151, 331], [2147483647]]

/-- The prime factors of 2^n - 1. -/
def mersenneFactors (n : ℕ) : List ℕ := mersenneFactorTable.getD (n - 1) []

theorem prod_mersenneFactors : ∀ n ≤ 31, 1 ≤ n → (mersenneFactors n).prod = 2 ^ n - 1 := by
  decide +kernel

theorem prime_of_mem_mersenneFactors {n q : ℕ} (hq : q ∈ mersenneFactors n) : q.Prime := by
  have hmersenne : (2147483647).Prime := by
    have h := lucas_lehmer_sufficiency 31 (by norm_num) (by norm_num)
    rwa [mersenne] at h
  have htable : ∀ qs ∈ mersenneFactorTable, ∀ q ∈ qs, q.Prime := by
    simp only [mersenneFactorTable, List.forall_mem_cons, List.not_mem_nil, false_implies,
      implies_true, hmersenne, and_true]
    norm_num
  rw [mersenneFactors, List.getD_eq_getElem?_getD] at hq
  cases hqs : mersenneFactorTable[n - 1]? with
  | none => simp [hqs] at hq
  | some qs =>
    rw [hqs] at hq
    exact htable qs (List.mem_of_getElem? hqs) q hq

theorem mem_mersenneFactors {n q : ℕ} (h1 : 1 ≤ n) (h31 : n ≤ 31) (hq : q.Prime)
    (hdvd : q ∣ 2 ^ n - 1) : q ∈ mersenneFactors n := by
  rw [← prod_mersenneFactors n h31 h1] at hdvd
  exact mem_list_primes_of_dvd_prod hq.prime
    (fun q hq => (prime_of_mem_mersenneFactors hq).prime) hdvd

/-- What is computed of a width: x^n is the feedback polynomial at the state 1, x^(2^n - 1) is 1, and x to
the power of no maximal proper divisor of 2^n - 1 keeps the state 1. -/
abbrev PeriodComputed (n : ℕ) : Prop :=
  evalPoly (mlsStep n) n (feedbackBits n) 1 = (mlsStep n)^[n] 1 ∧
    powX (feedbackBits n) n n (2 ^ n - 1) = 1 ∧
    ∀ q ∈ mersenneFactors n,
      evalPoly (mlsStep n) n (powX (feedbackBits n) n n ((2 ^ n - 1) / q)) 1 ≠ 1

/-- One width at a time, so that the kernel evaluates little at once. -/
theorem periodComputed {n : ℕ} (h1 : 1 ≤ n) (h31 : n ≤ 31) : PeriodComputed n := by
  interval_cases n <;> decide +kernel

/-- A period of which no maximal proper divisor is a period is the least one. -/
theorem minimalPeriod_eq_of_prime_divisors {α : Type*} {g : α → α} {x : α} {N : ℕ}
    (hper : Function.IsPeriodicPt g N x)
    (hdiv : ∀ q, q.Prime → q ∣ N → ¬Function.IsPeriodicPt g (N / q) x) :
    Function.minimalPeriod g x = N := by
  obtain ⟨k, hk⟩ := hper.minimalPeriod_dvd
  have hone : k = 1 := by
    by_contra hne
    obtain ⟨q, hq, j, rfl⟩ := Nat.exists_prime_and_dvd hne
    have hN : N = Function.minimalPeriod g x * j * q := by rw [hk, mul_comm q, mul_assoc]
    refine hdiv q hq (hN ▸ Nat.dvd_mul_left ..) ?_
    rw [hN, Nat.mul_div_cancel _ hq.pos]
    exact (Function.isPeriodicPt_minimalPeriod g x).mul_const j
  rw [hk, hone, mul_one]

/-- The state 1 has the full period (43_mls.md R272). -/
theorem minimalPeriod_one {n : ℕ} (h1 : 1 ≤ n) (h31 : n ≤ 31) :
    Function.minimalPeriod (mlsNext Params.default.mlsPoly n) 1 = 2 ^ n - 1 := by
  obtain ⟨hfeedback, hone, hdivisors⟩ := periodComputed h1 h31
  have hpow k (hk : k < 2 ^ n) := evalPoly_powX (xorLinear_mlsStep h31) h1 hfeedback hk
  have hperiodic k (hk : k < 2 ^ n) : Function.IsPeriodicPt (mlsNext Params.default.mlsPoly n) k 1 ↔
      evalPoly (mlsStep n) n (powX (feedbackBits n) n n k) 1 = 1 := by
    rw [hpow k hk, Function.IsPeriodicPt, Function.IsFixedPt, ← BitVec.toNat_inj,
      toNat_iterate_mlsNext]
    rfl
  have hN : 2 ^ 1 ≤ 2 ^ n := Nat.pow_le_pow_right (by decide) h1
  refine minimalPeriod_eq_of_prime_divisors ?_ fun q hq hdvd => ?_
  · rw [hperiodic _ (by omega), hone]
    exact evalPoly_one 1 h1
  · have hle : (2 ^ n - 1) / q ≤ 2 ^ n - 1 := Nat.div_le_self _ _
    rw [hperiodic _ (by omega)]
    exact hdivisors q (mem_mersenneFactors h1 h31 hq hdvd)

/-! ### The orbit of the state 1 is every state -/

/-- The mask of every width of the default table has its top bit (43_mls.md R262). -/
theorem default_mlsPoly_top {n : ℕ} (h1 : 1 ≤ n) (h31 : n ≤ 31) :
    (Params.default.mlsPoly n).getLsbD (n - 1) = true := by
  obtain ⟨-, -, -, hmasks⟩ := powerOnMeetsInvariants
  obtain ⟨-, htop⟩ := hmasks ⟨n - 1, by omega⟩
  rwa [Nat.sub_add_cancel h1] at htop

section
variable {n : ℕ} (h1 : 1 ≤ n) (h31 : n ≤ 31)
include h1 h31

theorem iterate_mem_mlsStates {st : U32} (hst : st ∈ mlsStates n) (k : ℕ) :
    (mlsNext Params.default.mlsPoly n)^[k] st ∈ mlsStates n :=
  (mlsNext_mapsTo h31 h1 (default_mlsPoly_top h1 h31)).iterate k hst

/-- The 2^n - 1 states of one full period are different, and so are all that there are. -/
theorem exists_iterate_eq {st v : U32} (hst : st ∈ mlsStates n)
    (hperiod : Function.minimalPeriod (mlsNext Params.default.mlsPoly n) st = 2 ^ n - 1)
    (hv : v ∈ mlsStates n) :
    ∃ k < 2 ^ n - 1, (mlsNext Params.default.mlsPoly n)^[k] st = v := by
  have hinj : Set.InjOn (fun k => ((mlsNext Params.default.mlsPoly n)^[k] st).toNat)
      (Finset.range (2 ^ n - 1)) := by
    rw [Finset.coe_range, ← hperiod]
    exact BitVec.toNat_injective.comp_injOn Function.iterate_injOn_Iio_minimalPeriod
  have hsubset : (Finset.range (2 ^ n - 1)).image
      (fun k => ((mlsNext Params.default.mlsPoly n)^[k] st).toNat) ⊆ Finset.Ico 1 (2 ^ n) :=
    Finset.image_subset_iff.mpr fun k _ =>
      Finset.mem_Ico.mpr (iterate_mem_mlsStates h1 h31 hst k)
  have hall := Finset.eq_of_subset_of_card_le hsubset
    (by rw [Finset.card_image_of_injOn hinj, Finset.card_range, Nat.card_Ico])
  have hmem := Finset.mem_Ico.mpr hv
  rw [← hall, Finset.mem_image] at hmem
  obtain ⟨k, hk, hkv⟩ := hmem
  exact ⟨k, Finset.mem_range.mp hk, BitVec.toNat_injective hkv⟩

/-- Every state is on the orbit of the state 1 and has its period. -/
theorem minimalPeriod_eq {st : U32} (hst : st ∈ mlsStates n) :
    Function.minimalPeriod (mlsNext Params.default.mlsPoly n) st = 2 ^ n - 1 := by
  have hpow : 2 ^ 1 ≤ 2 ^ n := Nat.pow_le_pow_right (by decide) h1
  have hone := minimalPeriod_one h1 h31
  obtain ⟨k, -, rfl⟩ := exists_iterate_eq h1 h31 (st := 1) ⟨le_rfl, hpow⟩ hone hst
  rw [Function.minimalPeriod_apply_iterate, hone]
  exact Function.minimalPeriod_pos_iff_mem_periodicPts.mp (by omega)

end

/-- Settles O39: the state 1 has the period 2^n - 1, so that its orbit is every state; hence every state has
that period and visits every state. -/
theorem mlsSequenceHasFullPeriod : Obligations.MlsSequenceHasFullPeriod := by
  intro n st h1 h31 hpos hlt
  have hst : st ∈ mlsStates n := ⟨hpos, hlt⟩
  have hperiod := minimalPeriod_eq h1 h31 hst
  refine ⟨hperiod, fun v hv hv' => exists_iterate_eq h1 h31 hst hperiod ⟨hv, hv'⟩, fun k => ?_⟩
  obtain ⟨hk, -⟩ := iterate_mem_mlsStates h1 h31 hst k
  exact one_le_toNat_iff.mp hk

end Sys2Proof.Machine

end
